-- ==== Sys2Proof/Word.lean ====
section
/-! DEFINITION. The words of the HVU: widths, register numbers and the three floating-point formats. -/

namespace Sys2Proof

/-- A 64-bit container: a scalar register, a generator word, a vector element, write data (R9, R21, R26). -/
abbrev Word := BitVec 64

/-- A 32-bit command word (R65). -/
abbrev CmdWord := BitVec 32

/-- The number of a scalar register, 0 to 15 (R21, R51). -/
abbrev SReg := Fin 16

/-- The number of a vector register, 0 to 15 (R23, R51). -/
abbrev VReg := Fin 16

/-- The three floating-point formats (R140). The fourth code of the `fmt` field names none (R75). -/
inductive Fmt where
  | half
  | single
  | double
deriving DecidableEq, Repr

end Sys2Proof
end

