-- ==== Sys2Proof/Syntax.lean ====
section
/-! DEFINITION. The instructions of the HVU: one constructor per row of `spec/opcode_table.json` (R70, R71). -/

namespace Sys2Proof

/-- The 53 instructions and the six reserved-format rows (R70, R71, R75). -/
inductive Instr where
  /-- `NOP` (R90). -/
  | nop
  /-- `MTS rd, wdata` (R91); the write data of the command is its second operand (R77). -/
  | mts (rd : SReg) (wdata : Word)
  /-- `MFS rs1` (R92). -/
  | mfs (rs1 : SReg)
  /-- `RDCSR rd, csr` (R93); `csr` is the 10-bit CSR number (R69). -/
  | rdcsr (rd : SReg) (csr : Nat)
  /-- `POPC8 rd, rs1` (R103). -/
  | popc8 (rd rs1 : SReg)
  /-- `POPC16 rd, rs1` (R104). -/
  | popc16 (rd rs1 : SReg)
  /-- `POPC32 rd, rs1` (R105). -/
  | popc32 (rd rs1 : SReg)
  /-- `POPC64 rd, rs1` (R106). -/
  | popc64 (rd rs1 : SReg)
  /-- `ROL32 rd, rs1, rs2` (R107). -/
  | rol32 (rd rs1 rs2 : SReg)
  /-- `ROR32 rd, rs1, rs2` (R108). -/
  | ror32 (rd rs1 rs2 : SReg)
  /-- `ROL64 rd, rs1, rs2` (R109). -/
  | rol64 (rd rs1 rs2 : SReg)
  /-- `ROR64 rd, rs1, rs2` (R110). -/
  | ror64 (rd rs1 rs2 : SReg)
  /-- `ROL32I rd, rs1, sh` (R111); `sh` is 0 to 63 (R69). -/
  | rol32i (rd rs1 : SReg) (sh : Nat)
  /-- `ROR32I rd, rs1, sh` (R112); `sh` is 0 to 63 (R69). -/
  | ror32i (rd rs1 : SReg) (sh : Nat)
  /-- `ROL64I rd, rs1, sh` (R113); `sh` is 0 to 63 (R69). -/
  | rol64i (rd rs1 : SReg) (sh : Nat)
  /-- `ROR64I rd, rs1, sh` (R114); `sh` is 0 to 63 (R69). -/
  | ror64i (rd rs1 : SReg) (sh : Nat)
  /-- `SEED rs1` (R121). -/
  | seed (rs1 : SReg)
  /-- `NEXTU64 rd` (R123). -/
  | nextu64 (rd : SReg)
  /-- `NEXTU32 rd` (R124). -/
  | nextu32 (rd : SReg)
  /-- `NEXTU16 rd` (R125). -/
  | nextu16 (rd : SReg)
  /-- `NEXTU8 rd` (R126). -/
  | nextu8 (rd : SReg)
  /-- `NEXTBOOL rd` (R127). -/
  | nextbool (rd : SReg)
  /-- `NEXT12.H rd` (R144). -/
  | next12H (rd : SReg)
  /-- `NEXT12.S rd` (R145). -/
  | next12S (rd : SReg)
  /-- `NEXT12.D rd` (R146). -/
  | next12D (rd : SReg)
  /-- `NEXT12` with the reserved `fmt = 3` (R75). -/
  | next12Fmt3 (rd : SReg)
  /-- `NEXT01.H rd` (R147). -/
  | next01H (rd : SReg)
  /-- `NEXT01.S rd` (R148). -/
  | next01S (rd : SReg)
  /-- `NEXT01.D rd` (R149). -/
  | next01D (rd : SReg)
  /-- `NEXT01` with the reserved `fmt = 3` (R75). -/
  | next01Fmt3 (rd : SReg)
  /-- `NEXTUNIT.H rd` (R150). -/
  | nextunitH (rd : SReg)
  /-- `NEXTUNIT.S rd` (R151). -/
  | nextunitS (rd : SReg)
  /-- `NEXTUNIT.D rd` (R152). -/
  | nextunitD (rd : SReg)
  /-- `NEXTUNIT` with the reserved `fmt = 3` (R75). -/
  | nextunitFmt3 (rd : SReg)
  /-- `NEXTVEC.H rd, rs1` (R154). -/
  | nextvecH (rd rs1 : SReg)
  /-- `NEXTVEC.S rd, rs1` (R155). -/
  | nextvecS (rd rs1 : SReg)
  /-- `NEXTVEC.D rd, rs1` (R156). -/
  | nextvecD (rd rs1 : SReg)
  /-- `NEXTVEC` with the reserved `fmt = 3` (R75). -/
  | nextvecFmt3 (rd rs1 : SReg)
  /-- `VNEW.H vd, rs1` (R192). -/
  | vnewH (vd : VReg) (rs1 : SReg)
  /-- `VNEW.S vd, rs1` (R193). -/
  | vnewS (vd : VReg) (rs1 : SReg)
  /-- `VNEW.D vd, rs1` (R197). -/
  | vnewD (vd : VReg) (rs1 : SReg)
  /-- `VNEW` with the reserved `fmt = 3` (R75). -/
  | vnewFmt3 (vd : VReg) (rs1 : SReg)
  /-- `VGEN.H vd, rs1, rs2` (R198). -/
  | vgenH (vd : VReg) (rs1 rs2 : SReg)
  /-- `VGEN.S vd, rs1, rs2` (R199). -/
  | vgenS (vd : VReg) (rs1 rs2 : SReg)
  /-- `VGEN.D vd, rs1, rs2` (R200). -/
  | vgenD (vd : VReg) (rs1 rs2 : SReg)
  /-- `VGEN` with the reserved `fmt = 3` (R75). -/
  | vgenFmt3 (vd : VReg) (rs1 rs2 : SReg)
  /-- `VCOPY vd, vs1` (R201). -/
  | vcopy (vd vs1 : VReg)
  /-- `VINFO rd, vs1` (R194). -/
  | vinfo (rd : SReg) (vs1 : VReg)
  /-- `VGETE rd, vs1, rs2` (R195). -/
  | vgete (rd : SReg) (vs1 : VReg) (rs2 : SReg)
  /-- `VSETE vd, rs1, rs2` (R196). -/
  | vsete (vd : VReg) (rs1 rs2 : SReg)
  /-- `VNORM rd, vs1` (R211). -/
  | vnorm (rd : SReg) (vs1 : VReg)
  /-- `VDOT rd, vs1, vs2` (R212). -/
  | vdot (rd : SReg) (vs1 vs2 : VReg)
  /-- `VCOS rd, vs1, vs2` (R213). -/
  | vcos (rd : SReg) (vs1 vs2 : VReg)
  /-- `VMUL vd, vs1, vs2` (R214). -/
  | vmul (vd vs1 vs2 : VReg)
  /-- `VEQ rd, vs1, vs2` (R216). -/
  | veq (rd : SReg) (vs1 vs2 : VReg)
  /-- `VROTL vd, vs1` (R217). -/
  | vrotl (vd vs1 : VReg)
  /-- `VROTR vd, vs1` (R218). -/
  | vrotr (vd vs1 : VReg)
  /-- `VAGG vd, mask` (R219). -/
  | vagg (vd : VReg) (mask : BitVec 16)
  /-- `VAGGI vd, mask` (R220). -/
  | vaggi (vd : VReg) (mask : BitVec 16)
deriving DecidableEq, Repr

end Sys2Proof
end

