-- ==== Sys2Proof/WellFormed.lean ====
section
/-! DEFINITION. Which terms of `Instr` an encoding exists for: the two operands held as numbers fit their fields. Register
numbers, the mask and the write data are in range by their types. A term that is not well-formed is never decoded (log 17). -/

namespace Sys2Proof

/-- R69: `csr` is an unsigned 10-bit number; `sh` is `imm10[5:0]`, 0 to 63. -/
def Instr.wellFormed : Instr → Bool
  | .nop => true
  | .mts _ _ => true
  | .mfs _ => true
  | .rdcsr _ csr => csr < 1024
  | .popc8 _ _ => true
  | .popc16 _ _ => true
  | .popc32 _ _ => true
  | .popc64 _ _ => true
  | .rol32 _ _ _ => true
  | .ror32 _ _ _ => true
  | .rol64 _ _ _ => true
  | .ror64 _ _ _ => true
  | .rol32i _ _ sh => sh < 64
  | .ror32i _ _ sh => sh < 64
  | .rol64i _ _ sh => sh < 64
  | .ror64i _ _ sh => sh < 64
  | .seed _ => true
  | .nextu64 _ => true
  | .nextu32 _ => true
  | .nextu16 _ => true
  | .nextu8 _ => true
  | .nextbool _ => true
  | .next12H _ => true
  | .next12S _ => true
  | .next12D _ => true
  | .next12Fmt3 _ => true
  | .next01H _ => true
  | .next01S _ => true
  | .next01D _ => true
  | .next01Fmt3 _ => true
  | .nextunitH _ => true
  | .nextunitS _ => true
  | .nextunitD _ => true
  | .nextunitFmt3 _ => true
  | .nextvecH _ _ => true
  | .nextvecS _ _ => true
  | .nextvecD _ _ => true
  | .nextvecFmt3 _ _ => true
  | .vnewH _ _ => true
  | .vnewS _ _ => true
  | .vnewD _ _ => true
  | .vnewFmt3 _ _ => true
  | .vgenH _ _ _ => true
  | .vgenS _ _ _ => true
  | .vgenD _ _ _ => true
  | .vgenFmt3 _ _ _ => true
  | .vcopy _ _ => true
  | .vinfo _ _ => true
  | .vgete _ _ _ => true
  | .vsete _ _ _ => true
  | .vnorm _ _ => true
  | .vdot _ _ _ => true
  | .vcos _ _ _ => true
  | .vmul _ _ _ => true
  | .veq _ _ _ => true
  | .vrotl _ _ => true
  | .vrotr _ _ => true
  | .vagg _ _ => true
  | .vaggi _ _ => true

end Sys2Proof
end

