-- ==== Sys2Proof/Decode.lean ====
section
/-! DEFINITION. From command words to instructions and back (30_encoding.md): the decoder, total and strict, and after it the
encoder, both from the formats of R67 and R68 and the field use of R70. -/

namespace Sys2Proof

/-- Why a word is no instruction; both are `ERR_ILLEGAL` (R73). -/
inductive DecodeError where
  /-- The opcode byte is not one of the 41 of R70. -/
  | unassignedOpcode
  /-- A field that must be zero is not. -/
  | nonzeroField
deriving DecidableEq, Repr

/-- `word[hi:lo]` as an unsigned number (R8). -/
def bitField (word : CmdWord) (hi lo : Nat) : Nat := word.toNat / 2 ^ lo % 2 ^ (hi - lo + 1)

/-- A 4-bit register field whose lowest bit is `lo` (R67, R69). -/
def regField (word : CmdWord) (lo : Nat) : Fin 16 := Fin.ofNat 16 (bitField word (lo + 3) lo)

/-- The strictness of R73: an instruction if its must-be-zero fields are zero. -/
def need (fieldsZero : Bool) (i : Instr) : Except DecodeError Instr :=
  if fieldsZero then .ok i else .error .nonzeroField

/-- The four instructions of a format-bearing opcode: one per value of `fmt`, the last the reserved one (R71, R75). -/
def byFmt (fmt : Nat) (h s d reserved : Instr) : Instr :=
  match fmt with
  | 0 => h
  | 1 => s
  | 2 => d
  | _ => reserved

/-- Decoding (R67 to R75). The opcode byte alone selects the command (R71); `wdata` is the operand of `MTS` only (R65). -/
def decode (word : CmdWord) (wdata : Word) : Except DecodeError Instr :=
  let f := bitField word 23 22
  let d := regField word 18
  let a := regField word 14
  let b := regField word 10
  let imm := bitField word 9 0
  let m0 := bitField word 17 16
  let mask := BitVec.ofNat 16 (bitField word 15 0)
  match bitField word 31 24 with
  | 0x01 => need (f == 0 && d == 0 && a == 0 && b == 0 && imm == 0) .nop
  | 0x02 => need (f == 0 && a == 0 && b == 0 && imm == 0) (.mts d wdata)
  | 0x03 => need (f == 0 && d == 0 && b == 0 && imm == 0) (.mfs a)
  | 0x04 => need (f == 0 && a == 0 && b == 0) (.rdcsr d imm)
  | 0x10 => need (f == 0 && b == 0 && imm == 0) (.popc8 d a)
  | 0x11 => need (f == 0 && b == 0 && imm == 0) (.popc16 d a)
  | 0x12 => need (f == 0 && b == 0 && imm == 0) (.popc32 d a)
  | 0x13 => need (f == 0 && b == 0 && imm == 0) (.popc64 d a)
  | 0x14 => need (f == 0 && imm == 0) (.rol32 d a b)
  | 0x15 => need (f == 0 && imm == 0) (.ror32 d a b)
  | 0x16 => need (f == 0 && imm == 0) (.rol64 d a b)
  | 0x17 => need (f == 0 && imm == 0) (.ror64 d a b)
  | 0x18 => need (f == 0 && b == 0 && imm / 64 == 0) (.rol32i d a imm)
  | 0x19 => need (f == 0 && b == 0 && imm / 64 == 0) (.ror32i d a imm)
  | 0x1A => need (f == 0 && b == 0 && imm / 64 == 0) (.rol64i d a imm)
  | 0x1B => need (f == 0 && b == 0 && imm / 64 == 0) (.ror64i d a imm)
  | 0x20 => need (f == 0 && d == 0 && b == 0 && imm == 0) (.seed a)
  | 0x21 => need (f == 0 && a == 0 && b == 0 && imm == 0) (.nextu64 d)
  | 0x22 => need (f == 0 && a == 0 && b == 0 && imm == 0) (.nextu32 d)
  | 0x23 => need (f == 0 && a == 0 && b == 0 && imm == 0) (.nextu16 d)
  | 0x24 => need (f == 0 && a == 0 && b == 0 && imm == 0) (.nextu8 d)
  | 0x25 => need (f == 0 && a == 0 && b == 0 && imm == 0) (.nextbool d)
  | 0x28 => need (a == 0 && b == 0 && imm == 0)
      (byFmt f (.next12H d) (.next12S d) (.next12D d) (.next12Fmt3 d))
  | 0x29 => need (a == 0 && b == 0 && imm == 0)
      (byFmt f (.next01H d) (.next01S d) (.next01D d) (.next01Fmt3 d))
  | 0x2A => need (a == 0 && b == 0 && imm == 0)
      (byFmt f (.nextunitH d) (.nextunitS d) (.nextunitD d) (.nextunitFmt3 d))
  | 0x2B => need (b == 0 && imm == 0)
      (byFmt f (.nextvecH d a) (.nextvecS d a) (.nextvecD d a) (.nextvecFmt3 d a))
  | 0x30 => need (b == 0 && imm == 0)
      (byFmt f (.vnewH d a) (.vnewS d a) (.vnewD d a) (.vnewFmt3 d a))
  | 0x31 => need (imm == 0)
      (byFmt f (.vgenH d a b) (.vgenS d a b) (.vgenD d a b) (.vgenFmt3 d a b))
  | 0x32 => need (f == 0 && b == 0 && imm == 0) (.vcopy d a)
  | 0x33 => need (f == 0 && b == 0 && imm == 0) (.vinfo d a)
  | 0x34 => need (f == 0 && imm == 0) (.vgete d a b)
  | 0x35 => need (f == 0 && imm == 0) (.vsete d a b)
  | 0x40 => need (f == 0 && b == 0 && imm == 0) (.vnorm d a)
  | 0x41 => need (f == 0 && imm == 0) (.vdot d a b)
  | 0x42 => need (f == 0 && imm == 0) (.vcos d a b)
  | 0x43 => need (f == 0 && imm == 0) (.vmul d a b)
  | 0x44 => need (f == 0 && imm == 0) (.veq d a b)
  | 0x48 => need (f == 0 && b == 0 && imm == 0) (.vrotl d a)
  | 0x49 => need (f == 0 && b == 0 && imm == 0) (.vrotr d a)
  | 0x50 =>
    need (f == 0 && m0 == 0) (.vagg d mask)
  | 0x51 =>
    need (f == 0 && m0 == 0) (.vaggi d mask)
  | _ => .error .unassignedOpcode

/-- Format R (R67): `opcode`, `fmt`, `d`, `a`, `b`, `imm10`. -/
def packR (opcode fmt : Nat) (d a b : Fin 16) (imm10 : Nat) : CmdWord :=
  BitVec.ofNat 32 (opcode * 2 ^ 24 + fmt * 2 ^ 22 + d.val * 2 ^ 18 + a.val * 2 ^ 14 + b.val * 2 ^ 10 + imm10)

/-- Format M (R68): `opcode`, `vd`, `mask`. -/
def packM (opcode : Nat) (vd : VReg) (mask : BitVec 16) : CmdWord :=
  BitVec.ofNat 32 (opcode * 2 ^ 24 + vd.val * 2 ^ 18 + mask.toNat)

/-- The command word of an instruction (R70). -/
def encodeWord : Instr → CmdWord
  | .nop => packR 0x01 0 0 0 0 0
  | .mts rd _ => packR 0x02 0 rd 0 0 0
  | .mfs rs1 => packR 0x03 0 0 rs1 0 0
  | .rdcsr rd csr => packR 0x04 0 rd 0 0 csr
  | .popc8 rd rs1 => packR 0x10 0 rd rs1 0 0
  | .popc16 rd rs1 => packR 0x11 0 rd rs1 0 0
  | .popc32 rd rs1 => packR 0x12 0 rd rs1 0 0
  | .popc64 rd rs1 => packR 0x13 0 rd rs1 0 0
  | .rol32 rd rs1 rs2 => packR 0x14 0 rd rs1 rs2 0
  | .ror32 rd rs1 rs2 => packR 0x15 0 rd rs1 rs2 0
  | .rol64 rd rs1 rs2 => packR 0x16 0 rd rs1 rs2 0
  | .ror64 rd rs1 rs2 => packR 0x17 0 rd rs1 rs2 0
  | .rol32i rd rs1 sh => packR 0x18 0 rd rs1 0 sh
  | .ror32i rd rs1 sh => packR 0x19 0 rd rs1 0 sh
  | .rol64i rd rs1 sh => packR 0x1A 0 rd rs1 0 sh
  | .ror64i rd rs1 sh => packR 0x1B 0 rd rs1 0 sh
  | .seed rs1 => packR 0x20 0 0 rs1 0 0
  | .nextu64 rd => packR 0x21 0 rd 0 0 0
  | .nextu32 rd => packR 0x22 0 rd 0 0 0
  | .nextu16 rd => packR 0x23 0 rd 0 0 0
  | .nextu8 rd => packR 0x24 0 rd 0 0 0
  | .nextbool rd => packR 0x25 0 rd 0 0 0
  | .next12H rd => packR 0x28 0 rd 0 0 0
  | .next12S rd => packR 0x28 1 rd 0 0 0
  | .next12D rd => packR 0x28 2 rd 0 0 0
  | .next12Fmt3 rd => packR 0x28 3 rd 0 0 0
  | .next01H rd => packR 0x29 0 rd 0 0 0
  | .next01S rd => packR 0x29 1 rd 0 0 0
  | .next01D rd => packR 0x29 2 rd 0 0 0
  | .next01Fmt3 rd => packR 0x29 3 rd 0 0 0
  | .nextunitH rd => packR 0x2A 0 rd 0 0 0
  | .nextunitS rd => packR 0x2A 1 rd 0 0 0
  | .nextunitD rd => packR 0x2A 2 rd 0 0 0
  | .nextunitFmt3 rd => packR 0x2A 3 rd 0 0 0
  | .nextvecH rd rs1 => packR 0x2B 0 rd rs1 0 0
  | .nextvecS rd rs1 => packR 0x2B 1 rd rs1 0 0
  | .nextvecD rd rs1 => packR 0x2B 2 rd rs1 0 0
  | .nextvecFmt3 rd rs1 => packR 0x2B 3 rd rs1 0 0
  | .vnewH vd rs1 => packR 0x30 0 vd rs1 0 0
  | .vnewS vd rs1 => packR 0x30 1 vd rs1 0 0
  | .vnewD vd rs1 => packR 0x30 2 vd rs1 0 0
  | .vnewFmt3 vd rs1 => packR 0x30 3 vd rs1 0 0
  | .vgenH vd rs1 rs2 => packR 0x31 0 vd rs1 rs2 0
  | .vgenS vd rs1 rs2 => packR 0x31 1 vd rs1 rs2 0
  | .vgenD vd rs1 rs2 => packR 0x31 2 vd rs1 rs2 0
  | .vgenFmt3 vd rs1 rs2 => packR 0x31 3 vd rs1 rs2 0
  | .vcopy vd vs1 => packR 0x32 0 vd vs1 0 0
  | .vinfo rd vs1 => packR 0x33 0 rd vs1 0 0
  | .vgete rd vs1 rs2 => packR 0x34 0 rd vs1 rs2 0
  | .vsete vd rs1 rs2 => packR 0x35 0 vd rs1 rs2 0
  | .vnorm rd vs1 => packR 0x40 0 rd vs1 0 0
  | .vdot rd vs1 vs2 => packR 0x41 0 rd vs1 vs2 0
  | .vcos rd vs1 vs2 => packR 0x42 0 rd vs1 vs2 0
  | .vmul vd vs1 vs2 => packR 0x43 0 vd vs1 vs2 0
  | .veq rd vs1 vs2 => packR 0x44 0 rd vs1 vs2 0
  | .vrotl vd vs1 => packR 0x48 0 vd vs1 0 0
  | .vrotr vd vs1 => packR 0x49 0 vd vs1 0 0
  | .vagg vd mask => packM 0x50 vd mask
  | .vaggi vd mask => packM 0x51 vd mask

/-- The write data of an instruction: the operand of `MTS`; every other command ignores it, and 0 stands for it (R65). -/
def encodeData : Instr → Word
  | .nop => 0
  | .mts _ wdata => wdata
  | .mfs _ => 0
  | .rdcsr _ _ => 0
  | .popc8 _ _ => 0
  | .popc16 _ _ => 0
  | .popc32 _ _ => 0
  | .popc64 _ _ => 0
  | .rol32 _ _ _ => 0
  | .ror32 _ _ _ => 0
  | .rol64 _ _ _ => 0
  | .ror64 _ _ _ => 0
  | .rol32i _ _ _ => 0
  | .ror32i _ _ _ => 0
  | .rol64i _ _ _ => 0
  | .ror64i _ _ _ => 0
  | .seed _ => 0
  | .nextu64 _ => 0
  | .nextu32 _ => 0
  | .nextu16 _ => 0
  | .nextu8 _ => 0
  | .nextbool _ => 0
  | .next12H _ => 0
  | .next12S _ => 0
  | .next12D _ => 0
  | .next12Fmt3 _ => 0
  | .next01H _ => 0
  | .next01S _ => 0
  | .next01D _ => 0
  | .next01Fmt3 _ => 0
  | .nextunitH _ => 0
  | .nextunitS _ => 0
  | .nextunitD _ => 0
  | .nextunitFmt3 _ => 0
  | .nextvecH _ _ => 0
  | .nextvecS _ _ => 0
  | .nextvecD _ _ => 0
  | .nextvecFmt3 _ _ => 0
  | .vnewH _ _ => 0
  | .vnewS _ _ => 0
  | .vnewD _ _ => 0
  | .vnewFmt3 _ _ => 0
  | .vgenH _ _ _ => 0
  | .vgenS _ _ _ => 0
  | .vgenD _ _ _ => 0
  | .vgenFmt3 _ _ _ => 0
  | .vcopy _ _ => 0
  | .vinfo _ _ => 0
  | .vgete _ _ _ => 0
  | .vsete _ _ _ => 0
  | .vnorm _ _ => 0
  | .vdot _ _ _ => 0
  | .vcos _ _ _ => 0
  | .vmul _ _ _ => 0
  | .veq _ _ _ => 0
  | .vrotl _ _ => 0
  | .vrotr _ _ => 0
  | .vagg _ _ => 0
  | .vaggi _ _ => 0

/-- The command that stands for an instruction (R65). -/
def encode (i : Instr) : CmdWord × Word := (encodeWord i, encodeData i)

/-- The instruction the decoder reads from `w`, bits 31..0 the command word and bits 95..32 the write data, every bit from
`nbits` up being 0 (log 16). -/
def decodeTableWord (nbits w : Nat) : Option Instr :=
  let v := w % 2 ^ nbits
  match decode (BitVec.ofNat 32 v) (BitVec.ofNat 64 (v / 2 ^ 32)) with
  | .ok i => some i
  | .error _ => none

end Sys2Proof
end

