-- ==== Sys2Proof/Config.lean ====
section
/-! DEFINITION. What the spec leaves to the implementation or to a free draw (R7, R35, R176). -/

namespace Sys2Proof

/-- DESIGN CHOICE (log 4). The open parameter `VLMAX` less 1: no body, so nothing can rest on a value of it (R7). -/
opaque Config.vlmaxLess1 : Fin 2147483647

/-- `VLMAX`, with `1 <= VLMAX < 2^31` (R7) and nothing else known of it. -/
def Config.vlmax : Nat := Config.vlmaxLess1.val + 1

/-- `FILL_STORE_FIRST`, at the spec's default (R7, R121; log 5). -/
def Config.fillStoreFirst : Bool := false

/-- `VEQ_BITWISE`, at the spec's default (R7, R216; log 6). -/
def Config.veqBitwise : Bool := false

/-- A record of floating-point primitives (R7, R170), as plain data: the default one, or the `n`th of the others. -/
inductive Primitives where
  /-- IEEE 754 with one rounding to nearest even, R171 to R177: the default and the behaviour of this hardware (R170). -/
  | ieee
  /-- A record of which nothing is known but that it is one (log 7). -/
  | other (n : Nat)
deriving DecidableEq, Repr

/-- The record of primitives, at the spec's default (R7, R170). -/
def Config.primitives : Primitives := .ieee

/-- `fadd_W` of the `n`th other record, in each format, on patterns; `none` stands for "a NaN" (R170, R176; log 7). No body, as for
the next three: nothing can rest on a value of it. -/
opaque Config.otherFadd : Nat → Fmt → Word → Word → Option Word

/-- `fmul_W` of the `n`th other record (R170; log 7). -/
opaque Config.otherFmul : Nat → Fmt → Word → Word → Option Word

/-- `fdiv_W` of the `n`th other record (R170; log 7). -/
opaque Config.otherFdiv : Nat → Fmt → Word → Word → Option Word

/-- `fsqrt_W` of the `n`th other record (R170; log 7). -/
opaque Config.otherFsqrt : Nat → Fmt → Word → Option Word

/-- A free value (R176; log 8): the bits from which the `n`th produced NaN takes its sign and fraction. No body:
nothing can rest on a value of it. -/
opaque Config.nanDraw : Nat → Word

/-- R7: the range of `VLMAX`. -/
theorem Config.vlmax_range : 1 ≤ Config.vlmax ∧ Config.vlmax < 2 ^ 31 := by
  have h := Config.vlmaxLess1.isLt
  unfold Config.vlmax
  omega

end Sys2Proof
end

