-- ==== Sys2Proof/Machine/Bits.lean ====
section
/-! DEFINITION. The bit primitives of R11: rotation of a word and population count. -/

namespace Sys2Proof

/-- `ror_N(v, n)`: bit `i` of the result is bit `(i + n) mod N` of `v` (R11). Only applied with `n < N`. -/
def ror {w : Nat} (v : BitVec w) (n : Nat) : BitVec w := v.rotateRight n

/-- `rol_N(v, n)`: bit `i` of the result is bit `(i - n) mod N` of `v` (R11). Only applied with `n < N`. -/
def rol {w : Nat} (v : BitVec w) (n : Nat) : BitVec w := v.rotateLeft n

/-- How many of the bits `0 .. n-1` of `v` are 1. -/
def onesBelow {w : Nat} (v : BitVec w) : Nat → Nat
  | 0 => 0
  | n + 1 => onesBelow v n + (v.getLsbD n).toNat

/-- `popcount(v)`: the number of bits of `v` that are 1 (R11, R100). -/
def popcount {w : Nat} (v : BitVec w) : Nat := onesBelow v w

/-- The low `n` bits of a container as an `n`-bit operand (R22). -/
def lowBits (n : Nat) (v : Word) : BitVec n := v.setWidth n

/-- `zext_64`: an `n`-bit result in its container (R22). -/
def zext64 {n : Nat} (v : BitVec n) : Word := v.setWidth 64

end Sys2Proof
end

