-- ==== Sys2Proof/Machine/Float.lean ====
section
/-! DEFINITION. Floating-point patterns and the record of arithmetic primitives with its default (R140, R141, R170 to R179; log 7).
A pattern of format `f` is a `W(f)`-bit number in a 64-bit container; only its low `W(f)` bits are read (R22). -/

namespace Sys2Proof

/-- `W`, the width in bits (R140). -/
def Fmt.width : Fmt → Nat
  | .half => 16
  | .single => 32
  | .double => 64

/-- `p`, the number of fraction bits (R140). -/
def Fmt.fracBits : Fmt → Nat
  | .half => 10
  | .single => 23
  | .double => 52

/-- `E`, the number of exponent bits (R140). -/
def Fmt.expBits : Fmt → Nat
  | .half => 5
  | .single => 8
  | .double => 11

/-- The exponent bias (R140). -/
def Fmt.bias : Fmt → Nat
  | .half => 15
  | .single => 127
  | .double => 1023

/-- `emax = 2^E - 1`, the exponent field of infinities and NaNs (R171). -/
def Fmt.emax (f : Fmt) : Nat := 2 ^ f.expBits - 1

/-- The value of the `fmt` field that stands for the format (R67, R140). -/
def Fmt.code : Fmt → Nat
  | .half => 0
  | .single => 1
  | .double => 2

/-- `OrMask = bias << p`, which is also the pattern of 1.0 (R141). -/
def Fmt.orMask (f : Fmt) : Word := BitVec.ofNat 64 (f.bias * 2 ^ f.fracBits)

/-- `MantMask = 2^p - 1` (R141). -/
def Fmt.mantMask (f : Fmt) : Word := BitVec.ofNat 64 (2 ^ f.fracBits - 1)

/-- `AndMask = OrMask | MantMask` (R141). -/
def Fmt.andMask (f : Fmt) : Word := f.orMask ||| f.mantMask

/-- `SignMask = 2^(W-1)` (R141). -/
def Fmt.signMask (f : Fmt) : Word := BitVec.ofNat 64 (2 ^ (f.width - 1))

/-- The low `W` bits of a container, zero-extended: the pattern a container holds (R22). -/
def Fmt.pattern (f : Fmt) (v : Word) : Word := BitVec.ofNat 64 (v.toNat % 2 ^ f.width)

/-! ## Reading a pattern (R171) -/

/-- The sign bit, true for negative. -/
def Fmt.sign (f : Fmt) (v : Word) : Bool := v.getLsbD (f.width - 1)

/-- The exponent field `ef`. -/
def Fmt.expField (f : Fmt) (v : Word) : Nat := v.toNat / 2 ^ f.fracBits % 2 ^ f.expBits

/-- The fraction field. -/
def Fmt.fracField (f : Fmt) (v : Word) : Nat := v.toNat % 2 ^ f.fracBits

/-- `ef = emax`, fraction not 0. -/
def Fmt.isNaN (f : Fmt) (v : Word) : Bool := f.expField v == f.emax && f.fracField v != 0

/-- `ef = emax`, fraction 0. -/
def Fmt.isInf (f : Fmt) (v : Word) : Bool := f.expField v == f.emax && f.fracField v == 0

/-- A zero of either sign. -/
def Fmt.isZero (f : Fmt) (v : Word) : Bool := f.expField v == 0 && f.fracField v == 0

/-- The unit in which magnitudes are counted is `2^-unitExp`, the smallest subnormal (R171). -/
def Fmt.unitExp (f : Fmt) : Nat := f.bias + f.fracBits - 1

/-- The magnitude with exponent field `ef` and fraction `fr`, in units: exact for every finite pattern (R171). For an infinity it
is a number above every finite magnitude. -/
def Fmt.unitsOf (f : Fmt) (ef fr : Nat) : Nat :=
  if ef = 0 then fr else (2 ^ f.fracBits + fr) * 2 ^ (ef - 1)

/-- The magnitude of a pattern, in units. -/
def Fmt.units (f : Fmt) (v : Word) : Nat := f.unitsOf (f.expField v) (f.fracField v)

/-- The value of a pattern, in units: exact for finite patterns, beyond every finite value for infinities (R171, R178). -/
def Fmt.value (f : Fmt) (v : Word) : Int := if f.sign v then - (f.units v : Int) else (f.units v : Int)

/-! ## Writing a pattern -/

/-- The pattern with the given sign and magnitude bits (exponent field and fraction as one number). -/
def Fmt.pack (f : Fmt) (negative : Bool) (magnitude : Nat) : Word :=
  BitVec.ofNat 64 ((if negative then 2 ^ (f.width - 1) else 0) + magnitude)

/-- The magnitude bits of infinity. -/
def Fmt.infBits (f : Fmt) : Nat := f.emax * 2 ^ f.fracBits

/-- The zero of a sign. -/
def Fmt.zero (f : Fmt) (negative : Bool) : Word := f.pack negative 0

/-- The infinity of a sign. -/
def Fmt.inf (f : Fmt) (negative : Bool) : Word := f.pack negative f.infBits

/-- The pattern of 1.0 (R141). -/
def Fmt.one (f : Fmt) : Word := f.orMask

/-- The pattern of -1.0 (R141). -/
def Fmt.negOne (f : Fmt) : Word := f.orMask ||| f.signMask

/-! ## Rounding (R172)

A binade is named by `k`: its numbers are `q * 2^k` units with `q` an integer below `2^(p+1)`. The magnitude bits of `q * 2^k` are
`k * 2^p + q`: with `k = 0` and `q < 2^p` the subnormal `q`, else the exponent field `k + 1` and the fraction `q - 2^p`; and
`q = 2^(p+1)`, a carry out of rounding, gives the first number of the next binade. -/

/-- The integer nearest to `num / den`, the even one of two equally near ones (R172). -/
def nearestEven (num den : Nat) : Nat :=
  let q := num / den
  let r := num % den
  if den < 2 * r || (2 * r == den && q % 2 == 1) then q + 1 else q

/-- The magnitude bits of `q * 2^k` units; at or beyond `2^(emax - bias)` those of infinity (R172). -/
def Fmt.binadeBits (f : Fmt) (k q : Nat) : Nat := min (k * 2 ^ f.fracBits + q) f.infBits

/-- The binade of a magnitude whose integer part, in units, is `n`: the one in which it has `p + 1` significant bits, or 0. -/
def Fmt.binade (f : Fmt) (n : Nat) : Nat := Nat.log2 n - f.fracBits

/-- `round_W` of the magnitude `num / den` units, as magnitude bits (R172). -/
def Fmt.roundRatio (f : Fmt) (num den : Nat) : Nat :=
  let k := f.binade (num / den)
  f.binadeBits k (nearestEven num (den * 2 ^ k))

/-- The integer part of the square root of `x`, bit by bit from `acc`: the bits below `2^n` are still to be found. -/
def isqrtBits : Nat → Nat → Nat → Nat
  | 0, _, acc => acc
  | n + 1, x, acc => isqrtBits n x (if (acc + 2 ^ n) * (acc + 2 ^ n) ≤ x then acc + 2 ^ n else acc)

/-- `round_W` of the square root of the integer `x`, in units, as magnitude bits (R172, R177). `q` is the root's integer part in its
binade; the root is compared with `q + 1/2` by comparing squares. -/
def Fmt.roundSqrt (f : Fmt) (x : Nat) : Nat :=
  let k := Nat.log2 x / 2 - f.fracBits
  let q := isqrtBits (Nat.log2 x / 2 - k + 1) (x / 4 ^ k) 0
  let half := (2 * q + 1) * (2 * q + 1) * 4 ^ k
  f.binadeBits k (if half < 4 * x || (half == 4 * x && q % 2 == 1) then q + 1 else q)

/-! ## The default primitives (R173 to R177): `none` stands for "a NaN" (R176) -/

/-- `fadd_W` (R173; log 14). -/
def faddVal (f : Fmt) (a b : Word) : Option Word :=
  if f.isNaN a || f.isNaN b then none
  else if f.isInf a then
    if f.isInf b then (if f.sign a == f.sign b then some (f.inf (f.sign a)) else none)
    else some (f.inf (f.sign a))
  else if f.isInf b then some (f.inf (f.sign b))
  else if f.isZero a && f.isZero b then some (f.zero (f.sign a && f.sign b))
  else
    let r := f.value a + f.value b
    if r == 0 then some (f.zero false) else some (f.pack (decide (r < 0)) (f.roundRatio r.natAbs 1))

/-- `fmul_W` (R174). -/
def fmulVal (f : Fmt) (a b : Word) : Option Word :=
  let s := f.sign a ^^ f.sign b
  if f.isNaN a || f.isNaN b then none
  else if (f.isInf a && f.isZero b) || (f.isZero a && f.isInf b) then none
  else if f.isInf a || f.isInf b then some (f.inf s)
  else if f.isZero a || f.isZero b then some (f.zero s)
  else some (f.pack s (f.roundRatio (f.units a * f.units b) (2 ^ f.unitExp)))

/-- `fdiv_W`, `a` divided by `b` (R175). -/
def fdivVal (f : Fmt) (a b : Word) : Option Word :=
  let s := f.sign a ^^ f.sign b
  if f.isNaN a || f.isNaN b then none
  else if f.isInf a then (if f.isInf b then none else some (f.inf s))
  else if f.isInf b then some (f.zero s)
  else if f.isZero b then (if f.isZero a then none else some (f.inf s))
  else if f.isZero a then some (f.zero s)
  else some (f.pack s (f.roundRatio (f.units a * 2 ^ f.unitExp) (f.units b)))

/-- `fsqrt_W` (R177). -/
def fsqrtVal (f : Fmt) (a : Word) : Option Word :=
  if f.isNaN a then none
  else if f.isZero a then some (f.zero (f.sign a))
  else if f.sign a then none
  else if f.isInf a then some (f.inf false)
  else some (f.pack false (f.roundSqrt (f.units a * 2 ^ f.unitExp)))

/-! ## The record of primitives (R170; log 7)

Twelve functions on `W`-bit patterns, four in each format: of an operand they see the pattern, and a result is one. -/

/-- `fadd_W` of a record. -/
def Primitives.fadd : Primitives → Fmt → Word → Word → Option Word
  | .ieee, f, a, b => faddVal f a b
  | .other n, f, a, b => (Config.otherFadd n f (f.pattern a) (f.pattern b)).map f.pattern

/-- `fmul_W` of a record. -/
def Primitives.fmul : Primitives → Fmt → Word → Word → Option Word
  | .ieee, f, a, b => fmulVal f a b
  | .other n, f, a, b => (Config.otherFmul n f (f.pattern a) (f.pattern b)).map f.pattern

/-- `fdiv_W` of a record. -/
def Primitives.fdiv : Primitives → Fmt → Word → Word → Option Word
  | .ieee, f, a, b => fdivVal f a b
  | .other n, f, a, b => (Config.otherFdiv n f (f.pattern a) (f.pattern b)).map f.pattern

/-- `fsqrt_W` of a record. -/
def Primitives.fsqrt : Primitives → Fmt → Word → Option Word
  | .ieee, f, a => fsqrtVal f a
  | .other n, f, a => (Config.otherFsqrt n f (f.pattern a)).map f.pattern

/-! ## NaN results (R176) -/

/-- A NaN of the format with the sign and fraction of `raw`, the fraction 1 in place of 0: `ef = emax`, fraction not 0. Every NaN
of the format is the result for some `raw`. -/
def Fmt.nanOf (f : Fmt) (raw : Word) : Word :=
  f.pack (f.sign raw) (f.infBits + (if f.fracField raw = 0 then 1 else f.fracField raw))

/-- A primitive's result, and how many NaNs have been drawn then: "a NaN" takes the next free draw (R176; log 8). -/
def settle (f : Fmt) (r : Option Word) (draws : Nat) : Word × Nat :=
  match r with
  | some v => (v, draws)
  | none => (f.nanOf (Config.nanDraw draws), draws + 1)

/-- `fadd_W` of the record `p` with its NaN draw. -/
def fadd (p : Primitives) (f : Fmt) (a b : Word) (draws : Nat) : Word × Nat := settle f (p.fadd f a b) draws

/-- `fmul_W` of the record `p` with its NaN draw. -/
def fmul (p : Primitives) (f : Fmt) (a b : Word) (draws : Nat) : Word × Nat := settle f (p.fmul f a b) draws

/-- `fdiv_W` of the record `p` with its NaN draw. -/
def fdiv (p : Primitives) (f : Fmt) (a b : Word) (draws : Nat) : Word × Nat := settle f (p.fdiv f a b) draws

/-- `fsqrt_W` of the record `p` with its NaN draw. -/
def fsqrt (p : Primitives) (f : Fmt) (a : Word) (draws : Nat) : Word × Nat := settle f (p.fsqrt f a) draws

/-! ## Comparisons, absolute value, small integers (R178, R179) -/

/-- `fabs_W` (R178). -/
def fabs (f : Fmt) (a : Word) : Word := a &&& ~~~ f.signMask

/-- `feq_W` (R178). -/
def feq (f : Fmt) (a b : Word) : Bool :=
  !f.isNaN a && !f.isNaN b && ((f.isZero a && f.isZero b) || f.pattern a == f.pattern b)

/-- `flt_W` (R178). -/
def flt (f : Fmt) (a b : Word) : Bool := !f.isNaN a && !f.isNaN b && decide (f.value a < f.value b)

/-- `fle_W` (R178). -/
def fle (f : Fmt) (a b : Word) : Bool := !f.isNaN a && !f.isNaN b && decide (f.value a ≤ f.value b)

/-- `cvt_W` (R179). -/
def cvt (f : Fmt) (n : Nat) : Word := f.pack false (f.roundRatio (n * 2 ^ f.unitExp) 1)

end Sys2Proof
end

