-- ==== Sys2Proof/Machine/Prbs.lean ====
section
/-! DEFINITION. The Rotate-XOR generator (42_prbs.md) and the bit-pattern assembler that draws from it (43_fpgen.md). -/

namespace Sys2Proof

/-- The generator state (R26): `S[0..36]` and `CUR`, which is always a valid index (log 9). -/
structure Gen where
  /-- `S[0..36]`. -/
  words : Vector Word 37
  /-- `CUR`. -/
  cur : Fin 37
deriving DecidableEq, Repr

/-! ## Seeding (R121) -/

/-- The starting constant `K` (R5). -/
def seedConst : Word := 0x61C885EF5D07E919#64

/-- `ror_64(K, seed[5:0]) ^ seed` (R121). -/
def seedStart (seed : Word) : Word := ror seedConst (seed.toNat % 64) ^^^ seed

/-- One update of the running value: `v ^ ror_64(v, 23)` (R121). -/
def seedMix (v : Word) : Word := v ^^^ ror v 23

/-- `n` words of the fill from the running value `v`: update then store, or store then update (R121; log 5). -/
def seedFill (storeFirst : Bool) : Nat → Word → List Word
  | 0, _ => []
  | n + 1, v => (if storeFirst then v else seedMix v) :: seedFill storeFirst n (seedMix v)

theorem seedFill_length (storeFirst : Bool) (n : Nat) (v : Word) : (seedFill storeFirst n v).length = n := by
  induction n generalizing v with
  | zero => rfl
  | succ n ih => simp [seedFill, ih]

/-- What `SEED` writes: all 37 words, and the cursor at 0 (R121). -/
def seedGen (storeFirst : Bool) (seed : Word) : Gen where
  words := ⟨(seedFill storeFirst 37 (seedStart seed)).toArray, by simp [seedFill_length]⟩
  cur := 0

/-! ## The step (R122) -/

/-- The next index, wrapping to 0 at the array bound (R122). -/
def nextCur (c : Fin 37) : Fin 37 := ⟨(c.val + 1) % 37, Nat.mod_lt _ (by decide)⟩

/-- The generator after one `Step64()`: the word at the cursor takes in its neighbour rotated right by 1; the cursor advances
(R122; log 18). -/
def Gen.advance (g : Gen) : Gen where
  words := g.words.set g.cur (g.words[g.cur] ^^^ ror g.words[nextCur g.cur] 1)
  cur := nextCur g.cur

/-- `Step64()`: the word at the cursor before the change, and the generator after it (R122). -/
def Gen.step64 (g : Gen) : Word × Gen := (g.words[g.cur], g.advance)

/-! ## Values from a random pattern `u` (R142 to R152); only the low `W` bits of `u` matter

Where a sum of the record `p` is in it, `none` stands for "a NaN" (R176), which the default record never gives here (R143). -/

/-- `RandW`: the low `W` bits of a step's output (R142). -/
def randPattern (f : Fmt) (u : Word) : Word := f.pattern u

/-- `Next<W>12`: `(u | OrMask) & AndMask` (R144 to R146). -/
def next12Of (f : Fmt) (u : Word) : Word := (randPattern f u ||| f.orMask) &&& f.andMask

/-- `Next<W>01`: `Next<W>12 - 1.0` (R147 to R149). -/
def next01Of (p : Primitives) (f : Fmt) (u : Word) : Option Word := p.fadd f (next12Of f u) f.negOne

/-- `NextUnit<W>`: the sign bit is kept, and 1.0 added to a negative pattern, taken from a positive one (R150 to R152). -/
def nextUnitOf (p : Primitives) (f : Fmt) (u : Word) : Option Word :=
  let b := (randPattern f u ||| f.orMask) &&& (f.andMask ||| f.signMask)
  p.fadd f b (if f.sign b then f.one else f.negOne)

/-! ## The rejection loop (R153, R160) -/

/-- `LO_W`: 0.1 rounded to nearest in the format (R153). -/
def Fmt.epsLo : Fmt → Word
  | .half => 0x2E66#64
  | .single => 0x3DCCCCCD#64
  | .double => 0x3FB999999999999A#64

/-- `HI_W`: 0.5 (R153). -/
def Fmt.epsHi : Fmt → Word
  | .half => 0x3800#64
  | .single => 0x3F000000#64
  | .double => 0x3FE0000000000000#64

/-- A valid epsilon: `LO_W <= e` and `e <= HI_W` (R153). -/
def epsilonValid (f : Fmt) (e : Word) : Bool := fle f f.epsLo e && fle f e f.epsHi

/-- A sample of the loop, if it is accepted: its magnitude exceeds epsilon. A NaN compares false whatever its bits (R178; lemma
`accepted_nan`), so "a NaN" is no accepted sample and takes no draw (R160; log 15). -/
def accepted (f : Fmt) (e : Word) (sample : Option Word) : Option Word :=
  sample.filter fun r => flt f e (fabs f r)

/-- The rejection loop cut off after `n` samples: `none` when none of them is accepted (R160). -/
def nextVecWithin (p : Primitives) (f : Fmt) (e : Word) : Nat → Gen → Option (Word × Gen)
  | 0, _ => none
  | n + 1, g =>
    match accepted f e (nextUnitOf p f g.step64.1) with
    | some r => some (r, g.step64.2)
    | none => nextVecWithin p f e n g.step64.2

/-- How many generator states there are: 37 cursors, and `2^64` values of each of 37 words (R26). -/
def genStates : Nat := 37 * (2 ^ 64) ^ 37

/-- The loop rejects for ever at once: every word of the state is 0, so every sample is that of the pattern 0, and it is rejected
(R129, R160). -/
def rejectsForEver (p : Primitives) (f : Fmt) (e : Word) (g : Gen) : Bool :=
  g.words.toList.all (fun w => w == 0) && (accepted f e (nextUnitOf p f 0)).isNone

/-- `NextVec` (R160): the first accepted sample and the generator after it; `none` is the loop that never ends. The generator is
deterministic, a sample depends on its output alone (R170), and it has `genStates` states, so a loop that has rejected that many
samples has come back to a state it was in and rejects for ever (log 2). The first line only shortens the run on the all-zero
state (lemma `nextVec_eq_within`). -/
def nextVec (p : Primitives) (f : Fmt) (e : Word) (g : Gen) : Option (Word × Gen) :=
  if rejectsForEver p f e g then none else nextVecWithin p f e genStates g

/-- `n` elements of `VGEN`, in ascending index: one run of the loop each, every one from where the last left the generator
(R198). `none` when one of them never ends. -/
def genElements (p : Primitives) (f : Fmt) (e : Word) : Nat → Gen → Option (List Word × Gen)
  | 0, g => some ([], g)
  | n + 1, g =>
    match nextVec p f e g with
    | none => none
    | some (r, g1) =>
      match genElements p f e n g1 with
      | none => none
      | some (rs, g2) => some (r :: rs, g2)

end Sys2Proof
end

