-- ==== Sys2Proof/Machine/State.lean ====
section
/-! DEFINITION. The state of the HVU: plain data, everything the spec gives the machine (R20), the interface as lists (R275) and
the parameters (R35). -/

namespace Sys2Proof.Machine

/-- A step of this machine never stops: a command the spec makes fault answers with a code and the unit goes on (R243), and a hang
leaves a state that waits for reset (R278). So there is no fault in the sense of the host, and this type has no constructor. -/
inductive Fault where
deriving DecidableEq, Repr

/-- Why an instruction has no meaning. -/
inductive Refusal where
  /-- Raised by an arm of `exec` for an instruction that has no meaning yet; no arm does. Safe: nothing is said of it. -/
  | notModelled (mnemonic : String)
deriving DecidableEq, Repr

/-- The fault codes 1 to 13 (R241). -/
inductive FaultCode where
  /-- Unassigned opcode, or a must-be-zero field not zero. -/
  | illegal
  /-- `fmt = 3` in a format-bearing opcode. -/
  | fmt
  /-- Size operand below 1. -/
  | size
  /-- Size operand above `VLMAX`. -/
  | capacity
  /-- Vector operands of different lengths. -/
  | mismatch
  /-- `mask = 0`. -/
  | empty
  /-- Epsilon outside its range, or a NaN. -/
  | epsilon
  /-- Rotate count out of range. -/
  | shift
  /-- A vector register that is read holds no vector. -/
  | vinvalid
  /-- Vector operands of different formats. -/
  | fmtmis
  /-- Element index not below the length. -/
  | index
  /-- CSR number that does not exist. -/
  | csr
  /-- `vd` is a member of its own collection. -/
  | aliased
deriving DecidableEq, Repr

/-- What a vector register holds when it holds a vector (R23). `len` is the number of elements (log 9). -/
structure VecReg where
  /-- `fmt`. -/
  fmt : Fmt
  /-- `e[0..len-1]`: patterns of the format in 64-bit containers. -/
  elems : List Word
deriving DecidableEq, Repr

/-- `len` (R23). -/
def VecReg.len (a : VecReg) : Nat := a.elems.length

/-- A command as the host presents it (R65). -/
structure Command where
  /-- The command word. -/
  word : CmdWord
  /-- The write data. -/
  wdata : Word
deriving DecidableEq, Repr

/-- A response (R66). -/
structure Response where
  /-- 0 for `OK`, else the fault code. -/
  code : BitVec 8
  /-- The read data. -/
  rdata : Word
deriving DecidableEq, Repr

/-- What `rst` does at one step (R270): nothing, a reset while no command is taken, or a reset that comes while the command which
the HVU takes at this step is executing (log 19). -/
inductive RstEvent where
  | low
  | between
  | during
deriving DecidableEq, Repr

/-- The parameters of the model (R7, R35): not state of the HVU. No step changes them (log 4). -/
structure Params where
  /-- `VLMAX`. -/
  vlmax : Nat
  /-- `FILL_STORE_FIRST`. -/
  fillStoreFirst : Bool
  /-- `VEQ_BITWISE`. -/
  veqBitwise : Bool
  /-- The record of floating-point primitives (R170). -/
  primitives : Primitives
deriving DecidableEq, Repr

/-- The whole machine. -/
structure State where
  /-- The scalar registers `x[0..15]` (R21). -/
  x : Vector Word 16
  /-- The vector registers `V[0..15]`: `none` when `valid = 0` (R23). -/
  v : Vector (Option VecReg) 16
  /-- The generator: `S[0..36]` and `CUR` (R26). -/
  gen : Gen
  /-- `FERR`: the code of the first fault since reset, or 0 (R28). -/
  ferr : BitVec 8
  /-- `FCMD`: the command word of the first fault since reset, or 0 (R29). -/
  fcmd : BitVec 32
  /-- `CMDCNT`: the number of responses since reset, modulo `2^64` (R31). -/
  cmdcnt : Word
  /-- The HVU is busy for ever with a command that never ends (R160, R278). -/
  hung : Bool
  /-- The commands the host presents, next first (R275; log 1). -/
  cmdIn : List Command
  /-- What `rst` does at the coming steps, next first; an exhausted list is low (R270, R273; log 1). -/
  rstIn : List RstEvent
  /-- The responses produced since reset, in command order (R275; log 1). -/
  rspOut : List Response
  /-- The parameters (R35; log 4). -/
  params : Params
  /-- The model's own: how many NaN patterns have been drawn (R176; log 8). -/
  nanDraws : Nat
deriving DecidableEq, Repr

/-- The state after reset for given parameters, with nothing presented by the host: every value of R36. -/
def State.resetFor (p : Params) : State where
  x := Vector.replicate 16 0
  v := Vector.replicate 16 none
  gen := seedGen p.fillStoreFirst 0
  ferr := 0
  fcmd := 0
  cmdcnt := 0
  hung := false
  cmdIn := []
  rstIn := []
  rspOut := []
  params := p
  nanDraws := 0

/-- The parameters of the modelled instance: `VLMAX` open, the two switches and the record of primitives at the spec's
defaults (R7, R170; log 4, 5, 6, 7). -/
def Params.chosen : Params where
  vlmax := Config.vlmax
  fillStoreFirst := Config.fillStoreFirst
  veqBitwise := Config.veqBitwise
  primitives := Config.primitives

/-- The machine right after reset (R36, R270, R271). -/
def State.reset : State := State.resetFor Params.chosen

end Sys2Proof.Machine
end

