-- ==== Sys2Proof/Machine/Ops.lean ====
section
/-! DEFINITION. The named operations over the state: registers, CSRs, the response, taking a fault, the hang, reset, and taking
the next command from the interface. -/

namespace Sys2Proof.Machine

/-! ## Registers (R21, R23) -/

/-- `x[r]`. -/
def State.getX (s : State) (r : SReg) : Word := s.x[r]

/-- `x[r] <- w`. -/
def State.setX (s : State) (r : SReg) (w : Word) : State := { s with x := s.x.set r w }

/-- `V[r]`, `none` when `valid = 0`. -/
def State.getV (s : State) (r : VReg) : Option VecReg := s.v[r]

/-- `V[r] <- a`: the whole register is replaced and valid (R190). -/
def State.setV (s : State) (r : VReg) (a : VecReg) : State := { s with v := s.v.set r (some a) }

/-- The generator is replaced. -/
def State.setGen (s : State) (g : Gen) : State := { s with gen := g }

/-- The free draws are used up to the `n`th (R176). -/
def State.setDraws (s : State) (n : Nat) : State := { s with nanDraws := n }

/-! ## Control and status registers (R27 to R33) -/

/-- CSR `CONFIG`: `VLMAX` in `[30:0]`, `NVREG - 1` in `[35:32]`, `NSREG - 1` in `[39:36]`, `ARRAY_SIZE` in `[47:40]`, `VERSION` in
`[63:56]` (R33). -/
def configWord (vlmax : Nat) : Word :=
  BitVec.ofNat 64 (1 * 2 ^ 56 + 37 * 2 ^ 40 + 15 * 2 ^ 36 + 15 * 2 ^ 32 + vlmax % 2 ^ 31)

/-- The value of CSR number `n`; `none` when there is no such CSR (R27 to R33). -/
def State.readCsr (s : State) (n : Nat) : Option Word :=
  if n = 0x000 then some (zext64 s.ferr)
  else if n = 0x001 then some (zext64 s.fcmd)
  else if n = 0x002 then some (BitVec.ofNat 64 s.gen.cur.val)
  else if n = 0x003 then some (configWord s.params.vlmax)
  else if n = 0x004 then some s.cmdcnt
  else if h : 0x040 ≤ n ∧ n ≤ 0x064 then some (s.gen.words[n - 0x040]'(by omega))
  else none

/-! ## How a command ends (R66, R243, R278) -/

/-- The code of a fault (R241). -/
def FaultCode.code : FaultCode → BitVec 8
  | .illegal => 1
  | .fmt => 2
  | .size => 3
  | .capacity => 4
  | .mismatch => 5
  | .empty => 6
  | .epsilon => 7
  | .shift => 8
  | .vinvalid => 9
  | .fmtmis => 10
  | .index => 11
  | .csr => 12
  | .aliased => 13

/-- A command answers: one response, and `CMDCNT` counts it (R31, R66). -/
def State.respond (s : State) (code : BitVec 8) (rdata : Word) : State :=
  { s with cmdcnt := s.cmdcnt + 1, rspOut := s.rspOut ++ [⟨code, rdata⟩] }

/-- The sticky record: the code and the command word of the first fault since reset (R28, R29, R243). -/
def State.recordFault (s : State) (word : CmdWord) (c : FaultCode) : State :=
  if s.ferr = 0 then { s with ferr := c.code, fcmd := word } else s

/-- `raise Fault(c)` by the command `word`: the record, the count and the response, and nothing else (R243). This is all that the
HVU has of trap entry (R247); there is no return from it, the next command is an ordinary one (R248). -/
def State.takeFault (s : State) (word : CmdWord) (c : FaultCode) : State := (s.recordFault word c).respond c.code 0

/-- A command that never ends: no response, no count; busy until reset (R160, R278; log 2, 3). -/
def State.hangUp (s : State) : State := { s with hung := true }

/-- Why a command does not complete. -/
inductive Stop where
  /-- One of its checks raises a fault (R243). -/
  | fault (c : FaultCode)
  /-- Its rejection loop never ends (R160). -/
  | hang
deriving DecidableEq, Repr

/-- A command's own part: its effect on the state and its read data, or why it does not complete. -/
abbrev Body := Except Stop (State × Word)

/-- A check of a command fails (R10). -/
def raise {α : Type} (c : FaultCode) : Except Stop α := .error (.fault c)

/-- A command completes with `rdata = 0` (R66). -/
def done (s : State) : Body := .ok (s, 0)

/-- The end of a command `i` that began in `s`: the response `(OK, rdata)`, the fault, or the hang. A fault and a hang leave behind
nothing of the command's own effect (R10, R244). The word recorded is the instruction's own (log 13). -/
def finish (i : Instr) (s : State) (body : Body) : Host.Outcome State Fault Refusal :=
  match body with
  | .ok (t, rdata) => .next (t.respond 0 rdata)
  | .error (.fault c) => .next (s.takeFault (encodeWord i) c)
  | .error .hang => .next s.hangUp

/-! ## Reset and the command port (R270, R275, R277, R278) -/

/-- The state after a reset event: every value of R36, whatever it was. What the host still presents and the parameters are not the
HVU's and stay; the free draws go on (log 11). -/
def State.afterReset (s : State) : State :=
  { State.resetFor s.params with cmdIn := s.cmdIn, rstIn := s.rstIn, nanDraws := s.nanDraws }

/-- What `rst` does at this step (R273; log 1). -/
def State.rstNow (s : State) : RstEvent :=
  match s.rstIn with
  | [] => .low
  | e :: _ => e

/-- What a step does before any instruction is decoded. -/
inductive Plan where
  /-- No command is executed; the step ends here. -/
  | settle (t : State)
  /-- The command is taken from the port and executed. -/
  | run (c : Command) (t : State)
deriving DecidableEq, Repr

/-- The event of this step. Reset comes first, at any time (R270); a command that is executing then is abandoned. A hung unit takes
no command (R278). With no command presented nothing happens (R246; log 10). Else the next command is taken (R56). -/
def State.plan (s : State) : Plan :=
  let s1 := { s with rstIn := s.rstIn.tail }
  match s.rstNow with
  | .between => .settle s1.afterReset
  | .during => .settle { s1 with cmdIn := if s.hung then s.cmdIn else s.cmdIn.tail }.afterReset
  | .low =>
    if s.hung then .settle s1
    else
      match s.cmdIn with
      | [] => .settle s1
      | c :: cs => .run c { s1 with cmdIn := cs }

/-- A taken command is decoded; a word that is no instruction raises `ERR_ILLEGAL` (R73), any other is run. -/
def runCommand (c : Command) (t : State) (run : Instr → Host.Outcome State Fault Refusal) :
    Host.Outcome State Fault Refusal :=
  match decode c.word c.wdata with
  | .ok i => run i
  | .error _ => .next (t.takeFault c.word .illegal)

end Sys2Proof.Machine
end

