-- ==== Sys2Proof/Machine/Operands.lean ====
section
/-! DEFINITION. The operand forms of the commands and the checks on them (R22, R102, R153, R191, R210, R219, R220). -/

namespace Sys2Proof.Machine

/-! ## Scalar operands -/

/-- A scalar operand of `n` bits: the low bits of the register (R22). -/
def State.operand (s : State) (n : Nat) (r : SReg) : BitVec n := lowBits n (s.getX r)

/-- A floating-point operand: the low `W` bits of the register (R22, R153). -/
def State.fpOperand (s : State) (f : Fmt) (r : SReg) : Word := f.pattern (s.getX r)

/-- A rotate count: at least the word width raises `ERR_SHIFT` (R102). -/
def rotateCount (width n : Nat) : Except Stop Nat := if width ≤ n then raise .shift else .ok n

/-- The size operand: all 64 bits as a signed number, 1 to `VLMAX` (R191). -/
def State.sizeOperand (s : State) (r : SReg) : Except Stop Nat :=
  let n := (s.getX r).toInt
  if n < 1 then raise .size
  else if (s.params.vlmax : Int) < n then raise .capacity
  else .ok n.toNat

/-- The epsilon operand, in range (R153). -/
def State.epsilonOperand (s : State) (f : Fmt) (r : SReg) : Except Stop Word :=
  if epsilonValid f (s.fpOperand f r) then .ok (s.fpOperand f r) else raise .epsilon

/-- The element index: all 64 bits unsigned, below the length (R195, R196). -/
def State.indexOperand (s : State) (a : VecReg) (r : SReg) : Except Stop Nat :=
  if a.len ≤ (s.getX r).toNat then raise .index else .ok (s.getX r).toNat

/-! ## Vector operands -/

/-- A vector register that is read: invalid raises `ERR_VINVALID` (R37). -/
def State.vecOperand (s : State) (r : VReg) : Except Stop VecReg :=
  match s.getV r with
  | some a => .ok a
  | none => raise .vinvalid

/-- Two vector sources of one format: validity in field order, then the formats (R210, R216). -/
def State.vecsOfOneFormat (s : State) (r1 r2 : VReg) : Except Stop (VecReg × VecReg) := do
  let a ← s.vecOperand r1
  let b ← s.vecOperand r2
  if a.fmt ≠ b.fmt then raise .fmtmis else .ok (a, b)

/-- Two vector sources of one format and one length (R210). -/
def State.compatibleVecs (s : State) (r1 r2 : VReg) : Except Stop (VecReg × VecReg) := do
  let (a, b) ← s.vecsOfOneFormat r1 r2
  if a.len ≠ b.len then raise .mismatch else .ok (a, b)

/-! ## Collections (R221) -/

/-- The vector registers in ascending number. -/
def allVRegs : List VReg := [0, 1, 2, 3, 4, 5, 6, 7, 8, 9, 10, 11, 12, 13, 14, 15]

/-- The members of a collection in ascending register number (R68, R221). -/
def members (mask : BitVec 16) : List VReg := allVRegs.filter fun r => mask.getLsbD r.val

/-- The members' vectors; an invalid one raises `ERR_VINVALID` (R219, R220). -/
def State.vecsOf (s : State) : List VReg → Except Stop (List VecReg)
  | [] => .ok []
  | r :: rs => do
    let a ← s.vecOperand r
    let as ← s.vecsOf rs
    .ok (a :: as)

/-- Every member agrees with a reference vector: all formats are compared before any length (R219, R220). -/
def membersAgree (reference : VecReg) (as : List VecReg) : Except Stop Unit :=
  if as.any fun a => a.fmt ≠ reference.fmt then raise .fmtmis
  else if as.any fun a => a.len ≠ reference.len then raise .mismatch
  else .ok ()

/-- The collection of `VAGG`: not empty, every member valid, and all of the first one's format and length (R219). -/
def State.collection (s : State) (mask : BitVec 16) : Except Stop (VecReg × List VecReg) :=
  if mask = 0 then raise .empty
  else do
    let as ← s.vecsOf (members mask)
    match as with
    | [] => raise .empty
    | first :: rest =>
      membersAgree first (first :: rest)
      .ok (first, first :: rest)

/-- The collection of `VAGGI`: not empty, without `vd`; `vd` and every member valid; every member of the format and length of `vd`
(R220). -/
def State.collectionFor (s : State) (vd : VReg) (mask : BitVec 16) : Except Stop (VecReg × List VecReg) :=
  if mask = 0 then raise .empty
  else if mask.getLsbD vd.val then raise .aliased
  else do
    let self ← s.vecOperand vd
    let as ← s.vecsOf (members mask)
    membersAgree self as
    .ok (self, as)

end Sys2Proof.Machine
end

