-- ==== Sys2Proof/Machine/BitCounter.lean ====
section
/-! DEFINITION. The bit counter: population counts and rotates (41_bitcounter.md). -/

namespace Sys2Proof.Machine

/-- The population count of the low `n` bits of a register (R103 to R106). -/
def popcBody (n : Nat) (rd rs1 : SReg) (s : State) : Body :=
  done (s.setX rd (BitVec.ofNat 64 (popcount (s.operand n rs1))))

/-- A left rotate of the low `n` bits of a register by a count below `n` (R107, R109, R111, R113). -/
def rolBody (n : Nat) (rd rs1 : SReg) (count : Nat) (s : State) : Body := do
  let c ← rotateCount n count
  done (s.setX rd (zext64 (rol (s.operand n rs1) c)))

/-- A right rotate of the low `n` bits of a register by a count below `n` (R108, R110, R112, R114). -/
def rorBody (n : Nat) (rd rs1 : SReg) (count : Nat) (s : State) : Body := do
  let c ← rotateCount n count
  done (s.setX rd (zext64 (ror (s.operand n rs1) c)))

/-- `POPC8 rd, rs1` (R103). -/
def execPopc8 (rd rs1 : SReg) (s : State) : Host.Outcome State Fault Refusal :=
  finish (.popc8 rd rs1) s (popcBody 8 rd rs1 s)

/-- `POPC16 rd, rs1` (R104). -/
def execPopc16 (rd rs1 : SReg) (s : State) : Host.Outcome State Fault Refusal :=
  finish (.popc16 rd rs1) s (popcBody 16 rd rs1 s)

/-- `POPC32 rd, rs1` (R105). -/
def execPopc32 (rd rs1 : SReg) (s : State) : Host.Outcome State Fault Refusal :=
  finish (.popc32 rd rs1) s (popcBody 32 rd rs1 s)

/-- `POPC64 rd, rs1` (R106). -/
def execPopc64 (rd rs1 : SReg) (s : State) : Host.Outcome State Fault Refusal :=
  finish (.popc64 rd rs1) s (popcBody 64 rd rs1 s)

/-- `ROL32 rd, rs1, rs2`: the count is all 64 bits of `rs2`, unsigned (R107). -/
def execRol32 (rd rs1 rs2 : SReg) (s : State) : Host.Outcome State Fault Refusal :=
  finish (.rol32 rd rs1 rs2) s (rolBody 32 rd rs1 (s.getX rs2).toNat s)

/-- `ROR32 rd, rs1, rs2`: the count is all 64 bits of `rs2`, unsigned (R108). -/
def execRor32 (rd rs1 rs2 : SReg) (s : State) : Host.Outcome State Fault Refusal :=
  finish (.ror32 rd rs1 rs2) s (rorBody 32 rd rs1 (s.getX rs2).toNat s)

/-- `ROL64 rd, rs1, rs2`: the count is all 64 bits of `rs2`, unsigned (R109). -/
def execRol64 (rd rs1 rs2 : SReg) (s : State) : Host.Outcome State Fault Refusal :=
  finish (.rol64 rd rs1 rs2) s (rolBody 64 rd rs1 (s.getX rs2).toNat s)

/-- `ROR64 rd, rs1, rs2`: the count is all 64 bits of `rs2`, unsigned (R110). -/
def execRor64 (rd rs1 rs2 : SReg) (s : State) : Host.Outcome State Fault Refusal :=
  finish (.ror64 rd rs1 rs2) s (rorBody 64 rd rs1 (s.getX rs2).toNat s)

/-- `ROL32I rd, rs1, sh` (R111). -/
def execRol32i (rd rs1 : SReg) (sh : Nat) (s : State) : Host.Outcome State Fault Refusal :=
  finish (.rol32i rd rs1 sh) s (rolBody 32 rd rs1 sh s)

/-- `ROR32I rd, rs1, sh` (R112). -/
def execRor32i (rd rs1 : SReg) (sh : Nat) (s : State) : Host.Outcome State Fault Refusal :=
  finish (.ror32i rd rs1 sh) s (rorBody 32 rd rs1 sh s)

/-- `ROL64I rd, rs1, sh` (R113). -/
def execRol64i (rd rs1 : SReg) (sh : Nat) (s : State) : Host.Outcome State Fault Refusal :=
  finish (.rol64i rd rs1 sh) s (rolBody 64 rd rs1 sh s)

/-- `ROR64I rd, rs1, sh` (R114). -/
def execRor64i (rd rs1 : SReg) (sh : Nat) (s : State) : Host.Outcome State Fault Refusal :=
  finish (.ror64i rd rs1 sh) s (rorBody 64 rd rs1 sh s)

end Sys2Proof.Machine
end

