-- ==== Sys2Proof/Machine/FpGen.lean ====
section
/-! DEFINITION. The bit-pattern assembler: `NEXT12`, `NEXT01`, `NEXTUNIT`, `NEXTVEC` in three formats, and the reserved `fmt = 3` of each
(43_fpgen.md). -/

namespace Sys2Proof.Machine

/-- One generator step; a value of format `f` made of its output goes to `rd`, "a NaN" with its draw (R142, R176). -/
def assembleBody (f : Fmt) (value : Word → Option Word) (rd : SReg) (s : State) : Body :=
  let r := settle f (value s.gen.step64.1) s.nanDraws
  done (((s.setGen s.gen.step64.2).setDraws r.2).setX rd r.1)

/-- `NEXTVEC` in format `f`: the epsilon check, then the rejection loop, which may never end (R154 to R156, R160). -/
def nextvecBody (f : Fmt) (rd rs1 : SReg) (s : State) : Body := do
  let e ← s.epsilonOperand f rs1
  match nextVec s.params.primitives f e s.gen with
  | some (r, g) => done ((s.setGen g).setX rd r)
  | none => .error .hang

/-- `NEXT12.H rd` (R144). -/
def execNext12H (rd : SReg) (s : State) : Host.Outcome State Fault Refusal :=
  finish (.next12H rd) s (assembleBody .half (fun u => some (next12Of .half u)) rd s)

/-- `NEXT12.S rd` (R145). -/
def execNext12S (rd : SReg) (s : State) : Host.Outcome State Fault Refusal :=
  finish (.next12S rd) s (assembleBody .single (fun u => some (next12Of .single u)) rd s)

/-- `NEXT12.D rd` (R146). -/
def execNext12D (rd : SReg) (s : State) : Host.Outcome State Fault Refusal :=
  finish (.next12D rd) s (assembleBody .double (fun u => some (next12Of .double u)) rd s)

/-- `NEXT12` with `fmt = 3` raises `ERR_FMT` (R75). -/
def execNext12Fmt3 (rd : SReg) (s : State) : Host.Outcome State Fault Refusal :=
  finish (.next12Fmt3 rd) s (raise .fmt)

/-- `NEXT01.H rd` (R147). -/
def execNext01H (rd : SReg) (s : State) : Host.Outcome State Fault Refusal :=
  finish (.next01H rd) s (assembleBody .half (next01Of s.params.primitives .half) rd s)

/-- `NEXT01.S rd` (R148). -/
def execNext01S (rd : SReg) (s : State) : Host.Outcome State Fault Refusal :=
  finish (.next01S rd) s (assembleBody .single (next01Of s.params.primitives .single) rd s)

/-- `NEXT01.D rd` (R149). -/
def execNext01D (rd : SReg) (s : State) : Host.Outcome State Fault Refusal :=
  finish (.next01D rd) s (assembleBody .double (next01Of s.params.primitives .double) rd s)

/-- `NEXT01` with `fmt = 3` raises `ERR_FMT` (R75). -/
def execNext01Fmt3 (rd : SReg) (s : State) : Host.Outcome State Fault Refusal :=
  finish (.next01Fmt3 rd) s (raise .fmt)

/-- `NEXTUNIT.H rd` (R150). -/
def execNextunitH (rd : SReg) (s : State) : Host.Outcome State Fault Refusal :=
  finish (.nextunitH rd) s (assembleBody .half (nextUnitOf s.params.primitives .half) rd s)

/-- `NEXTUNIT.S rd` (R151). -/
def execNextunitS (rd : SReg) (s : State) : Host.Outcome State Fault Refusal :=
  finish (.nextunitS rd) s (assembleBody .single (nextUnitOf s.params.primitives .single) rd s)

/-- `NEXTUNIT.D rd` (R152). -/
def execNextunitD (rd : SReg) (s : State) : Host.Outcome State Fault Refusal :=
  finish (.nextunitD rd) s (assembleBody .double (nextUnitOf s.params.primitives .double) rd s)

/-- `NEXTUNIT` with `fmt = 3` raises `ERR_FMT` (R75). -/
def execNextunitFmt3 (rd : SReg) (s : State) : Host.Outcome State Fault Refusal :=
  finish (.nextunitFmt3 rd) s (raise .fmt)

/-- `NEXTVEC.H rd, rs1` (R154). -/
def execNextvecH (rd rs1 : SReg) (s : State) : Host.Outcome State Fault Refusal :=
  finish (.nextvecH rd rs1) s (nextvecBody .half rd rs1 s)

/-- `NEXTVEC.S rd, rs1` (R155). -/
def execNextvecS (rd rs1 : SReg) (s : State) : Host.Outcome State Fault Refusal :=
  finish (.nextvecS rd rs1) s (nextvecBody .single rd rs1 s)

/-- `NEXTVEC.D rd, rs1` (R156). -/
def execNextvecD (rd rs1 : SReg) (s : State) : Host.Outcome State Fault Refusal :=
  finish (.nextvecD rd rs1) s (nextvecBody .double rd rs1 s)

/-- `NEXTVEC` with `fmt = 3` raises `ERR_FMT` (R75). -/
def execNextvecFmt3 (rd rs1 : SReg) (s : State) : Host.Outcome State Fault Refusal :=
  finish (.nextvecFmt3 rd rs1) s (raise .fmt)

end Sys2Proof.Machine
end

