-- ==== Sys2Proof/Machine/Generator.lean ====
section
/-! DEFINITION. The generator's commands: `SEED` and the integer outputs (42_prbs.md). -/

namespace Sys2Proof.Machine

/-- `SEED rs1` (R121). -/
def execSeed (rs1 : SReg) (s : State) : Host.Outcome State Fault Refusal :=
  finish (.seed rs1) s (done (s.setGen (seedGen s.params.fillStoreFirst (s.getX rs1))))

/-- One generator step; the low `n` bits of its output go to `rd` (R123 to R128). -/
def nextUBody (n : Nat) (rd : SReg) (s : State) : Body :=
  done ((s.setGen s.gen.step64.2).setX rd (zext64 (lowBits n s.gen.step64.1)))

/-- `NEXTU64 rd` (R123). -/
def execNextu64 (rd : SReg) (s : State) : Host.Outcome State Fault Refusal :=
  finish (.nextu64 rd) s (nextUBody 64 rd s)

/-- `NEXTU32 rd` (R124). -/
def execNextu32 (rd : SReg) (s : State) : Host.Outcome State Fault Refusal :=
  finish (.nextu32 rd) s (nextUBody 32 rd s)

/-- `NEXTU16 rd` (R125). -/
def execNextu16 (rd : SReg) (s : State) : Host.Outcome State Fault Refusal :=
  finish (.nextu16 rd) s (nextUBody 16 rd s)

/-- `NEXTU8 rd` (R126). -/
def execNextu8 (rd : SReg) (s : State) : Host.Outcome State Fault Refusal :=
  finish (.nextu8 rd) s (nextUBody 8 rd s)

/-- `NEXTBOOL rd` (R127). -/
def execNextbool (rd : SReg) (s : State) : Host.Outcome State Fault Refusal :=
  finish (.nextbool rd) s (nextUBody 1 rd s)

end Sys2Proof.Machine
end

