-- ==== Sys2Proof/Machine/System.lean ====
section
/-! DEFINITION. System and data movement: `NOP`, `MTS`, `MFS`, `RDCSR` (40_system.md). -/

namespace Sys2Proof.Machine

/-- `NOP` (R90). -/
def execNop (s : State) : Host.Outcome State Fault Refusal := finish .nop s (done s)

/-- `MTS rd, wdata` (R91). -/
def execMts (rd : SReg) (wdata : Word) (s : State) : Host.Outcome State Fault Refusal :=
  finish (.mts rd wdata) s (done (s.setX rd wdata))

/-- `MFS rs1` (R92). -/
def execMfs (rs1 : SReg) (s : State) : Host.Outcome State Fault Refusal :=
  finish (.mfs rs1) s (.ok (s, s.getX rs1))

/-- `RDCSR rd, csr` (R93). -/
def execRdcsr (rd : SReg) (csr : Nat) (s : State) : Host.Outcome State Fault Refusal :=
  finish (.rdcsr rd csr) s <|
    match s.readCsr csr with
    | none => raise .csr
    | some w => done (s.setX rd w)

end Sys2Proof.Machine
end

