-- ==== Sys2Proof/Machine/VecMath.lean ====
section
/-! DEFINITION. The arithmetic of the vector commands over lists of elements (46_vector_algebra.md). Every sum starts from +0 and adds in
ascending order; every product and every sum is one call of a primitive of the record `p` (R170, R180, R215). The number of NaN
draws is passed along and is the second component of each result (R176; log 15). -/

namespace Sys2Proof

/-- The sum of products from `acc` on (R212, R215). -/
def dotFrom (p : Primitives) (f : Fmt) : List Word → List Word → Word → Nat → Word × Nat
  | [], _, acc, k => (acc, k)
  | _ :: _, [], acc, k => (acc, k)
  | a :: as, b :: bs, acc, k =>
    let product := fmul p f a b k
    let sum := fadd p f acc product.1 product.2
    dotFrom p f as bs sum.1 sum.2

/-- `Dot` (R212). -/
def dotOf (p : Primitives) (f : Fmt) (as bs : List Word) (k : Nat) : Word × Nat := dotFrom p f as bs (f.zero false) k

/-- `Norm`: the square root of the sum of squares (R211). -/
def normOf (p : Primitives) (f : Fmt) (as : List Word) (k : Nat) : Word × Nat :=
  let sum := dotOf p f as as k
  fsqrt p f sum.1 sum.2

/-- The cosine: the dot product divided once by the product of the two norms (R213). -/
def cosOf (p : Primitives) (f : Fmt) (as bs : List Word) (k : Nat) : Word × Nat :=
  let d := dotOf p f as bs k
  let na := normOf p f as d.2
  let nb := normOf p f bs na.2
  let product := fmul p f na.1 nb.1 nb.2
  fdiv p f d.1 product.1 product.2

/-- The elementwise product (R214). -/
def mulElems (p : Primitives) (f : Fmt) : List Word → List Word → Nat → List Word × Nat
  | [], _, k => ([], k)
  | _ :: _, [], k => ([], k)
  | a :: as, b :: bs, k =>
    let product := fmul p f a b k
    let rest := mulElems p f as bs product.2
    (product.1 :: rest.1, rest.2)

/-- The members' elements `j` added to `acc` in ascending register number (R221). -/
def sumAt (p : Primitives) (f : Fmt) (j : Nat) : List (List Word) → Word → Nat → Word × Nat
  | [], acc, k => (acc, k)
  | m :: ms, acc, k =>
    let sum := fadd p f acc (m.getD j 0) k
    sumAt p f j ms sum.1 sum.2

/-- `acc[j]` for `count` indices from `j` on (R221). -/
def sumsFrom (p : Primitives) (f : Fmt) (ms : List (List Word)) : Nat → Nat → Nat → List Word × Nat
  | 0, _, k => ([], k)
  | count + 1, j, k =>
    let sum := sumAt p f j ms (f.zero false) k
    let rest := sumsFrom p f ms count (j + 1) sum.2
    (sum.1 :: rest.1, rest.2)

/-- Every sum times the reciprocal (R221). -/
def scaleElems (p : Primitives) (f : Fmt) (r : Word) : List Word → Nat → List Word × Nat
  | [], k => ([], k)
  | a :: as, k =>
    let product := fmul p f a r k
    let rest := scaleElems p f r as product.2
    (product.1 :: rest.1, rest.2)

/-- `Agg`: the sums, then the reciprocal of the count, then the products (R221). `n` is the members' length. -/
def aggregate (p : Primitives) (f : Fmt) (ms : List (List Word)) (n : Nat) (k : Nat) : List Word × Nat :=
  let sums := sumsFrom p f ms n 0 k
  let r := fdiv p f f.one (cvt f ms.length) sums.2
  scaleElems p f r.1 sums.1 r.2

/-- Element equality: the floating-point comparison, or identity of patterns under `VEQ_BITWISE` (R216). -/
def elemEq (bitwise : Bool) (f : Fmt) (p q : Word) : Bool := if bitwise then p == q else feq f p q

/-- All pairs of elements equal (R216); used for lists of one length. -/
def allElemEq (bitwise : Bool) (f : Fmt) : List Word → List Word → Bool
  | [], _ => true
  | _ :: _, [] => true
  | a :: as, b :: bs => elemEq bitwise f a b && allElemEq bitwise f as bs

/-- Left rotation by one: element 0 goes to the last place (R217). -/
def rotlElems : List Word → List Word
  | [] => []
  | a :: as => as ++ [a]

/-- Right rotation by one: the last element goes to place 0 (R218). -/
def rotrElems (as : List Word) : List Word :=
  match as.getLast? with
  | none => []
  | some last => last :: as.dropLast

end Sys2Proof
end

