-- ==== Sys2Proof/Machine/VectorAlgebra.lean ====
section
/-! DEFINITION. Vector algebra: `VNORM`, `VDOT`, `VCOS`, `VMUL`, `VEQ`, `VROTL`, `VROTR`, `VAGG`, `VAGGI` (46_vector_algebra.md). -/

namespace Sys2Proof.Machine

/-- `VNORM rd, vs1` (R211). -/
def execVnorm (rd : SReg) (vs1 : VReg) (s : State) : Host.Outcome State Fault Refusal :=
  finish (.vnorm rd vs1) s do
    let a ← s.vecOperand vs1
    let r := normOf s.params.primitives a.fmt a.elems s.nanDraws
    done ((s.setDraws r.2).setX rd r.1)

/-- `VDOT rd, vs1, vs2` (R212). -/
def execVdot (rd : SReg) (vs1 vs2 : VReg) (s : State) : Host.Outcome State Fault Refusal :=
  finish (.vdot rd vs1 vs2) s do
    let (a, b) ← s.compatibleVecs vs1 vs2
    let r := dotOf s.params.primitives a.fmt a.elems b.elems s.nanDraws
    done ((s.setDraws r.2).setX rd r.1)

/-- `VCOS rd, vs1, vs2` (R213). -/
def execVcos (rd : SReg) (vs1 vs2 : VReg) (s : State) : Host.Outcome State Fault Refusal :=
  finish (.vcos rd vs1 vs2) s do
    let (a, b) ← s.compatibleVecs vs1 vs2
    let r := cosOf s.params.primitives a.fmt a.elems b.elems s.nanDraws
    done ((s.setDraws r.2).setX rd r.1)

/-- `VMUL vd, vs1, vs2` (R214). -/
def execVmul (vd vs1 vs2 : VReg) (s : State) : Host.Outcome State Fault Refusal :=
  finish (.vmul vd vs1 vs2) s do
    let (a, b) ← s.compatibleVecs vs1 vs2
    let r := mulElems s.params.primitives a.fmt a.elems b.elems s.nanDraws
    done ((s.setDraws r.2).setV vd ⟨a.fmt, r.1⟩)

/-- `VEQ rd, vs1, vs2`: different lengths are not equal, and no fault (R216). -/
def execVeq (rd : SReg) (vs1 vs2 : VReg) (s : State) : Host.Outcome State Fault Refusal :=
  finish (.veq rd vs1 vs2) s do
    let (a, b) ← s.vecsOfOneFormat vs1 vs2
    let equal := a.len == b.len && allElemEq s.params.veqBitwise a.fmt a.elems b.elems
    done (s.setX rd (if equal then 1 else 0))

/-- `VROTL vd, vs1` (R217). -/
def execVrotl (vd vs1 : VReg) (s : State) : Host.Outcome State Fault Refusal :=
  finish (.vrotl vd vs1) s do
    let a ← s.vecOperand vs1
    done (s.setV vd ⟨a.fmt, rotlElems a.elems⟩)

/-- `VROTR vd, vs1` (R218). -/
def execVrotr (vd vs1 : VReg) (s : State) : Host.Outcome State Fault Refusal :=
  finish (.vrotr vd vs1) s do
    let a ← s.vecOperand vs1
    done (s.setV vd ⟨a.fmt, rotrElems a.elems⟩)

/-- `VAGG vd, mask` (R219). -/
def execVagg (vd : VReg) (mask : BitVec 16) (s : State) : Host.Outcome State Fault Refusal :=
  finish (.vagg vd mask) s do
    let (first, as) ← s.collection mask
    let r := aggregate s.params.primitives first.fmt (as.map VecReg.elems) first.len s.nanDraws
    done ((s.setDraws r.2).setV vd ⟨first.fmt, r.1⟩)

/-- `VAGGI vd, mask`: the elements of `vd` take no part and are replaced; its format and length stay (R220). -/
def execVaggi (vd : VReg) (mask : BitVec 16) (s : State) : Host.Outcome State Fault Refusal :=
  finish (.vaggi vd mask) s do
    let (self, as) ← s.collectionFor vd mask
    let r := aggregate s.params.primitives self.fmt (as.map VecReg.elems) self.len s.nanDraws
    done ((s.setDraws r.2).setV vd ⟨self.fmt, r.1⟩)

end Sys2Proof.Machine
end

