-- ==== Sys2Proof/Machine/VectorMgmt.lean ====
section
/-! DEFINITION. Vector construction, copy and element access: `VNEW`, `VGEN`, `VCOPY`, `VINFO`, `VGETE`, `VSETE` (45_vector_mgmt.md). -/

namespace Sys2Proof.Machine

/-- `VNEW` in format `f`: a vector of zeros (R192, R193, R197). -/
def vnewBody (f : Fmt) (vd : VReg) (rs1 : SReg) (s : State) : Body := do
  let n ← s.sizeOperand rs1
  done (s.setV vd ⟨f, List.replicate n 0⟩)

/-- `VGEN` in format `f`: all checks, then one run of the rejection loop per element (R198 to R200). -/
def vgenBody (f : Fmt) (vd : VReg) (rs1 rs2 : SReg) (s : State) : Body := do
  let n ← s.sizeOperand rs1
  let e ← s.epsilonOperand f rs2
  match genElements s.params.primitives f e n s.gen with
  | some (t, g) => done ((s.setGen g).setV vd ⟨f, t⟩)
  | none => .error .hang

/-- `VNEW.H vd, rs1` (R192). -/
def execVnewH (vd : VReg) (rs1 : SReg) (s : State) : Host.Outcome State Fault Refusal :=
  finish (.vnewH vd rs1) s (vnewBody .half vd rs1 s)

/-- `VNEW.S vd, rs1` (R193). -/
def execVnewS (vd : VReg) (rs1 : SReg) (s : State) : Host.Outcome State Fault Refusal :=
  finish (.vnewS vd rs1) s (vnewBody .single vd rs1 s)

/-- `VNEW.D vd, rs1` (R197). -/
def execVnewD (vd : VReg) (rs1 : SReg) (s : State) : Host.Outcome State Fault Refusal :=
  finish (.vnewD vd rs1) s (vnewBody .double vd rs1 s)

/-- `VNEW` with `fmt = 3` raises `ERR_FMT` (R75). -/
def execVnewFmt3 (vd : VReg) (rs1 : SReg) (s : State) : Host.Outcome State Fault Refusal :=
  finish (.vnewFmt3 vd rs1) s (raise .fmt)

/-- `VGEN.H vd, rs1, rs2` (R198). -/
def execVgenH (vd : VReg) (rs1 rs2 : SReg) (s : State) : Host.Outcome State Fault Refusal :=
  finish (.vgenH vd rs1 rs2) s (vgenBody .half vd rs1 rs2 s)

/-- `VGEN.S vd, rs1, rs2` (R199). -/
def execVgenS (vd : VReg) (rs1 rs2 : SReg) (s : State) : Host.Outcome State Fault Refusal :=
  finish (.vgenS vd rs1 rs2) s (vgenBody .single vd rs1 rs2 s)

/-- `VGEN.D vd, rs1, rs2` (R200). -/
def execVgenD (vd : VReg) (rs1 rs2 : SReg) (s : State) : Host.Outcome State Fault Refusal :=
  finish (.vgenD vd rs1 rs2) s (vgenBody .double vd rs1 rs2 s)

/-- `VGEN` with `fmt = 3` raises `ERR_FMT` (R75). -/
def execVgenFmt3 (vd : VReg) (rs1 rs2 : SReg) (s : State) : Host.Outcome State Fault Refusal :=
  finish (.vgenFmt3 vd rs1 rs2) s (raise .fmt)

/-- `VCOPY vd, vs1` (R201). -/
def execVcopy (vd vs1 : VReg) (s : State) : Host.Outcome State Fault Refusal :=
  finish (.vcopy vd vs1) s do
    let a ← s.vecOperand vs1
    done (s.setV vd a)

/-- What `VINFO` reports: 0 for an invalid register; else bit 63, the format in `[33:32]`, the length in `[30:0]` (R194). -/
def infoWord : Option VecReg → Word
  | none => 0
  | some a => (1#64 <<< 63) ||| (BitVec.ofNat 64 a.fmt.code <<< 32) ||| BitVec.ofNat 64 a.len

/-- `VINFO rd, vs1`, the one command that may name an invalid vector register (R194). -/
def execVinfo (rd : SReg) (vs1 : VReg) (s : State) : Host.Outcome State Fault Refusal :=
  finish (.vinfo rd vs1) s (done (s.setX rd (infoWord (s.getV vs1))))

/-- `VGETE rd, vs1, rs2` (R195). -/
def execVgete (rd : SReg) (vs1 : VReg) (rs2 : SReg) (s : State) : Host.Outcome State Fault Refusal :=
  finish (.vgete rd vs1 rs2) s do
    let a ← s.vecOperand vs1
    let j ← s.indexOperand a rs2
    done (s.setX rd (a.elems.getD j 0))

/-- `VSETE vd, rs1, rs2`: one element becomes the low `W` bits of `rs2` (R196). -/
def execVsete (vd : VReg) (rs1 rs2 : SReg) (s : State) : Host.Outcome State Fault Refusal :=
  finish (.vsete vd rs1 rs2) s do
    let a ← s.vecOperand vd
    let j ← s.indexOperand a rs1
    done (s.setV vd ⟨a.fmt, a.elems.set j (s.fpOperand a.fmt rs2)⟩)

end Sys2Proof.Machine
end

