-- ==== Sys2Proof/Machine/Dispatch.lean ====
section
/-! DEFINITION. One arm per constructor of Instr, each one call of its meaning. -/

namespace Sys2Proof.Machine

def exec (i : Instr) (s : State) : Host.Outcome State Fault Refusal :=
  match i with
  | .nop => Sys2Proof.Machine.execNop s
  | .mts rd wdata => Sys2Proof.Machine.execMts rd wdata s
  | .mfs rs1 => Sys2Proof.Machine.execMfs rs1 s
  | .rdcsr rd csr => Sys2Proof.Machine.execRdcsr rd csr s
  | .popc8 rd rs1 => Sys2Proof.Machine.execPopc8 rd rs1 s
  | .popc16 rd rs1 => Sys2Proof.Machine.execPopc16 rd rs1 s
  | .popc32 rd rs1 => Sys2Proof.Machine.execPopc32 rd rs1 s
  | .popc64 rd rs1 => Sys2Proof.Machine.execPopc64 rd rs1 s
  | .rol32 rd rs1 rs2 => Sys2Proof.Machine.execRol32 rd rs1 rs2 s
  | .ror32 rd rs1 rs2 => Sys2Proof.Machine.execRor32 rd rs1 rs2 s
  | .rol64 rd rs1 rs2 => Sys2Proof.Machine.execRol64 rd rs1 rs2 s
  | .ror64 rd rs1 rs2 => Sys2Proof.Machine.execRor64 rd rs1 rs2 s
  | .rol32i rd rs1 sh => Sys2Proof.Machine.execRol32i rd rs1 sh s
  | .ror32i rd rs1 sh => Sys2Proof.Machine.execRor32i rd rs1 sh s
  | .rol64i rd rs1 sh => Sys2Proof.Machine.execRol64i rd rs1 sh s
  | .ror64i rd rs1 sh => Sys2Proof.Machine.execRor64i rd rs1 sh s
  | .seed rs1 => Sys2Proof.Machine.execSeed rs1 s
  | .nextu64 rd => Sys2Proof.Machine.execNextu64 rd s
  | .nextu32 rd => Sys2Proof.Machine.execNextu32 rd s
  | .nextu16 rd => Sys2Proof.Machine.execNextu16 rd s
  | .nextu8 rd => Sys2Proof.Machine.execNextu8 rd s
  | .nextbool rd => Sys2Proof.Machine.execNextbool rd s
  | .next12H rd => Sys2Proof.Machine.execNext12H rd s
  | .next12S rd => Sys2Proof.Machine.execNext12S rd s
  | .next12D rd => Sys2Proof.Machine.execNext12D rd s
  | .next12Fmt3 rd => Sys2Proof.Machine.execNext12Fmt3 rd s
  | .next01H rd => Sys2Proof.Machine.execNext01H rd s
  | .next01S rd => Sys2Proof.Machine.execNext01S rd s
  | .next01D rd => Sys2Proof.Machine.execNext01D rd s
  | .next01Fmt3 rd => Sys2Proof.Machine.execNext01Fmt3 rd s
  | .nextunitH rd => Sys2Proof.Machine.execNextunitH rd s
  | .nextunitS rd => Sys2Proof.Machine.execNextunitS rd s
  | .nextunitD rd => Sys2Proof.Machine.execNextunitD rd s
  | .nextunitFmt3 rd => Sys2Proof.Machine.execNextunitFmt3 rd s
  | .nextvecH rd rs1 => Sys2Proof.Machine.execNextvecH rd rs1 s
  | .nextvecS rd rs1 => Sys2Proof.Machine.execNextvecS rd rs1 s
  | .nextvecD rd rs1 => Sys2Proof.Machine.execNextvecD rd rs1 s
  | .nextvecFmt3 rd rs1 => Sys2Proof.Machine.execNextvecFmt3 rd rs1 s
  | .vnewH vd rs1 => Sys2Proof.Machine.execVnewH vd rs1 s
  | .vnewS vd rs1 => Sys2Proof.Machine.execVnewS vd rs1 s
  | .vnewD vd rs1 => Sys2Proof.Machine.execVnewD vd rs1 s
  | .vnewFmt3 vd rs1 => Sys2Proof.Machine.execVnewFmt3 vd rs1 s
  | .vgenH vd rs1 rs2 => Sys2Proof.Machine.execVgenH vd rs1 rs2 s
  | .vgenS vd rs1 rs2 => Sys2Proof.Machine.execVgenS vd rs1 rs2 s
  | .vgenD vd rs1 rs2 => Sys2Proof.Machine.execVgenD vd rs1 rs2 s
  | .vgenFmt3 vd rs1 rs2 => Sys2Proof.Machine.execVgenFmt3 vd rs1 rs2 s
  | .vcopy vd vs1 => Sys2Proof.Machine.execVcopy vd vs1 s
  | .vinfo rd vs1 => Sys2Proof.Machine.execVinfo rd vs1 s
  | .vgete rd vs1 rs2 => Sys2Proof.Machine.execVgete rd vs1 rs2 s
  | .vsete vd rs1 rs2 => Sys2Proof.Machine.execVsete vd rs1 rs2 s
  | .vnorm rd vs1 => Sys2Proof.Machine.execVnorm rd vs1 s
  | .vdot rd vs1 vs2 => Sys2Proof.Machine.execVdot rd vs1 vs2 s
  | .vcos rd vs1 vs2 => Sys2Proof.Machine.execVcos rd vs1 vs2 s
  | .vmul vd vs1 vs2 => Sys2Proof.Machine.execVmul vd vs1 vs2 s
  | .veq rd vs1 vs2 => Sys2Proof.Machine.execVeq rd vs1 vs2 s
  | .vrotl vd vs1 => Sys2Proof.Machine.execVrotl vd vs1 s
  | .vrotr vd vs1 => Sys2Proof.Machine.execVrotr vd vs1 s
  | .vagg vd mask => Sys2Proof.Machine.execVagg vd mask s
  | .vaggi vd mask => Sys2Proof.Machine.execVaggi vd mask s

end Sys2Proof.Machine
end

