-- ==== Sys2Proof/Machine/Flags.lean ====
section
/-! DEFINITION. The HVU has no flags, condition codes or predicates, and no command sets a status bit but the fault record (R25). What
stands in their place are the levels of the interface, views of the state. -/

namespace Sys2Proof.Machine

/-- The output `err`: 1 exactly when `FERR` is not 0 (R274). -/
def State.err (s : State) : Bool := s.ferr != 0

/-- The output `cmd_ready` between two steps: 0 for ever once a command has hung (R277, R278). -/
def State.cmdReady (s : State) : Bool := !s.hung

end Sys2Proof.Machine
end

