-- ==== Sys2Proof/Machine/Step.lean ====
section
/-! DEFINITION. One step of the HVU: one command (R14), one reset event (R270), or nothing. -/

namespace Sys2Proof.Machine

/-- One step (R14, R56, R270, R275): the plan of the port, and the taken command decoded and executed. -/
def step (s : State) : Host.Outcome State Fault Refusal :=
  match s.plan with
  | .settle t => .next t
  | .run c t => runCommand c t fun i => exec i t

/-- `s` with the command whose bits are `w` as the next one the host presents, and the unit ready to take it: bits 31..0 are the
command word, bits 95..32 the write data, every bit from `nbits` up 0 (log 16). -/
def State.withFetchWord (s : State) (nbits w : Nat) : State :=
  let v := w % 2 ^ nbits
  { s with
    cmdIn := ⟨BitVec.ofNat 32 v, BitVec.ofNat 64 (v / 2 ^ 32)⟩ :: s.cmdIn
    rstIn := []
    hung := false }

end Sys2Proof.Machine
end

