-- ==== Sys2Proof/Safety.lean ====
section
/-! DEFINITION. What holds of every state a run reaches, in the terms claims use. -/

namespace Sys2Proof

/-- `NEXT12` in each format. -/
def Fmt.next12 : Fmt → SReg → Instr
  | .half, rd => .next12H rd
  | .single, rd => .next12S rd
  | .double, rd => .next12D rd

/-- `NEXT01` in each format. -/
def Fmt.next01 : Fmt → SReg → Instr
  | .half, rd => .next01H rd
  | .single, rd => .next01S rd
  | .double, rd => .next01D rd

/-- `NEXTUNIT` in each format. -/
def Fmt.nextunit : Fmt → SReg → Instr
  | .half, rd => .nextunitH rd
  | .single, rd => .nextunitS rd
  | .double, rd => .nextunitD rd

/-- `NEXTVEC` in each format. -/
def Fmt.nextvec : Fmt → SReg → SReg → Instr
  | .half, rd, rs1 => .nextvecH rd rs1
  | .single, rd, rs1 => .nextvecS rd rs1
  | .double, rd, rs1 => .nextvecD rd rs1

/-- `VNEW` in each format. -/
def Fmt.vnew : Fmt → VReg → SReg → Instr
  | .half, vd, rs1 => .vnewH vd rs1
  | .single, vd, rs1 => .vnewS vd rs1
  | .double, vd, rs1 => .vnewD vd rs1

/-- `VGEN` in each format. -/
def Fmt.vgen : Fmt → VReg → SReg → SReg → Instr
  | .half, vd, rs1, rs2 => .vgenH vd rs1 rs2
  | .single, vd, rs1, rs2 => .vgenS vd rs1 rs2
  | .double, vd, rs1, rs2 => .vgenD vd rs1 rs2

/-- The magnitude, in units, of magnitude bits `b`: exponent field and fraction as one number (R171). -/
def Fmt.unitsOfBits (f : Fmt) (b : Nat) : Nat := f.unitsOf (b / 2 ^ f.fracBits) (b % 2 ^ f.fracBits)

end Sys2Proof

namespace Sys2Proof.Machine

/-- A valid vector register is as R23 says: `1 <= len <= VLMAX`, and every element a `W`-bit pattern with upper bits zero. -/
def VecReg.wf (vlmax : Nat) (a : VecReg) : Prop :=
  1 ≤ a.len ∧ a.len ≤ vlmax ∧ ∀ w ∈ a.elems, w.toNat < 2 ^ a.fmt.width

/-- The parameters are in the range of R7. -/
def Params.ok (p : Params) : Prop := 1 ≤ p.vlmax ∧ p.vlmax < 2 ^ 31

/-- A response is as R66 and R241 say: a code of 0 to 13, and no read data with a fault. -/
def Response.ok (r : Response) : Prop := r.code.toNat ≤ 13 ∧ (r.code ≠ 0 → r.rdata = 0)

/-- The code of the first faulting response of a list, 0 if there is none. -/
def firstFault : List Response → BitVec 8
  | [] => 0
  | r :: rs => if r.code = 0 then firstFault rs else r.code

/-- The invariant of the machine. -/
structure State.Inv (s : State) : Prop where
  /-- R7. -/
  params : s.params.ok
  /-- R23, for every valid vector register. -/
  vectors : ∀ r a, s.getV r = some a → a.wf s.params.vlmax
  /-- R66, R241, for every response since reset. -/
  responses : ∀ r ∈ s.rspOut, r.ok
  /-- R31: `CMDCNT` is the number of responses since reset, modulo `2^64`. -/
  count : s.cmdcnt = BitVec.ofNat 64 s.rspOut.length
  /-- R28: `FERR` is the code of the first fault since reset. -/
  record : s.ferr = firstFault s.rspOut
  /-- R29: `FCMD` is 0 while there is no fault. -/
  noWord : s.ferr = 0 → s.fcmd = 0

/-- A safe state: no command has hung (R278, R280). -/
def State.safe (s : State) : Bool := !s.hung

/-! ## Terms of the claims: what a command may write and which faults it may raise -/

/-- The state after a fault, written out from R243: the record if it is the first, the count, the response. -/
def State.afterFault (s : State) (word : CmdWord) (code : BitVec 8) : State :=
  { s with
    ferr := if s.ferr = 0 then code else s.ferr
    fcmd := if s.ferr = 0 then word else s.fcmd
    cmdcnt := s.cmdcnt + 1
    rspOut := s.rspOut ++ [⟨code, 0⟩] }

/-- The state after a command that completes, on the state its own effect has made: the count (R31) and the one response
`(OK, rdata)` (R66). -/
def State.afterOk (s : State) (rdata : Word) : State :=
  { s with cmdcnt := s.cmdcnt + 1, rspOut := s.rspOut ++ [⟨0, rdata⟩] }

/-- At `s` the unit is ready, no reset comes and `c` is the command the host presents; `t` is `s` with it taken (R56, R275). -/
def State.Takes (s : State) (c : Command) (t : State) : Prop :=
  s.hung = false ∧ s.rstNow = .low ∧ ∃ cs, s.cmdIn = c :: cs ∧ t = { s with cmdIn := cs, rstIn := s.rstIn.tail }

/-- The table of R70: for every opcode the bit ranges `[hi:lo]` that must be zero, `fmt` [23:22], `d` [21:18], `a` [17:14],
`b` [13:10], `imm10` [9:0]; of an immediate rotate `imm10[9:6]`; in format M [23:22] and [17:16] (R67 to R70, R73). -/
def encodingTable : List (Nat × List (Nat × Nat)) :=
  [(0x01, [(23, 22), (21, 18), (17, 14), (13, 10), (9, 0)]), (0x02, [(23, 22), (17, 14), (13, 10), (9, 0)]),
   (0x03, [(23, 22), (21, 18), (13, 10), (9, 0)]), (0x04, [(23, 22), (17, 14), (13, 10)])] ++
  [(0x10, [(23, 22), (13, 10), (9, 0)]), (0x11, [(23, 22), (13, 10), (9, 0)]), (0x12, [(23, 22), (13, 10), (9, 0)]),
   (0x13, [(23, 22), (13, 10), (9, 0)]), (0x14, [(23, 22), (9, 0)]), (0x15, [(23, 22), (9, 0)]),
   (0x16, [(23, 22), (9, 0)]), (0x17, [(23, 22), (9, 0)]), (0x18, [(23, 22), (13, 10), (9, 6)]),
   (0x19, [(23, 22), (13, 10), (9, 6)]), (0x1A, [(23, 22), (13, 10), (9, 6)]), (0x1B, [(23, 22), (13, 10), (9, 6)])] ++
  [(0x20, [(23, 22), (21, 18), (13, 10), (9, 0)]), (0x21, [(23, 22), (17, 14), (13, 10), (9, 0)]),
   (0x22, [(23, 22), (17, 14), (13, 10), (9, 0)]), (0x23, [(23, 22), (17, 14), (13, 10), (9, 0)]),
   (0x24, [(23, 22), (17, 14), (13, 10), (9, 0)]), (0x25, [(23, 22), (17, 14), (13, 10), (9, 0)]),
   (0x28, [(17, 14), (13, 10), (9, 0)]), (0x29, [(17, 14), (13, 10), (9, 0)]), (0x2A, [(17, 14), (13, 10), (9, 0)]),
   (0x2B, [(13, 10), (9, 0)])] ++
  [(0x30, [(13, 10), (9, 0)]), (0x31, [(9, 0)]), (0x32, [(23, 22), (13, 10), (9, 0)]),
   (0x33, [(23, 22), (13, 10), (9, 0)]), (0x34, [(23, 22), (9, 0)]), (0x35, [(23, 22), (9, 0)])] ++
  [(0x40, [(23, 22), (13, 10), (9, 0)]), (0x41, [(23, 22), (9, 0)]), (0x42, [(23, 22), (9, 0)]),
   (0x43, [(23, 22), (9, 0)]), (0x44, [(23, 22), (9, 0)]), (0x48, [(23, 22), (13, 10), (9, 0)]),
   (0x49, [(23, 22), (13, 10), (9, 0)]), (0x50, [(23, 22), (17, 16)]), (0x51, [(23, 22), (17, 16)])]

/-- The command words that R73 does not call illegal. -/
def legalWord (w : CmdWord) : Bool :=
  encodingTable.any fun row => (w.extractLsb 31 24).toNat == row.1 && row.2.all fun z => w.extractLsb z.1 z.2 == 0

/-- The unsigned comparison of patterns that R153 calls equivalent to the test of epsilon. -/
def epsilonInRange (f : Fmt) (e : Word) : Prop := f.epsLo.toNat ≤ e.toNat ∧ e.toNat ≤ f.epsHi.toNat

/-- One update of the seed expansion, `L(v) = v ^ ror_64(v, 23)` (R129). -/
def seedStep (v : Word) : Word := v ^^^ v.rotateRight 23

/-- The collection of a mask (R221): its members' contents in ascending register number. -/
def State.collectionOf (s : State) (mask : BitVec 16) : List (Option VecReg) :=
  ((List.finRange 16).filter fun r => mask.getLsbD r.val).map fun r => s.v[r]

/-- The scalar register a command names as its destination (R70). -/
def scalarDest : Instr → Option SReg
  | .nop => none
  | .mts rd _ => some rd
  | .mfs _ => none
  | .rdcsr rd _ => some rd
  | .popc8 rd _ => some rd
  | .popc16 rd _ => some rd
  | .popc32 rd _ => some rd
  | .popc64 rd _ => some rd
  | .rol32 rd _ _ => some rd
  | .ror32 rd _ _ => some rd
  | .rol64 rd _ _ => some rd
  | .ror64 rd _ _ => some rd
  | .rol32i rd _ _ => some rd
  | .ror32i rd _ _ => some rd
  | .rol64i rd _ _ => some rd
  | .ror64i rd _ _ => some rd
  | .seed _ => none
  | .nextu64 rd => some rd
  | .nextu32 rd => some rd
  | .nextu16 rd => some rd
  | .nextu8 rd => some rd
  | .nextbool rd => some rd
  | .next12H rd => some rd
  | .next12S rd => some rd
  | .next12D rd => some rd
  | .next12Fmt3 rd => some rd
  | .next01H rd => some rd
  | .next01S rd => some rd
  | .next01D rd => some rd
  | .next01Fmt3 rd => some rd
  | .nextunitH rd => some rd
  | .nextunitS rd => some rd
  | .nextunitD rd => some rd
  | .nextunitFmt3 rd => some rd
  | .nextvecH rd _ => some rd
  | .nextvecS rd _ => some rd
  | .nextvecD rd _ => some rd
  | .nextvecFmt3 rd _ => some rd
  | .vnewH _ _ => none
  | .vnewS _ _ => none
  | .vnewD _ _ => none
  | .vnewFmt3 _ _ => none
  | .vgenH _ _ _ => none
  | .vgenS _ _ _ => none
  | .vgenD _ _ _ => none
  | .vgenFmt3 _ _ _ => none
  | .vcopy _ _ => none
  | .vinfo rd _ => some rd
  | .vgete rd _ _ => some rd
  | .vsete _ _ _ => none
  | .vnorm rd _ => some rd
  | .vdot rd _ _ => some rd
  | .vcos rd _ _ => some rd
  | .vmul _ _ _ => none
  | .veq rd _ _ => some rd
  | .vrotl _ _ => none
  | .vrotr _ _ => none
  | .vagg _ _ => none
  | .vaggi _ _ => none

/-- The vector register a command names as its destination (R70). -/
def vectorDest : Instr → Option VReg
  | .nop => none
  | .mts _ _ => none
  | .mfs _ => none
  | .rdcsr _ _ => none
  | .popc8 _ _ => none
  | .popc16 _ _ => none
  | .popc32 _ _ => none
  | .popc64 _ _ => none
  | .rol32 _ _ _ => none
  | .ror32 _ _ _ => none
  | .rol64 _ _ _ => none
  | .ror64 _ _ _ => none
  | .rol32i _ _ _ => none
  | .ror32i _ _ _ => none
  | .rol64i _ _ _ => none
  | .ror64i _ _ _ => none
  | .seed _ => none
  | .nextu64 _ => none
  | .nextu32 _ => none
  | .nextu16 _ => none
  | .nextu8 _ => none
  | .nextbool _ => none
  | .next12H _ => none
  | .next12S _ => none
  | .next12D _ => none
  | .next12Fmt3 _ => none
  | .next01H _ => none
  | .next01S _ => none
  | .next01D _ => none
  | .next01Fmt3 _ => none
  | .nextunitH _ => none
  | .nextunitS _ => none
  | .nextunitD _ => none
  | .nextunitFmt3 _ => none
  | .nextvecH _ _ => none
  | .nextvecS _ _ => none
  | .nextvecD _ _ => none
  | .nextvecFmt3 _ _ => none
  | .vnewH vd _ => some vd
  | .vnewS vd _ => some vd
  | .vnewD vd _ => some vd
  | .vnewFmt3 vd _ => some vd
  | .vgenH vd _ _ => some vd
  | .vgenS vd _ _ => some vd
  | .vgenD vd _ _ => some vd
  | .vgenFmt3 vd _ _ => some vd
  | .vcopy vd _ => some vd
  | .vinfo _ _ => none
  | .vgete _ _ _ => none
  | .vsete vd _ _ => some vd
  | .vnorm _ _ => none
  | .vdot _ _ _ => none
  | .vcos _ _ _ => none
  | .vmul vd _ _ => some vd
  | .veq _ _ _ => none
  | .vrotl vd _ => some vd
  | .vrotr vd _ => some vd
  | .vagg vd _ => some vd
  | .vaggi vd _ => some vd

/-- The commands that may change the generator: `SEED`, every `NEXT*`, `VGEN` (R26). -/
def touchesGen : Instr → Bool
  | .nop => false
  | .mts _ _ => false
  | .mfs _ => false
  | .rdcsr _ _ => false
  | .popc8 _ _ => false
  | .popc16 _ _ => false
  | .popc32 _ _ => false
  | .popc64 _ _ => false
  | .rol32 _ _ _ => false
  | .ror32 _ _ _ => false
  | .rol64 _ _ _ => false
  | .ror64 _ _ _ => false
  | .rol32i _ _ _ => false
  | .ror32i _ _ _ => false
  | .rol64i _ _ _ => false
  | .ror64i _ _ _ => false
  | .seed _ => true
  | .nextu64 _ => true
  | .nextu32 _ => true
  | .nextu16 _ => true
  | .nextu8 _ => true
  | .nextbool _ => true
  | .next12H _ => true
  | .next12S _ => true
  | .next12D _ => true
  | .next12Fmt3 _ => false
  | .next01H _ => true
  | .next01S _ => true
  | .next01D _ => true
  | .next01Fmt3 _ => false
  | .nextunitH _ => true
  | .nextunitS _ => true
  | .nextunitD _ => true
  | .nextunitFmt3 _ => false
  | .nextvecH _ _ => true
  | .nextvecS _ _ => true
  | .nextvecD _ _ => true
  | .nextvecFmt3 _ _ => false
  | .vnewH _ _ => false
  | .vnewS _ _ => false
  | .vnewD _ _ => false
  | .vnewFmt3 _ _ => false
  | .vgenH _ _ _ => true
  | .vgenS _ _ _ => true
  | .vgenD _ _ _ => true
  | .vgenFmt3 _ _ _ => false
  | .vcopy _ _ => false
  | .vinfo _ _ => false
  | .vgete _ _ _ => false
  | .vsete _ _ _ => false
  | .vnorm _ _ => false
  | .vdot _ _ _ => false
  | .vcos _ _ _ => false
  | .vmul _ _ _ => false
  | .veq _ _ _ => false
  | .vrotl _ _ => false
  | .vrotr _ _ => false
  | .vagg _ _ => false
  | .vaggi _ _ => false

/-- The codes of R242 for each command, beyond `ERR_ILLEGAL` of a word that fails decode; `ERR_FMT` belongs to the reserved format
value. -/
def faultCodes : Instr → List (BitVec 8)
  | .nop => []
  | .mts _ _ => []
  | .mfs _ => []
  | .rdcsr _ _ => [12]
  | .popc8 _ _ => []
  | .popc16 _ _ => []
  | .popc32 _ _ => []
  | .popc64 _ _ => []
  | .rol32 _ _ _ => [8]
  | .ror32 _ _ _ => [8]
  | .rol64 _ _ _ => [8]
  | .ror64 _ _ _ => [8]
  | .rol32i _ _ _ => [8]
  | .ror32i _ _ _ => [8]
  | .rol64i _ _ _ => []
  | .ror64i _ _ _ => []
  | .seed _ => []
  | .nextu64 _ => []
  | .nextu32 _ => []
  | .nextu16 _ => []
  | .nextu8 _ => []
  | .nextbool _ => []
  | .next12H _ => []
  | .next12S _ => []
  | .next12D _ => []
  | .next12Fmt3 _ => [2]
  | .next01H _ => []
  | .next01S _ => []
  | .next01D _ => []
  | .next01Fmt3 _ => [2]
  | .nextunitH _ => []
  | .nextunitS _ => []
  | .nextunitD _ => []
  | .nextunitFmt3 _ => [2]
  | .nextvecH _ _ => [7]
  | .nextvecS _ _ => [7]
  | .nextvecD _ _ => [7]
  | .nextvecFmt3 _ _ => [2]
  | .vnewH _ _ => [3, 4]
  | .vnewS _ _ => [3, 4]
  | .vnewD _ _ => [3, 4]
  | .vnewFmt3 _ _ => [2]
  | .vgenH _ _ _ => [3, 4, 7]
  | .vgenS _ _ _ => [3, 4, 7]
  | .vgenD _ _ _ => [3, 4, 7]
  | .vgenFmt3 _ _ _ => [2]
  | .vcopy _ _ => [9]
  | .vinfo _ _ => []
  | .vgete _ _ _ => [9, 11]
  | .vsete _ _ _ => [9, 11]
  | .vnorm _ _ => [9]
  | .vdot _ _ _ => [9, 10, 5]
  | .vcos _ _ _ => [9, 10, 5]
  | .vmul _ _ _ => [9, 10, 5]
  | .veq _ _ _ => [9, 10]
  | .vrotl _ _ => [9]
  | .vrotr _ _ => [9]
  | .vagg _ _ => [6, 9, 10, 5]
  | .vaggi _ _ => [6, 13, 9, 10, 5]

/-! ## Terms of the claims: values -/

/-- `Frac(fmt, m)` of R143: the pattern of `m * 2^-p`. -/
def fracPattern (f : Fmt) (m : Nat) : Word :=
  if m = 0 then 0
  else
    let h := Nat.log2 m
    BitVec.ofNat 64 ((f.bias - f.fracBits + h) * 2 ^ f.fracBits + (m - 2 ^ h) * 2 ^ (f.fracBits - h))

/-- The closed form of `NEXTUNIT` (R143): `Frac` of the fraction bits with the sign bit of `u` put back, +0 when they are 0. -/
def unitPattern (f : Fmt) (u : Word) : Word :=
  let m := u.toNat % 2 ^ f.fracBits
  if m = 0 then 0
  else if u.getLsbD (f.width - 1) then fracPattern f m ||| BitVec.ofNat 64 (2 ^ (f.width - 1))
  else fracPattern f m

/-- `NEXTUNIT` of the word `u` in the primitives `p` (R150 to R152): the fraction bits and the sign bit of `u` with the exponent field of
1.0; to a negative pattern 1.0 is added, to a positive one -1.0. -/
def unitValue (p : Primitives) (f : Fmt) (u : Word) : Option Word :=
  let m := u.toNat % 2 ^ f.fracBits
  if u.getLsbD (f.width - 1) then p.fadd f (BitVec.ofNat 64 (2 ^ (f.width - 1) + f.bias * 2 ^ f.fracBits + m)) f.one
  else p.fadd f (BitVec.ofNat 64 (f.bias * 2 ^ f.fracBits + m)) f.negOne

/-- Sample `k` of the rejection loop that starts at generator state `g`: `NEXTUNIT` of output `k` (R160). -/
def loopSample (p : Primitives) (f : Fmt) (g : Gen) (k : Nat) : Option Word :=
  let gk := Gen.advance^[k] g
  unitValue p f gk.words[gk.cur]

/-- Sample `k` is accepted: it is no NaN, and its magnitude pattern exceeds epsilon as an unsigned number (R160, R178). -/
def sampleAccepted (p : Primitives) (f : Fmt) (e : Word) (g : Gen) (k : Nat) : Bool :=
  match loopSample p f g k with
  | none => false
  | some r => !f.isNaN r && decide (e.toNat < r.toNat % 2 ^ (f.width - 1))

/-- What a result register must hold: the value, or any NaN of the format (R176). -/
def holdsResult (f : Fmt) (value : Option Word) (w : Word) : Prop :=
  match value with
  | some v => w = v
  | none => f.isNaN w = true ∧ w.toNat < 2 ^ f.width

/-- `w` is a dot product in the primitives `p`: the last of sums that start from +0 and take in one product each, in ascending index
(R212, R215), where any of them may be "a NaN". -/
def holdsDot (p : Primitives) (f : Fmt) (as bs : List Word) (w : Word) : Prop :=
  ∃ sums : Nat → Word, sums 0 = f.zero false ∧ sums as.length = w ∧
    ∀ j < as.length, ∃ product : Word, holdsResult f (p.fmul f (as.getD j 0) (bs.getD j 0)) product ∧
      holdsResult f (p.fadd f (sums j) product) (sums (j + 1))

/-- `w` is a norm in the primitives `p` (R211). -/
def holdsNorm (p : Primitives) (f : Fmt) (as : List Word) (w : Word) : Prop :=
  ∃ sum : Word, holdsDot p f as as sum ∧ holdsResult f (p.fsqrt f sum) w

/-- `w` is a cosine in the primitives `p` (R213). -/
def holdsCos (p : Primitives) (f : Fmt) (as bs : List Word) (w : Word) : Prop :=
  ∃ d na nb product : Word, holdsDot p f as bs d ∧ holdsNorm p f as na ∧ holdsNorm p f bs nb ∧
    holdsResult f (p.fmul f na nb) product ∧ holdsResult f (p.fdiv f d product) w

/-- `w` is element `j` of the mean of a collection in the primitives `p`, with `r` for the reciprocal of the count: the sum from +0 in
ascending register number, times `r` (R221). -/
def holdsMean (p : Primitives) (f : Fmt) (ms : List VecReg) (r : Word) (j : Nat) (w : Word) : Prop :=
  ∃ sums : Nat → Word, sums 0 = f.zero false ∧
    (∀ (k : Nat) (h : k < ms.length), holdsResult f (p.fadd f (sums k) (ms[k].elems.getD j 0)) (sums (k + 1))) ∧
    holdsResult f (p.fmul f (sums ms.length) r) w

/-! In the default primitives a NaN among the terms makes the result a NaN, so these values have a closed form. -/

/-- The dot product in the default primitives with "a NaN" as `none`: products added from +0 in ascending index (R212, R215). -/
def dotValue (f : Fmt) (as bs : List Word) : Option Word :=
  (as.zip bs).foldlM (fun acc p => do faddVal f acc (← fmulVal f p.1 p.2)) (f.zero false)

/-- The norm in the default primitives with "a NaN" as `none` (R211). -/
def normValue (f : Fmt) (as : List Word) : Option Word := do fsqrtVal f (← dotValue f as as)

/-- The cosine in the default primitives with "a NaN" as `none` (R213). -/
def cosValue (f : Fmt) (as bs : List Word) : Option Word := do
  let d ← dotValue f as bs
  let na ← normValue f as
  let nb ← normValue f bs
  fdivVal f d (← fmulVal f na nb)

/-- Element `j` of the mean of a collection in the default primitives with "a NaN" as `none`: the sum from +0 in ascending register
number, times the rounded reciprocal of the count (R221). -/
def meanValue (f : Fmt) (ms : List VecReg) (j : Nat) : Option Word := do
  let sum ← ms.foldlM (fun acc m => faddVal f acc (m.elems.getD j 0)) (f.zero false)
  fmulVal f sum (← fdivVal f f.one (cvt f ms.length))

end Sys2Proof.Machine
end

