-- ==== Sys2Proof/Certificates/Slice0/Obligations.lean ====
section
/-! DEFINITION. The statements for the provers. A next state is written out as an update of the state before it: what the update
does not name is unchanged. `afterOk` adds the count and the response `(OK, rdata)`, `afterFault` what R243 writes. -/

open Sys2Proof Sys2Proof.Machine

/-! ## Encoding -/

/-- Every well-formed instruction decodes from its encoding, and from its word with any write data unless it is `MTS`
(R65, R67 to R71). -/
def Obligations.DecodeOfEncode : Prop :=
  ∀ i : Instr, i.wellFormed = true →
    decode (encode i).1 (encode i).2 = .ok i ∧
    ∀ wdata : Word, (∀ rd d, i ≠ .mts rd d) → decode (encodeWord i) wdata = .ok i

/-- A word that decodes is the encoding of the well-formed instruction it decodes to, so no two words are one instruction but by the
write data, and what `FCMD` takes from the instruction is the word presented (R74, R29; log 13). -/
def Obligations.EncodeOfDecode : Prop :=
  ∀ (w : CmdWord) (wdata : Word) (i : Instr), decode w wdata = .ok i →
    i.wellFormed = true ∧ encodeWord i = w ∧ ∀ rd d, i = .mts rd d → d = wdata

/-- The worked encodings of R80, its two illegal words and its reserved format, whatever the write data. -/
def Obligations.WorkedEncodings : Prop :=
  decode 0x02040000#32 0x0000000000000005#64 = .ok (.mts 1 5) ∧
  ∀ d : Word,
    decode 0x01000000#32 d = .ok .nop ∧
    decode 0x03004000#32 d = .ok (.mfs 1) ∧
    decode 0x04080040#32 d = .ok (.rdcsr 2 0x040) ∧
    decode 0x1A0C4001#32 d = .ok (.rol64i 3 1 1) ∧
    decode 0x14104800#32 d = .ok (.rol32 4 1 2) ∧
    decode 0x20004000#32 d = .ok (.seed 1) ∧
    decode 0x211C0000#32 d = .ok (.nextu64 7) ∧
    decode 0x28540000#32 d = .ok (.next12S 5) ∧
    decode 0x2B188000#32 d = .ok (.nextvecH 6 2) ∧
    decode 0x3084C000#32 d = .ok (.vnewD 1 3) ∧
    decode 0x31884800#32 d = .ok (.vgenD 2 1 2) ∧
    decode 0x41244800#32 d = .ok (.vdot 9 1 2) ∧
    decode 0x480CC000#32 d = .ok (.vrotl 3 3) ∧
    decode 0x5000000E#32 d = .ok (.vagg 0 0b1110) ∧
    decode 0x51100006#32 d = .ok (.vaggi 4 0b0110) ∧
    (∃ e, decode 0x00000000#32 d = .error e) ∧
    (∃ e, decode 0x01000001#32 d = .error e) ∧
    (∀ s t : State, s.Takes ⟨0x28C00000#32, d⟩ t → step s = .next (t.afterFault 0x28C00000#32 2))

/-- R73: a word outside the table of R70 raises `ERR_ILLEGAL`, whatever the registers hold; every other word is an
instruction (R74). -/
def Obligations.IllegalWordsFault : Prop :=
  (∀ (s t : State) (w : CmdWord) (d : Word), s.Takes ⟨w, d⟩ t → legalWord w = false →
    step s = .next (t.afterFault w 1)) ∧
  ∀ (w : CmdWord) (d : Word), legalWord w = true → ∃ i, decode w d = .ok i

/-- R75: `fmt = 3` in a format-bearing opcode with all other fields legal raises `ERR_FMT`, whatever the registers hold; `fmt` not 0
in any other opcode raises `ERR_ILLEGAL`. The last part names the six reserved rows: they end so in every state. -/
def Obligations.ReservedFormatFaults : Prop :=
  (∀ (s t : State) (w : CmdWord) (d : Word), s.Takes ⟨w, d⟩ t → legalWord w = true →
    (w.extractLsb 31 24).toNat ∈ [0x28, 0x29, 0x2A, 0x2B, 0x30, 0x31] → w.extractLsb 23 22 = 3#2 →
    step s = .next (t.afterFault w 2)) ∧
  (∀ (s t : State) (w : CmdWord) (d : Word), s.Takes ⟨w, d⟩ t →
    (w.extractLsb 31 24).toNat ∉ [0x28, 0x29, 0x2A, 0x2B, 0x30, 0x31] → w.extractLsb 23 22 ≠ 0#2 →
    step s = .next (t.afterFault w 1)) ∧
  ∀ (s : State) (rd rs1 rs2 : SReg) (vd : VReg),
    exec (.next12Fmt3 rd) s = .next (s.afterFault (encodeWord (.next12Fmt3 rd)) 2) ∧
    exec (.next01Fmt3 rd) s = .next (s.afterFault (encodeWord (.next01Fmt3 rd)) 2) ∧
    exec (.nextunitFmt3 rd) s = .next (s.afterFault (encodeWord (.nextunitFmt3 rd)) 2) ∧
    exec (.nextvecFmt3 rd rs1) s = .next (s.afterFault (encodeWord (.nextvecFmt3 rd rs1)) 2) ∧
    exec (.vnewFmt3 vd rs1) s = .next (s.afterFault (encodeWord (.vnewFmt3 vd rs1)) 2) ∧
    exec (.vgenFmt3 vd rs1 rs2) s = .next (s.afterFault (encodeWord (.vgenFmt3 vd rs1 rs2)) 2)

/-! ## The step, reset and the invariant -/

/-- A taken command that decodes to `i` is `exec i` on the state without the command (R14, R56; the port as a list is log 1). -/
def Obligations.StepRunsDecodedCommand : Prop :=
  ∀ (s t : State) (c : Command) (i : Instr), s.Takes c t → decode c.word c.wdata = .ok i → step s = exec i t

/-- A hung unit takes no command (R278); with no command presented nothing happens (R246; log 10). -/
def Obligations.QuietSteps : Prop :=
  ∀ s : State, s.rstNow = .low → (s.hung = true ∨ s.cmdIn = []) → step s = .next { s with rstIn := s.rstIn.tail }

/-- Reset at any time, also during a command or a hang: every piece of state takes its value of R36, and a command that was
executing is abandoned (R270). That commands still presented, the parameters and the draws stay is the model's choice (log 4, 11,
19). -/
def Obligations.ResetEvent : Prop :=
  ∀ s : State, s.rstNow = .between ∨ s.rstNow = .during →
    ∃ t : State, step s = .next t ∧
      t.x = Vector.replicate 16 0 ∧ t.v = Vector.replicate 16 none ∧
      t.gen = seedGen s.params.fillStoreFirst 0 ∧ t.gen.cur = 0 ∧
      t.ferr = 0 ∧ t.fcmd = 0 ∧ t.cmdcnt = 0 ∧ t.rspOut = [] ∧ t.cmdReady = true ∧ t.err = false ∧
      t.params = s.params ∧ t.nanDraws = s.nanDraws ∧ t.rstIn = s.rstIn.tail ∧
      t.cmdIn = if s.rstNow = .during ∧ s.hung = false then s.cmdIn.tail else s.cmdIn

/-- R36: the reset values, the generator array word by word, and that it is what `SEED` with operand 0 writes. -/
def Obligations.ResetStateValues : Prop :=
  State.reset.gen.words.toList =
    [0x6E1AB72CCC0C37A3#64, 0x7675F1F0F9626E3B#64, 0xB2A9871C12818FC9#64, 0xB1B61479418FB7EC#64,
     0xAED9CD1A2DA7456F#64, 0xE05312479E3D7134#64, 0x9AB17B873819FE08#64, 0xA94D6AB25AEEF078#64,
     0x74AD9BE0C03B94CD#64, 0x038401099B0C554D#64, 0x1B2E9B0E930E467B#64, 0x07A26D38CE385B5D#64,
     0x7714D7378AE22AC1#64, 0xB34155D9A34C45D4#64, 0x2BCAFCBF21E7F692#64, 0xE427D8E8B41E88D1#64,
     0xD9367B20FBAF59B9#64, 0x878508929759184E#64, 0x35B5959D9D483D60#64, 0xA5CF55F6F663065A#64,
     0x63C3E0BD68C8EBB6#64, 0xF2148C7AEF099167#64, 0xE136439EC61164B9#64, 0xC3FF305CAA965935#64,
     0xEF4D5BDB54F6E060#64, 0x028D9A05CE4156C9#64, 0x80200800D5755D55#64, 0x6A9AA30095655CFF#64,
     0xA0235DD5A0235DD5#64, 0xE698F695E698F695#64, 0xD775DD58D775DD58#64, 0x3CCF6CF63CCF6CF6#64,
     0xA216808FA216808F#64, 0x8F179FCB8F179FCB#64, 0xA02808D5A02808D5#64, 0xF039A395F039A395#64,
     0x837E8875837E8875#64] ∧
  State.reset.gen.cur = 0 ∧
  (∀ r : SReg, State.reset.x[r] = 0) ∧ (∀ r : VReg, State.reset.v[r] = none) ∧
  State.reset.ferr = 0 ∧ State.reset.fcmd = 0 ∧ State.reset.cmdcnt = 0 ∧
  ∀ (s : State) (rs1 : SReg), s.params.fillStoreFirst = State.reset.params.fillStoreFirst → s.x[rs1] = 0 →
    ∃ t : State, exec (.seed rs1) s = .next t ∧ t.gen = State.reset.gen

/-- The invariant holds after reset. -/
def Obligations.ResetMeetsInvariant : Prop := State.reset.Inv

/-- Every step keeps the invariant: vector registers as R23 says, responses as R66 and R241 say, `CMDCNT` the number of responses
(R31), the sticky record that of the first fault (R28, R29), from every state that meets it. -/
def Obligations.StepKeepsInvariant : Prop :=
  ∀ s t : State, s.Inv → step s = .next t → t.Inv

/-- R66: a taken command that does not hang answers with exactly one response: `(OK, rdata)`, `rdata` the register for `MFS` and
else 0; or one of the 13 fault codes, with no read data and no change but that of a fault. -/
def Obligations.ResponseOfEveryCommand : Prop :=
  ∀ (s t : State) (c : Command), s.Takes c t → ∃ u : State, step s = .next u ∧
    (u.cmdReady = true →
      u.rspOut = s.rspOut ++ [⟨0, match decode c.word c.wdata with | .ok (.mfs rs1) => s.x[rs1] | _ => 0⟩] ∨
      ∃ code : BitVec 8, 1 ≤ code.toNat ∧ code.toNat ≤ 13 ∧ u = t.afterFault c.word code)

/-- R242: a well-formed instruction completes, counted and with the record as it was, or raises a fault of its list with the
effect of R243 and no other, or hangs (that a hang leaves the rest of the state is the model's choice, log 3). -/
def Obligations.FaultsOfEachInstruction : Prop :=
  ∀ (i : Instr) (s : State), i.wellFormed = true →
    (∃ t : State, exec i s = .next t ∧ t.cmdcnt = s.cmdcnt + 1 ∧ t.ferr = s.ferr ∧ t.fcmd = s.fcmd ∧
      t.hung = s.hung ∧ ∃ w : Word, t.rspOut = s.rspOut ++ [⟨0, w⟩]) ∨
    (∃ code ∈ faultCodes i, exec i s = .next (s.afterFault (encodeWord i) code)) ∨
    exec i s = .next { s with hung := true }

/-- R274: `err` is 1 exactly when `FERR` is not 0. It rises with the first fault: a taken command that answers with a fault ends
with `err` 1, and when `err` was 0 its code and word are then the record; and it rises with nothing else. It falls only at reset;
once there the record stays (R28, R29). -/
def Obligations.ErrLevelAndStickyRecord : Prop :=
  (∀ s : State, s.err = true ↔ s.ferr ≠ 0) ∧
  (∀ (s t u : State) (c : Command) (r : Response), s.Takes c u → step s = .next t →
    t.rspOut = s.rspOut ++ [r] → r.code ≠ 0 →
    t.err = true ∧ (s.err = false → t.ferr = r.code ∧ t.fcmd = c.word)) ∧
  (∀ s t : State, s.rstNow = .low → step s = .next t → s.err = true → t.err = true ∧ t.ferr = s.ferr ∧ t.fcmd = s.fcmd) ∧
  (∀ s t : State, s.rstNow = .low → step s = .next t → s.err = false → t.err = true →
    ∃ c u, s.Takes c u ∧ t.fcmd = c.word ∧ t.rspOut = s.rspOut ++ [⟨t.ferr, 0⟩]) ∧
  ∀ s t : State, s.rstNow ≠ .low → step s = .next t → t.err = false

/-- R31: `CMDCNT` is 0 at reset and goes up by one, modulo `2^64`, with every response and only then: a command that hangs does not
count; a `RDCSR` of it reads the count before itself. Under the invariant it is the number of responses since reset. -/
def Obligations.CmdcntCountsResponses : Prop :=
  State.reset.cmdcnt = 0 ∧
  (∀ s : State, s.Inv → s.cmdcnt = BitVec.ofNat 64 s.rspOut.length) ∧
  (∀ (s t u : State) (c : Command), s.Takes c t → step s = .next u → u.hung = false →
    u.cmdcnt = s.cmdcnt + 1 ∧ ∃ r : Response, u.rspOut = s.rspOut ++ [r]) ∧
  (∀ s t : State, s.rstNow = .low → step s = .next t → t.hung = true → t.cmdcnt = s.cmdcnt ∧ t.rspOut = s.rspOut) ∧
  ∀ (rd : SReg) (s : State),
    exec (.rdcsr rd 0x004) s = .next ({ s with x := s.x.set rd s.cmdcnt }.afterOk 0)

/-- Only the rejection loop hangs (R14, R160, R249): a command that leaves the unit hung is `NEXTVEC` or `VGEN`, and it changes
nothing else (that the rest of the state stays is the model's choice, log 3). -/
def Obligations.OnlyRejectionLoopHangs : Prop :=
  ∀ (i : Instr) (s t : State), s.safe = true → exec i s = .next t → t.safe = false →
    t = { s with hung := true } ∧
    ((∃ f rd rs1, i = Fmt.nextvec f rd rs1) ∨ ∃ f vd rs1 rs2, i = Fmt.vgen f vd rs1 rs2)

/-! ## Frames over all instructions -/

/-- No instruction changes a scalar register but its `rd` (R21, R70). -/
def Obligations.ScalarFrame : Prop :=
  ∀ (i : Instr) (s t : State) (r : SReg), exec i s = .next t → scalarDest i ≠ some r → t.x[r] = s.x[r]

/-- No instruction changes a vector register but its `vd` (R190, R201: no aliasing), and none makes a register invalid. -/
def Obligations.VectorFrame : Prop :=
  ∀ (i : Instr) (s t : State) (r : VReg), exec i s = .next t →
    (vectorDest i ≠ some r → t.v[r] = s.v[r]) ∧ (s.v[r] ≠ none → t.v[r] ≠ none)

/-- The generator changes only by `SEED` and by whole steps of the commands that draw from it (R26, R128, R222). -/
def Obligations.GeneratorFrame : Prop :=
  ∀ (i : Instr) (s t : State), exec i s = .next t →
    (touchesGen i = false → t.gen = s.gen) ∧
    ((∀ rs1, i ≠ .seed rs1) → ∃ k : Nat, t.gen = Gen.advance^[k] s.gen)

/-- An instruction changes neither the parameters nor what the host presents, and adds at most one response (R35, R66, R275). -/
def Obligations.InterfaceFrame : Prop :=
  ∀ (i : Instr) (s t : State), exec i s = .next t →
    t.params = s.params ∧ t.cmdIn = s.cmdIn ∧ t.rstIn = s.rstIn ∧ (s.hung = true → t.hung = true) ∧
    (t.rspOut = s.rspOut ∨ ∃ r : Response, t.rspOut = s.rspOut ++ [r])

/-! ## System and data movement -/

/-- `NOP`, `MTS`, `MFS` complete in every state with the effect of R90, R91, R92. -/
def Obligations.NopMtsMfsComplete : Prop :=
  ∀ (s : State) (r : SReg) (wdata : Word),
    exec .nop s = .next (s.afterOk 0) ∧
    exec (.mts r wdata) s = .next ({ s with x := s.x.set r wdata }.afterOk 0) ∧
    exec (.mfs r) s = .next (s.afterOk s.x[r])

/-- `RDCSR` writes to `rd` the CSR as R28 to R32 define it, and raises `ERR_CSR` for a number that does not exist (R27, R93). CSR
`CONFIG` is in `ConfigCsrConstant`. -/
def Obligations.RdcsrCompletes : Prop :=
  ∀ (s : State) (rd : SReg),
    exec (.rdcsr rd 0x000) s = .next ({ s with x := s.x.set rd (0#56 ++ s.ferr : BitVec 64) }.afterOk 0) ∧
    exec (.rdcsr rd 0x001) s = .next ({ s with x := s.x.set rd (0#32 ++ s.fcmd : BitVec 64) }.afterOk 0) ∧
    exec (.rdcsr rd 0x002) s = .next ({ s with x := s.x.set rd (BitVec.ofNat 64 s.gen.cur.val) }.afterOk 0) ∧
    exec (.rdcsr rd 0x004) s = .next ({ s with x := s.x.set rd s.cmdcnt }.afterOk 0) ∧
    (∀ i : Fin 37, exec (.rdcsr rd (0x040 + i.val)) s =
      .next ({ s with x := s.x.set rd s.gen.words[i] }.afterOk 0)) ∧
    ∀ csr : Nat, 0x004 < csr → csr < 0x040 ∨ 0x064 < csr →
      exec (.rdcsr rd csr) s = .next (s.afterFault (encodeWord (.rdcsr rd csr)) 12)

/-- R33: CSR `CONFIG`, field by field, and that no step, reset included, changes it. -/
def Obligations.ConfigCsrConstant : Prop :=
  (∀ (s : State) (rd : SReg), s.params.ok →
    exec (.rdcsr rd 0x003) s = .next ({ s with
      x := s.x.set rd (1#8 ++ 0#8 ++ 37#8 ++ 15#4 ++ 15#4 ++ 0#1 ++ BitVec.ofNat 31 s.params.vlmax : BitVec 64) }.afterOk 0)) ∧
  ∀ s t : State, step s = .next t → t.readCsr 0x003 = s.readCsr 0x003

/-! ## The bit counter -/

/-- `POPC8`, `POPC16`, `POPC32`, `POPC64` complete in every state: the number of set bits among the low 8, 16, 32, 64 bits of
the source (R103 to R106). -/
def Obligations.PopulationCountsComplete : Prop :=
  ∀ (s : State) (rd rs1 : SReg),
    let ones := fun n : Nat => BitVec.ofNat 64 ((List.range n).countP fun i => s.x[rs1].getLsbD i)
    exec (.popc8 rd rs1) s = .next ({ s with x := s.x.set rd (ones 8) }.afterOk 0) ∧
    exec (.popc16 rd rs1) s = .next ({ s with x := s.x.set rd (ones 16) }.afterOk 0) ∧
    exec (.popc32 rd rs1) s = .next ({ s with x := s.x.set rd (ones 32) }.afterOk 0) ∧
    exec (.popc64 rd rs1) s = .next ({ s with x := s.x.set rd (ones 64) }.afterOk 0)

/-- R100: the composition law of the population count, and its values at 0 and at all ones. -/
def Obligations.PopcountComposition : Prop :=
  (∀ v : BitVec 16, popcount v = popcount (v.extractLsb 15 8) + popcount (v.extractLsb 7 0)) ∧
  (∀ v : BitVec 32, popcount v = popcount (v.extractLsb 31 16) + popcount (v.extractLsb 15 0)) ∧
  (∀ v : BitVec 64, popcount v = popcount (v.extractLsb 63 32) + popcount (v.extractLsb 31 0)) ∧
  ∀ n : Nat, popcount (0#n) = 0 ∧ popcount (BitVec.allOnes n) = n

/-- R11: the rotations bit by bit for the widths 32 and 64, the three equations it derives, and the population count. -/
def Obligations.RotationBits : Prop :=
  ∀ N : Nat, N = 32 ∨ N = 64 → ∀ v : BitVec N,
    popcount v = (List.range N).countP (fun i => v.getLsbD i) ∧
    ∀ n : Nat, n < N →
      (∀ i : Nat, i < N → (ror v n).getLsbD i = v.getLsbD ((i + n) % N)) ∧
      (∀ i : Nat, i < N → (rol v n).getLsbD i = v.getLsbD ((i + N - n) % N)) ∧
      ror v 0 = v ∧ rol v 0 = v ∧ rol (ror v n) n = v ∧ ror v n = rol v ((N - n) % N)

/-- R101: the rotation laws for the widths 32 and 64. -/
def Obligations.RotationLaws : Prop :=
  ∀ N : Nat, N = 32 ∨ N = 64 → ∀ v : BitVec N,
    rol v 0 = v ∧ (fun w => rol w 1)^[N] v = v ∧ (fun w => ror w 1)^[N] v = v ∧
    ∀ n : Nat, n < N → rol (ror v n) n = v ∧ ror (rol v n) n = v

/-- The eight rotates complete for every count in range: `ROL32`, `ROR32`, `ROL64`, `ROR64` with the count in `rs2`, `ROL32I`,
`ROR32I`, `ROL64I`, `ROR64I` with the count `sh` (R107 to R114); the rotations are those of `RotationBits`. -/
def Obligations.RotatesComplete : Prop :=
  ∀ (s : State) (rd rs1 rs2 : SReg) (n : Nat),
    let low := s.x[rs1].setWidth 32
    (n < 32 → s.x[rs2].toNat = n →
      exec (.rol32 rd rs1 rs2) s = .next ({ s with x := s.x.set rd ((rol low n).setWidth 64) }.afterOk 0) ∧
      exec (.ror32 rd rs1 rs2) s = .next ({ s with x := s.x.set rd ((ror low n).setWidth 64) }.afterOk 0)) ∧
    (n < 64 → s.x[rs2].toNat = n →
      exec (.rol64 rd rs1 rs2) s = .next ({ s with x := s.x.set rd (rol s.x[rs1] n) }.afterOk 0) ∧
      exec (.ror64 rd rs1 rs2) s = .next ({ s with x := s.x.set rd (ror s.x[rs1] n) }.afterOk 0)) ∧
    (n < 32 →
      exec (.rol32i rd rs1 n) s = .next ({ s with x := s.x.set rd ((rol low n).setWidth 64) }.afterOk 0) ∧
      exec (.ror32i rd rs1 n) s = .next ({ s with x := s.x.set rd ((ror low n).setWidth 64) }.afterOk 0)) ∧
    (n < 64 →
      exec (.rol64i rd rs1 n) s = .next ({ s with x := s.x.set rd (rol s.x[rs1] n) }.afterOk 0) ∧
      exec (.ror64i rd rs1 n) s = .next ({ s with x := s.x.set rd (ror s.x[rs1] n) }.afterOk 0))

/-- R102: a count out of `[0, N)` raises `ERR_SHIFT`; the count of a register rotate is all 64 bits unsigned; of the immediate
rotates, whose count is 0 to 63, only the 32-bit forms fault. -/
def Obligations.RotateCountFaults : Prop :=
  ∀ (s : State) (rd rs1 rs2 : SReg) (sh : Nat),
    (32 ≤ s.x[rs2].toNat →
      exec (.rol32 rd rs1 rs2) s = .next (s.afterFault (encodeWord (.rol32 rd rs1 rs2)) 8) ∧
      exec (.ror32 rd rs1 rs2) s = .next (s.afterFault (encodeWord (.ror32 rd rs1 rs2)) 8)) ∧
    (64 ≤ s.x[rs2].toNat →
      exec (.rol64 rd rs1 rs2) s = .next (s.afterFault (encodeWord (.rol64 rd rs1 rs2)) 8) ∧
      exec (.ror64 rd rs1 rs2) s = .next (s.afterFault (encodeWord (.ror64 rd rs1 rs2)) 8)) ∧
    (32 ≤ sh → sh < 64 →
      exec (.rol32i rd rs1 sh) s = .next (s.afterFault (encodeWord (.rol32i rd rs1 sh)) 8) ∧
      exec (.ror32i rd rs1 sh) s = .next (s.afterFault (encodeWord (.ror32i rd rs1 sh)) 8)) ∧
    (sh < 64 →
      (∃ w : Word, exec (.rol64i rd rs1 sh) s = .next ({ s with x := s.x.set rd w }.afterOk 0)) ∧
      ∃ w : Word, exec (.ror64i rd rs1 sh) s = .next ({ s with x := s.x.set rd w }.afterOk 0))

/-! ## The generator -/

/-- `SEED` completes in every state: cursor 0, and word `i` is `L^(i+1)` of the starting value, or `L^i` under `FILL_STORE_FIRST`
(R121, R129). -/
def Obligations.SeedCompletes : Prop :=
  ∀ (s : State) (rs1 : SReg),
    let v0 := BitVec.rotateRight 0x61C885EF5D07E919#64 (s.x[rs1].toNat % 64) ^^^ s.x[rs1]
    ∃ g : Gen, exec (.seed rs1) s = .next ({ s with gen := g }.afterOk 0) ∧ g.cur = 0 ∧
      ∀ i : Fin 37, g.words[i] = seedStep^[if s.params.fillStoreFirst then i.val else i.val + 1] v0

/-- R122: the output is the word at the cursor before the change; that word alone changes, by its successor rotated right by 1; the
cursor advances and wraps; the first 37 outputs after seeding are the words as seeded, the 38th the first changed word; and the
example from the reset state. -/
def Obligations.GeneratorStep : Prop :=
  (∀ g : Gen, g.step64 = (g.words[g.cur], g.advance) ∧ g.advance.cur.val = (g.cur.val + 1) % 37 ∧
    (∀ nxt : Fin 37, nxt.val = (g.cur.val + 1) % 37 →
      g.advance.words[g.cur] = g.words[g.cur] ^^^ g.words[nxt].rotateRight 1) ∧
    ∀ i : Fin 37, i ≠ g.cur → g.advance.words[i] = g.words[i]) ∧
  (∀ g : Gen, g.cur = 0 →
    (∀ k : Fin 37, (Gen.advance^[k.val] g).step64.1 = g.words[k]) ∧
    (Gen.advance^[37] g).step64.1 = g.words[(0 : Fin 37)] ^^^ g.words[(1 : Fin 37)].rotateRight 1) ∧
  State.reset.gen.step64.1 = 0x6E1AB72CCC0C37A3#64 ∧
  State.reset.gen.advance.words[(0 : Fin 37)] = 0xD5204FD4B0BD00BE#64 ∧ State.reset.gen.advance.cur = 1 ∧
  (Gen.advance^[37] State.reset.gen).step64.1 = 0xD5204FD4B0BD00BE#64

/-- `NEXTU64`, `NEXTU32`, `NEXTU16`, `NEXTU8`, `NEXTBOOL` complete in every state: one generator step, and the low 64, 32, 16, 8,
1 bits of the word at the cursor (R123 to R128). -/
def Obligations.IntegerOutputsComplete : Prop :=
  ∀ (s : State) (rd : SReg),
    let u := s.gen.words[s.gen.cur]
    let after := fun w : Word => ({ s with gen := s.gen.advance, x := s.x.set rd w } : State).afterOk 0
    exec (.nextu64 rd) s = .next (after u) ∧
    exec (.nextu32 rd) s = .next (after (BitVec.ofNat 64 (u.toNat % 2 ^ 32))) ∧
    exec (.nextu16 rd) s = .next (after (BitVec.ofNat 64 (u.toNat % 2 ^ 16))) ∧
    exec (.nextu8 rd) s = .next (after (BitVec.ofNat 64 (u.toNat % 2 ^ 8))) ∧
    exec (.nextbool rd) s = .next (after (BitVec.ofNat 64 (u.toNat % 2)))

/-- The generator step is a bijection on its states, and the all-zero array is reached only from itself (R129 d). -/
def Obligations.GeneratorStepBijective : Prop :=
  Function.Bijective Gen.advance ∧
  ∀ g : Gen, (∀ i : Fin 37, g.advance.words[i] = 0) ↔ ∀ i : Fin 37, g.words[i] = 0

/-- `L` applied 32 times is `v ^ ror_64(v, 32)`, and the words 31 to 36 of a freshly seeded state (32 to 36 under
`FILL_STORE_FIRST`) have equal halves, for every seed (R129 b). -/
def Obligations.SeededHalvesEqual : Prop :=
  (∀ v : Word, seedStep^[32] v = v ^^^ v.rotateRight 32) ∧
  ∀ (storeFirst : Bool) (seed : Word) (i : Fin 37), (if storeFirst then 32 else 31) ≤ i.val →
    (seedGen storeFirst seed).words[i].extractLsb 63 32 = (seedGen storeFirst seed).words[i].extractLsb 31 0

/-- `L(v) = 0` exactly for all zeros and all ones, and exactly two seeds give the all-zero array, in both readings of the fill
(R129 c). -/
def Obligations.DegenerateSeeds : Prop :=
  (∀ v : Word, seedStep v = 0 ↔ v = 0 ∨ v = BitVec.allOnes 64) ∧
  ∀ (storeFirst : Bool) (seed : Word),
    (∀ i : Fin 37, (seedGen storeFirst seed).words[i] = 0) ↔
      seed = 0xD232C3910BDEBA0F#64 ∨ seed = 0x217BD741FA465872#64

/-- From the all-zero array `NEXTVEC` and `VGEN` hang in every format, with every valid epsilon and size (R129 e, R160, R280), in
the default primitives, and in any other record (log 7) exactly if its `NEXTUNIT` of the word 0 is not accepted; that the rest of
the state stays is the model's choice (log 3). -/
def Obligations.ZeroGeneratorHangs : Prop :=
  ∀ (f : Fmt) (s : State) (rd rs1 rs2 : SReg) (vd : VReg), (∀ i : Fin 37, s.gen.words[i] = 0) →
    epsilonInRange f (f.pattern s.x[rs2]) →
    (s.params.primitives = .ieee →
      exec (f.nextvec rd rs2) s = .next { s with hung := true } ∧
      (1 ≤ s.x[rs1].toInt → s.x[rs1].toInt ≤ s.params.vlmax →
        exec (f.vgen vd rs1 rs2) s = .next { s with hung := true })) ∧
    (sampleAccepted s.params.primitives f (f.pattern s.x[rs2]) s.gen 0 = false ↔
      exec (f.nextvec rd rs2) s = .next { s with hung := true }) ∧
    (1 ≤ s.x[rs1].toInt → s.x[rs1].toInt ≤ s.params.vlmax →
      (sampleAccepted s.params.primitives f (f.pattern s.x[rs2]) s.gen 0 = false ↔
        exec (f.vgen vd rs1 rs2) s = .next { s with hung := true }))

/-! ## The bit-pattern assembler -/

/-- `NEXT12`, `NEXT01`, `NEXTUNIT` in `.H`, `.S`, `.D` complete in every state: one generator step, and for `u` the word at the
cursor the pattern of `NEXT12`, its sum with -1.0, and the sum of `NEXTUNIT`, by the primitives whichever they are (log 7; R142,
R144 to R152; where the sum is "a NaN", `rd` holds some NaN of the format, and the count of draws is the model's own, log 8). In
the default primitives these are the closed forms of R143 and no NaN is drawn. -/
def Obligations.AssembledValuesComplete : Prop :=
  ∀ (f : Fmt) (s : State) (rd : SReg),
    let u := s.gen.words[s.gen.cur]
    let m := u.toNat % 2 ^ f.fracBits
    let b := BitVec.ofNat 64 (f.bias * 2 ^ f.fracBits + m)
    let after := fun (w : Word) (d : Nat) =>
      ({ s with gen := s.gen.advance, x := s.x.set rd w, nanDraws := d } : State).afterOk 0
    exec (f.next12 rd) s = .next (after b s.nanDraws) ∧
    (∃ (w : Word) (d : Nat), exec (f.next01 rd) s = .next (after w d) ∧
      holdsResult f (s.params.primitives.fadd f b f.negOne) w) ∧
    (∃ (w : Word) (d : Nat), exec (f.nextunit rd) s = .next (after w d) ∧
      holdsResult f (unitValue s.params.primitives f u) w) ∧
    (s.params.primitives = .ieee →
      exec (f.next01 rd) s = .next (after (fracPattern f m) s.nanDraws) ∧
      exec (f.nextunit rd) s = .next (after (unitPattern f u) s.nanDraws))

/-- R143: in the default primitives the sums of `NEXT01` and `NEXTUNIT` are the closed forms, and their values, in units of the
smallest subnormal, are exact: `NEXT12` is `1 + m * 2^-p`, `NEXT01` `m * 2^-p`, `NEXTUNIT` the same with the sign of `u`; none is
a subnormal, an infinity or a NaN, and a zero is +0. -/
def Obligations.AssembledValuesExact : Prop :=
  ∀ (f : Fmt) (u : Word),
    let m := u.toNat % 2 ^ f.fracBits
    let b := BitVec.ofNat 64 (f.bias * 2 ^ f.fracBits + m)
    Primitives.ieee.fadd f b f.negOne = some (fracPattern f m) ∧
    unitValue .ieee f u = some (unitPattern f u) ∧
    f.expField b = f.bias ∧
    f.value b = (2 ^ f.fracBits + m : Nat) * 2 ^ (f.bias - 1) ∧
    f.value (fracPattern f m) = (m : Int) * 2 ^ (f.bias - 1) ∧
    f.value (unitPattern f u) =
      (if u.getLsbD (f.width - 1) then -1 else 1) * ((m : Int) * 2 ^ (f.bias - 1)) ∧
    (m = 0 → fracPattern f m = 0 ∧ unitPattern f u = 0) ∧
    (m ≠ 0 → ∀ w ∈ [fracPattern f m, unitPattern f u],
      0 < f.expField w ∧ f.expField w < f.emax ∧ w.toNat < 2 ^ f.width)

/-- R153: the bounds of epsilon, 0.1 and 0.5 rounded to nearest; both included; the test by `fle` is the unsigned comparison of the
patterns; an epsilon outside raises `ERR_EPSILON` before any generator step, in `NEXTVEC` and, the size being valid, in `VGEN`. -/
def Obligations.EpsilonRange : Prop :=
  [Fmt.half, .single, .double].map Fmt.epsLo = [0x2E66#64, 0x3DCCCCCD#64, 0x3FB999999999999A#64] ∧
  [Fmt.half, .single, .double].map Fmt.epsHi = [0x3800#64, 0x3F000000#64, 0x3FE0000000000000#64] ∧
  ∀ f : Fmt,
    f.epsLo.toNat = f.roundRatio (2 ^ f.unitExp) 10 ∧ f.epsHi.toNat = f.roundRatio (2 ^ f.unitExp) 2 ∧
    (∀ e : Word, e.toNat < 2 ^ f.width →
      ((fle f f.epsLo e = true ∧ fle f e f.epsHi = true) ↔ epsilonInRange f e)) ∧
    ∀ (s : State) (rd rs1 rs2 : SReg) (vd : VReg), ¬ epsilonInRange f (f.pattern s.x[rs2]) →
      exec (f.nextvec rd rs2) s = .next (s.afterFault (encodeWord (f.nextvec rd rs2)) 7) ∧
      (1 ≤ s.x[rs1].toInt → s.x[rs1].toInt ≤ s.params.vlmax →
        exec (f.vgen vd rs1 rs2) s = .next (s.afterFault (encodeWord (f.vgen vd rs1 rs2)) 7))

/-- `NEXTVEC` in `.H`, `.S`, `.D` with a valid epsilon, whichever the primitives (log 7): it completes with the first accepted
sample, one generator step for it and one for each rejected one before it; it hangs exactly when no sample is ever accepted (R154
to R156, R160). What the samples are in the default primitives is in `AssembledValuesExact`. That a hang leaves the rest of the
state is the model's choice (log 3). -/
def Obligations.NextvecCompletes : Prop :=
  ∀ (f : Fmt) (s : State) (rd rs1 : SReg), epsilonInRange f (f.pattern s.x[rs1]) →
    let sample := loopSample s.params.primitives f s.gen
    let accepted := sampleAccepted s.params.primitives f (f.pattern s.x[rs1]) s.gen
    (∀ (k : Nat) (r : Word), sample k = some r → accepted k = true → (∀ j < k, accepted j = false) →
      exec (f.nextvec rd rs1) s =
        .next ({ s with gen := Gen.advance^[k + 1] s.gen, x := s.x.set rd r }.afterOk 0)) ∧
    ((∀ k : Nat, accepted k = false) ↔ exec (f.nextvec rd rs1) s = .next { s with hung := true })

/-! ## Vector construction and access -/

/-- R191: the size is the whole register as a signed number; below 1 raises `ERR_SIZE`, above `VLMAX` `ERR_CAPACITY`, in `VNEW`
and in `VGEN`, whatever the epsilon. -/
def Obligations.SizeFaults : Prop :=
  ∀ (f : Fmt) (s : State) (vd : VReg) (rs1 rs2 : SReg),
    (s.x[rs1].toInt < 1 →
      exec (f.vnew vd rs1) s = .next (s.afterFault (encodeWord (f.vnew vd rs1)) 3) ∧
      exec (f.vgen vd rs1 rs2) s = .next (s.afterFault (encodeWord (f.vgen vd rs1 rs2)) 3)) ∧
    ((s.params.vlmax : Int) < s.x[rs1].toInt →
      exec (f.vnew vd rs1) s = .next (s.afterFault (encodeWord (f.vnew vd rs1)) 4) ∧
      exec (f.vgen vd rs1 rs2) s = .next (s.afterFault (encodeWord (f.vgen vd rs1 rs2)) 4))

/-- `VNEW` in `.H`, `.S`, `.D` completes for every size of 1 to `VLMAX`: a vector of zeros in the format, whatever `vd` held
(R190 to R193, R197). -/
def Obligations.VnewCompletes : Prop :=
  ∀ (f : Fmt) (s : State) (vd : VReg) (rs1 : SReg) (n : Nat), s.x[rs1].toInt = n → 1 ≤ n → n ≤ s.params.vlmax →
    exec (f.vnew vd rs1) s = .next ({ s with v := s.v.set vd (some ⟨f, List.replicate n 0⟩) }.afterOk 0)

/-- `VGEN` in `.H`, `.S`, `.D` with a valid size `n` and epsilon, whichever the primitives (log 7): when sample `k` is the `n`th
accepted one, it completes, the elements being the accepted samples in order and the generator `k + 1` steps on; when fewer than
`n` samples are ever accepted, it hangs (R198 to R200, R160), which leaves the rest of the state by the model's choice (log 3). -/
def Obligations.VgenCompletes : Prop :=
  ∀ (f : Fmt) (s : State) (vd : VReg) (rs1 rs2 : SReg) (n : Nat), s.x[rs1].toInt = n → 1 ≤ n → n ≤ s.params.vlmax →
    epsilonInRange f (f.pattern s.x[rs2]) →
    let sample := loopSample s.params.primitives f s.gen
    let isAccepted := sampleAccepted s.params.primitives f (f.pattern s.x[rs2]) s.gen
    let accepted := fun count : Nat => (List.range count).filter isAccepted
    (∀ (k : Nat) (es : List Word), isAccepted k = true → (accepted (k + 1)).length = n →
      (accepted (k + 1)).map sample = es.map some →
      exec (f.vgen vd rs1 rs2) s =
        .next ({ s with gen := Gen.advance^[k + 1] s.gen, v := s.v.set vd (some ⟨f, es⟩) }.afterOk 0)) ∧
    ((∀ count : Nat, (accepted count).length < n) → exec (f.vgen vd rs1 rs2) s = .next { s with hung := true })

/-- `VCOPY`, `VINFO`, `VGETE`, `VSETE` complete on a valid register and an index below its length; `VINFO` also on an invalid one
(R194, R195, R196, R201). `VSETE` changes that element only, to the low `W` bits of `rs2`. An index not below the length, all 64
bits unsigned, raises `ERR_INDEX` (R53). -/
def Obligations.VectorAccessCompletes : Prop :=
  ∀ (s : State) (rd rs1 rs2 : SReg) (vd vs1 : VReg),
    (s.v[vs1] = none → exec (.vinfo rd vs1) s = .next ({ s with x := s.x.set rd 0 }.afterOk 0)) ∧
    ∀ a : VecReg, s.v[vs1] = some a →
      exec (.vcopy vd vs1) s = .next ({ s with v := s.v.set vd (some a) }.afterOk 0) ∧
      (a.len < 2 ^ 31 → exec (.vinfo rd vs1) s = .next ({ s with
        x := s.x.set rd (1#1 ++ 0#29 ++ BitVec.ofNat 2 a.fmt.code ++ 0#1 ++ BitVec.ofNat 31 a.len : BitVec 64) }.afterOk 0)) ∧
      (∀ h : s.x[rs2].toNat < a.elems.length,
        exec (.vgete rd vs1 rs2) s = .next ({ s with x := s.x.set rd (a.elems[s.x[rs2].toNat]'h) }.afterOk 0)) ∧
      (s.x[rs1].toNat < a.elems.length →
        exec (.vsete vs1 rs1 rs2) s = .next ({ s with
          v := s.v.set vs1 (some ⟨a.fmt, a.elems.set s.x[rs1].toNat
            (BitVec.ofNat 64 (s.x[rs2].toNat % 2 ^ a.fmt.width))⟩) }.afterOk 0)) ∧
      (a.elems.length ≤ s.x[rs2].toNat →
        exec (.vgete rd vs1 rs2) s = .next (s.afterFault (encodeWord (.vgete rd vs1 rs2)) 11)) ∧
      (a.elems.length ≤ s.x[rs1].toNat →
        exec (.vsete vs1 rs1 rs2) s = .next (s.afterFault (encodeWord (.vsete vs1 rs1 rs2)) 11))

/-- R37: every command that reads a vector register which holds no vector raises `ERR_VINVALID`, but `VINFO`; in `VAGG` and
`VAGGI` after the checks of the mask. -/
def Obligations.InvalidRegisterFaults : Prop :=
  ∀ (s : State) (rd rs1 rs2 : SReg) (vr other vd : VReg) (mask : BitVec 16), s.v[vr] = none →
    exec (.vcopy vd vr) s = .next (s.afterFault (encodeWord (.vcopy vd vr)) 9) ∧
    exec (.vgete rd vr rs2) s = .next (s.afterFault (encodeWord (.vgete rd vr rs2)) 9) ∧
    exec (.vsete vr rs1 rs2) s = .next (s.afterFault (encodeWord (.vsete vr rs1 rs2)) 9) ∧
    exec (.vnorm rd vr) s = .next (s.afterFault (encodeWord (.vnorm rd vr)) 9) ∧
    exec (.vrotl vd vr) s = .next (s.afterFault (encodeWord (.vrotl vd vr)) 9) ∧
    exec (.vrotr vd vr) s = .next (s.afterFault (encodeWord (.vrotr vd vr)) 9) ∧
    (∀ i ∈ [Instr.vdot rd vr other, .vdot rd other vr, .vcos rd vr other, .vcos rd other vr, .vmul vd vr other,
        .vmul vd other vr, .veq rd vr other, .veq rd other vr],
      exec i s = .next (s.afterFault (encodeWord i) 9)) ∧
    (mask.getLsbD vr.val = true → exec (.vagg vd mask) s = .next (s.afterFault (encodeWord (.vagg vd mask)) 9)) ∧
    (mask.getLsbD vr.val = true → mask.getLsbD vd.val = false →
      exec (.vaggi vd mask) s = .next (s.afterFault (encodeWord (.vaggi vd mask)) 9)) ∧
    (mask ≠ 0 → mask.getLsbD vr.val = false →
      exec (.vaggi vr mask) s = .next (s.afterFault (encodeWord (.vaggi vr mask)) 9)) ∧
    exec (.vinfo rd vr) s = .next ({ s with x := s.x.set rd 0 }.afterOk 0)

/-! ## Vector algebra -/

/-- R210: the operand checks of `VDOT`, `VCOS`, `VMUL` in order: validity, then formats whatever the lengths, then lengths. -/
def Obligations.CompatibilityFaults : Prop :=
  ∀ (s : State) (rd : SReg) (vd vs1 vs2 : VReg), ∀ i ∈ [Instr.vdot rd vs1 vs2, .vcos rd vs1 vs2, .vmul vd vs1 vs2],
    (s.v[vs1] = none ∨ s.v[vs2] = none → exec i s = .next (s.afterFault (encodeWord i) 9)) ∧
    ∀ a b : VecReg, s.v[vs1] = some a → s.v[vs2] = some b →
      (a.fmt ≠ b.fmt → exec i s = .next (s.afterFault (encodeWord i) 10)) ∧
      (a.fmt = b.fmt → a.len ≠ b.len → exec i s = .next (s.afterFault (encodeWord i) 5))

/-- `VNORM`, `VDOT`, `VCOS` complete on valid and compatible registers, with the sums of R211 to R213 and R215 in ascending index
from +0, every product and sum one call of a primitive, whichever the primitives (log 7); where a result is "a NaN", some NaN of the
format stands for it (R176, R180; the count of draws is the model's own, log 8). In the default primitives the result is one
value, or a NaN. -/
def Obligations.NormDotCosineComplete : Prop :=
  ∀ (s : State) (rd : SReg) (vs1 vs2 : VReg) (a : VecReg), s.v[vs1] = some a →
    let p := s.params.primitives
    let after := fun (w : Word) (d : Nat) => ({ s with x := s.x.set rd w, nanDraws := d } : State).afterOk 0
    (∃ (w : Word) (d : Nat), exec (.vnorm rd vs1) s = .next (after w d) ∧ holdsNorm p a.fmt a.elems w ∧
      (p = .ieee → holdsResult a.fmt (normValue a.fmt a.elems) w)) ∧
    ∀ b : VecReg, s.v[vs2] = some b → a.fmt = b.fmt → a.len = b.len →
      (∃ (w : Word) (d : Nat), exec (.vdot rd vs1 vs2) s = .next (after w d) ∧ holdsDot p a.fmt a.elems b.elems w ∧
        (p = .ieee → holdsResult a.fmt (dotValue a.fmt a.elems b.elems) w)) ∧
      ∃ (w : Word) (d : Nat), exec (.vcos rd vs1 vs2) s = .next (after w d) ∧ holdsCos p a.fmt a.elems b.elems w ∧
        (p = .ieee → holdsResult a.fmt (cosValue a.fmt a.elems b.elems) w)

/-- `VMUL` completes on valid and compatible registers: every element is one product of the sources' elements by the primitives
(log 7), read before `vd` is written, so also where `vd` is a source (R57, R190, R214; the count of draws is the model's own, log
8). -/
def Obligations.MultiplyCompletes : Prop :=
  ∀ (s : State) (vd vs1 vs2 : VReg) (a b : VecReg), s.v[vs1] = some a → s.v[vs2] = some b → a.fmt = b.fmt → a.len = b.len →
    ∃ (es : List Word) (d : Nat),
      exec (.vmul vd vs1 vs2) s = .next ({ s with v := s.v.set vd (some ⟨a.fmt, es⟩), nanDraws := d }.afterOk 0) ∧
      es.length = a.len ∧
      ∀ j < a.len, holdsResult a.fmt (s.params.primitives.fmul a.fmt (a.elems.getD j 0) (b.elems.getD j 0)) (es.getD j 0)

/-- R216: `VEQ` faults on an invalid register and on different formats, and else completes with 1 for equal lengths and elements
that are equal in pairs, by `feq` or, under `VEQ_BITWISE`, as patterns; with 0 otherwise. -/
def Obligations.EqualityCompletes : Prop :=
  ∀ (s : State) (rd : SReg) (vs1 vs2 : VReg),
    (s.v[vs1] = none ∨ s.v[vs2] = none →
      exec (.veq rd vs1 vs2) s = .next (s.afterFault (encodeWord (.veq rd vs1 vs2)) 9)) ∧
    ∀ a b : VecReg, s.v[vs1] = some a → s.v[vs2] = some b →
      (a.fmt ≠ b.fmt → exec (.veq rd vs1 vs2) s = .next (s.afterFault (encodeWord (.veq rd vs1 vs2)) 10)) ∧
      (a.fmt = b.fmt → a.len ≠ b.len →
        exec (.veq rd vs1 vs2) s = .next ({ s with x := s.x.set rd 0 }.afterOk 0)) ∧
      (a.fmt = b.fmt → a.len = b.len → ∃ w : Word,
        exec (.veq rd vs1 vs2) s = .next ({ s with x := s.x.set rd w }.afterOk 0) ∧ (w = 0 ∨ w = 1) ∧
        (w = 1 ↔ ∀ j < a.len,
          if s.params.veqBitwise then a.elems.getD j 0 = b.elems.getD j 0
          else feq a.fmt (a.elems.getD j 0) (b.elems.getD j 0) = true))

/-- `VROTL` and `VROTR` complete on a valid register: `t[j] = a[(j + 1) mod n]` and `t[j] = a[(j - 1) mod n]`, as patterns
(R217, R218). -/
def Obligations.RotateVectorCompletes : Prop :=
  ∀ (s : State) (vd vs1 : VReg) (a : VecReg), s.v[vs1] = some a →
    (∃ es : List Word, exec (.vrotl vd vs1) s = .next ({ s with v := s.v.set vd (some ⟨a.fmt, es⟩) }.afterOk 0) ∧
      es.length = a.len ∧ ∀ j < a.len, es.getD j 0 = a.elems.getD ((j + 1) % a.len) 0) ∧
    ∃ es : List Word, exec (.vrotr vd vs1) s = .next ({ s with v := s.v.set vd (some ⟨a.fmt, es⟩) }.afterOk 0) ∧
      es.length = a.len ∧ ∀ j < a.len, es.getD j 0 = a.elems.getD ((j + a.len - 1) % a.len) 0

/-- The laws of permutation and copy: each rotation undoes the other bit for bit (R218, R222 a); `n` rotations of `n` elements
restore them; and after `VCOPY`, `VEQ` of original and copy is 1 unless, in the default reading, an element is a NaN (R201). -/
def Obligations.RotationAndCopyLaws : Prop :=
  (∀ (s : State) (vd vs1 : VReg) (a : VecReg), s.v[vs1] = some a →
    (∃ t u : State, exec (.vrotl vd vs1) s = .next t ∧ exec (.vrotr vd vd) t = .next u ∧ u.v[vd] = some a) ∧
    ∃ t u : State, exec (.vrotr vd vs1) s = .next t ∧ exec (.vrotl vd vd) t = .next u ∧ u.v[vd] = some a) ∧
  (∀ es : List Word, rotlElems^[es.length] es = es ∧ rotrElems^[es.length] es = es) ∧
  ∀ (s : State) (rd : SReg) (vd vs1 : VReg) (a : VecReg), s.v[vs1] = some a →
    ∃ t u : State, exec (.vcopy vd vs1) s = .next t ∧ exec (.veq rd vs1 vd) t = .next u ∧
      (u.x[rd] = 1 ↔ s.params.veqBitwise = true ∨ ∀ w ∈ a.elems, a.fmt.isNaN w = false)

/-- `VAGG`, and `VAGGI` with a valid `vd` outside the collection, complete on a collection of one format and one length,
whichever the primitives (log 7): element `j` is the sum of the members' elements in ascending register number from +0, times the
reciprocal of their number; `vd` takes no part in the sum of `VAGGI` (R215, R219 to R221, R222 d; the count of draws is the
model's own, log 8). In the default primitives each element is one value, the same for both, or a NaN. -/
def Obligations.AggregationCompletes : Prop :=
  ∀ (s : State) (vd : VReg) (mask : BitVec 16) (f : Fmt) (n : Nat) (ms : List VecReg), ms ≠ [] →
    s.collectionOf mask = ms.map some → (∀ m ∈ ms, m.fmt = f ∧ m.len = n) →
    let p := s.params.primitives
    let isMean := fun (es : List Word) => es.length = n ∧
      (∃ r : Word, holdsResult f (p.fdiv f f.one (cvt f ms.length)) r ∧ ∀ j < n, holdsMean p f ms r j (es.getD j 0)) ∧
      (p = .ieee → ∀ j < n, holdsResult f (meanValue f ms j) (es.getD j 0))
    let after := fun (es : List Word) (d : Nat) =>
      ({ s with v := s.v.set vd (some ⟨f, es⟩), nanDraws := d } : State).afterOk 0
    (∃ (es : List Word) (d : Nat), exec (.vagg vd mask) s = .next (after es d) ∧ isMean es) ∧
    (∀ self : VecReg, mask.getLsbD vd.val = false → s.v[vd] = some self → self.fmt = f → self.len = n →
      ∃ (es : List Word) (d : Nat), exec (.vaggi vd mask) s = .next (after es d) ∧ isMean es)

/-- The faults of `VAGG` and `VAGGI` in the order of R219 and R220: empty; for `VAGGI` aliased; an invalid member, or an invalid
`vd` of `VAGGI`; a format, whatever the lengths; a length. `VAGG` compares with the first member, `VAGGI` with `vd`. -/
def Obligations.AggregationFaults : Prop :=
  ∀ (s : State) (vd : VReg) (mask : BitVec 16),
    (mask = 0 →
      exec (.vagg vd mask) s = .next (s.afterFault (encodeWord (.vagg vd mask)) 6) ∧
      exec (.vaggi vd mask) s = .next (s.afterFault (encodeWord (.vaggi vd mask)) 6)) ∧
    (none ∈ s.collectionOf mask → exec (.vagg vd mask) s = .next (s.afterFault (encodeWord (.vagg vd mask)) 9)) ∧
    (∀ (first : VecReg) (rest : List VecReg), s.collectionOf mask = (first :: rest).map some →
      ((∃ m ∈ rest, m.fmt ≠ first.fmt) →
        exec (.vagg vd mask) s = .next (s.afterFault (encodeWord (.vagg vd mask)) 10)) ∧
      ((∀ m ∈ rest, m.fmt = first.fmt) → (∃ m ∈ rest, m.len ≠ first.len) →
        exec (.vagg vd mask) s = .next (s.afterFault (encodeWord (.vagg vd mask)) 5))) ∧
    (mask.getLsbD vd.val = true → exec (.vaggi vd mask) s = .next (s.afterFault (encodeWord (.vaggi vd mask)) 13)) ∧
    (mask ≠ 0 → mask.getLsbD vd.val = false →
      (s.v[vd] = none ∨ none ∈ s.collectionOf mask →
        exec (.vaggi vd mask) s = .next (s.afterFault (encodeWord (.vaggi vd mask)) 9)) ∧
      ∀ (self : VecReg) (ms : List VecReg), s.v[vd] = some self → s.collectionOf mask = ms.map some →
        ((∃ m ∈ ms, m.fmt ≠ self.fmt) →
          exec (.vaggi vd mask) s = .next (s.afterFault (encodeWord (.vaggi vd mask)) 10)) ∧
        ((∀ m ∈ ms, m.fmt = self.fmt) → (∃ m ∈ ms, m.len ≠ self.len) →
          exec (.vaggi vd mask) s = .next (s.afterFault (encodeWord (.vaggi vd mask)) 5)))

/-! ## Floating point -/

/-- R172 for rational results: `roundRatio` of the magnitude `num / den` units is at most the infinity; it is the infinity
exactly from `(2 - 2^-(p+1)) * 2^(emax - 1 - bias)` on; below, no other magnitude of the format, `2^(emax - bias)` among them, is
nearer, and an equally near one leaves the even one; written with a sign, sign and magnitude bits are as given. -/
def Obligations.RationalRounding : Prop :=
  ∀ (f : Fmt) (num den : Nat), 0 < num → 0 < den →
    let b := f.roundRatio num den
    let distance := fun c : Nat => ((num : Int) - den * f.unitsOfBits c).natAbs
    b ≤ f.infBits ∧
    (b = f.infBits ↔ (2 ^ (f.fracBits + 2) - 1) * 2 ^ (f.emax - 3) * den ≤ num) ∧
    (b < f.infBits → ∀ c ≤ f.infBits, c ≠ b → distance b < distance c ∨ (distance b = distance c ∧ b % 2 = 0)) ∧
    ∀ negative : Bool,
      f.sign (f.pack negative b) = negative ∧ f.units (f.pack negative b) = f.unitsOfBits b ∧
      (f.pack negative b).toNat % 2 ^ (f.width - 1) = b

/-- R177 with R172 for square roots in the default primitives: of a positive finite number the result is a positive normal number
to whose square root no other magnitude of the format is nearer, an equally near one leaving the even one. The root of `x` lies
on one side of the middle of two magnitudes as `4 * x` lies of the square of their sum. -/
def Obligations.SquareRootRounding : Prop :=
  ∀ (f : Fmt) (a : Word), f.isNaN a = false → f.isInf a = false → f.isZero a = false → f.sign a = false →
    ∃ b : Nat, Primitives.ieee.fsqrt f a = some (f.pack false b) ∧ 2 ^ f.fracBits ≤ b ∧ b < f.infBits ∧
      ∀ c ≤ f.infBits,
        let x := f.units a * 2 ^ f.unitExp
        let sum := f.unitsOfBits b + f.unitsOfBits c
        (c < b → sum * sum < 4 * x ∨ (sum * sum = 4 * x ∧ b % 2 = 0)) ∧
        (b < c → 4 * x < sum * sum ∨ (4 * x = sum * sum ∧ b % 2 = 0))

/-- R173, R174, R175, R177 case by case, for the primitives of the default record: NaNs, infinities and zeros, and for other
operands one rounding of the exact sum, product or quotient of their values, an exact sum 0 being +0. `none` stands for "a NaN". -/
def Obligations.PrimitiveCases : Prop :=
  ∀ (f : Fmt) (a b : Word),
    let add := Primitives.ieee.fadd
    let mul := Primitives.ieee.fmul
    let div := Primitives.ieee.fdiv
    let sqrt := Primitives.ieee.fsqrt
    let s := f.sign a ^^ f.sign b
    let finite := fun w : Word => f.isNaN w = false ∧ f.isInf w = false
    (f.isNaN a = true ∨ f.isNaN b = true → add f a b = none ∧ mul f a b = none ∧ div f a b = none) ∧
    (f.isInf a = true → f.isInf b = true →
      add f a b = (if f.sign a = f.sign b then some (f.inf (f.sign a)) else none) ∧
      mul f a b = some (f.inf s) ∧ div f a b = none) ∧
    (f.isInf a = true → finite b →
      add f a b = some (f.inf (f.sign a)) ∧ div f a b = some (f.inf s) ∧
      mul f a b = if f.isZero b then none else some (f.inf s)) ∧
    (finite a → f.isInf b = true →
      add f a b = some (f.inf (f.sign b)) ∧ div f a b = some (f.zero s) ∧
      mul f a b = if f.isZero a then none else some (f.inf s)) ∧
    (f.isZero a = true → f.isZero b = true →
      add f a b = some (f.zero (f.sign a && f.sign b)) ∧ mul f a b = some (f.zero s) ∧ div f a b = none) ∧
    (finite a → finite b → f.isZero a = false ∨ f.isZero b = false →
      add f a b =
        (if f.value a + f.value b = 0 then some (f.zero false)
         else some (f.pack (f.value a + f.value b < 0) (f.roundRatio (f.value a + f.value b).natAbs 1)))) ∧
    (f.isZero a = true → finite b → f.isZero b = false →
      mul f a b = some (f.zero s) ∧ div f a b = some (f.zero s)) ∧
    (finite a → f.isZero a = false → f.isZero b = true →
      mul f a b = some (f.zero s) ∧ div f a b = some (f.inf s)) ∧
    (finite a → finite b → f.isZero a = false → f.isZero b = false →
      mul f a b = some (f.pack s (f.roundRatio (f.units a * f.units b) (2 ^ f.unitExp))) ∧
      div f a b = some (f.pack s (f.roundRatio (f.units a * 2 ^ f.unitExp) (f.units b)))) ∧
    (f.isNaN a = true → sqrt f a = none) ∧
    (f.isZero a = true → sqrt f a = some (f.zero (f.sign a))) ∧
    (f.isNaN a = false → f.isZero a = false → f.sign a = true → sqrt f a = none) ∧
    (f.isInf a = true → f.sign a = false → sqrt f a = some (f.inf false))

/-- In the default primitives sum and product do not depend on the order of the two operands, and so the dot product is
symmetric, up to the bits of a NaN (R212, R222 b, c). -/
def Obligations.SumsAndProductsCommute : Prop :=
  ∀ f : Fmt,
    (∀ a b : Word, Primitives.ieee.fadd f a b = Primitives.ieee.fadd f b a ∧
      Primitives.ieee.fmul f a b = Primitives.ieee.fmul f b a) ∧
    ∀ as bs : List Word, as.length = bs.length → dotValue f as bs = dotValue f bs as

/-- R179: `cvt` and, in the default primitives, the reciprocals of 1 to 16 in the three formats, as the table has them; `cvt` is
exact. -/
def Obligations.ReciprocalTable : Prop :=
  ((List.range 16).map fun n => (cvt .half (n + 1), Primitives.ieee.fdiv .half Fmt.half.one (cvt .half (n + 1)))) =
    [(0x3C00, some 0x3C00), (0x4000, some 0x3800), (0x4200, some 0x3555), (0x4400, some 0x3400),
     (0x4500, some 0x3266), (0x4600, some 0x3155), (0x4700, some 0x3092), (0x4800, some 0x3000),
     (0x4880, some 0x2F1C), (0x4900, some 0x2E66), (0x4980, some 0x2DD1), (0x4A00, some 0x2D55),
     (0x4A80, some 0x2CEC), (0x4B00, some 0x2C92), (0x4B80, some 0x2C44), (0x4C00, some 0x2C00)] ∧
  ((List.range 16).map fun n => (cvt .single (n + 1), Primitives.ieee.fdiv .single Fmt.single.one (cvt .single (n + 1)))) =
    [(0x3F800000, some 0x3F800000), (0x40000000, some 0x3F000000), (0x40400000, some 0x3EAAAAAB),
     (0x40800000, some 0x3E800000), (0x40A00000, some 0x3E4CCCCD), (0x40C00000, some 0x3E2AAAAB),
     (0x40E00000, some 0x3E124925), (0x41000000, some 0x3E000000), (0x41100000, some 0x3DE38E39),
     (0x41200000, some 0x3DCCCCCD), (0x41300000, some 0x3DBA2E8C), (0x41400000, some 0x3DAAAAAB),
     (0x41500000, some 0x3D9D89D9), (0x41600000, some 0x3D924925), (0x41700000, some 0x3D888889),
     (0x41800000, some 0x3D800000)] ∧
  ((List.range 16).map fun n => (cvt .double (n + 1), Primitives.ieee.fdiv .double Fmt.double.one (cvt .double (n + 1)))) =
    [(0x3FF0000000000000, some 0x3FF0000000000000), (0x4000000000000000, some 0x3FE0000000000000),
     (0x4008000000000000, some 0x3FD5555555555555), (0x4010000000000000, some 0x3FD0000000000000),
     (0x4014000000000000, some 0x3FC999999999999A), (0x4018000000000000, some 0x3FC5555555555555),
     (0x401C000000000000, some 0x3FC2492492492492), (0x4020000000000000, some 0x3FC0000000000000),
     (0x4022000000000000, some 0x3FBC71C71C71C71C), (0x4024000000000000, some 0x3FB999999999999A),
     (0x4026000000000000, some 0x3FB745D1745D1746), (0x4028000000000000, some 0x3FB5555555555555),
     (0x402A000000000000, some 0x3FB3B13B13B13B14), (0x402C000000000000, some 0x3FB2492492492492),
     (0x402E000000000000, some 0x3FB1111111111111), (0x4030000000000000, some 0x3FB0000000000000)] ∧
  ∀ (f : Fmt) (n : Nat), 1 ≤ n → n ≤ 16 → f.value (cvt f n) = (n : Int) * 2 ^ f.unitExp

/-- R170: the record after reset is the default one, and the primitives of every record see of an operand its pattern only and
answer with a pattern of the format, or with "a NaN" (how other records stand in the model is its choice, log 7). R176: where a
result is "a NaN", the pattern written is a NaN of the format, for every value of the free draw, and every NaN of the format is
written for some value of it; the draws are used one after another (log 8). -/
def Obligations.NanResults : Prop :=
  State.reset.params.primitives = .ieee ∧
  (∀ (p : Primitives) (f : Fmt) (a b : Word),
    p.fadd f a b = p.fadd f (f.pattern a) (f.pattern b) ∧ p.fmul f a b = p.fmul f (f.pattern a) (f.pattern b) ∧
    p.fdiv f a b = p.fdiv f (f.pattern a) (f.pattern b) ∧ p.fsqrt f a = p.fsqrt f (f.pattern a) ∧
    ∀ w : Word, some w ∈ [p.fadd f a b, p.fmul f a b, p.fdiv f a b, p.fsqrt f a] → w.toNat < 2 ^ f.width) ∧
  ∀ f : Fmt,
    (∀ raw : Word, f.isNaN (f.nanOf raw) = true ∧ (f.nanOf raw).toNat < 2 ^ f.width) ∧
    (∀ w : Word, w.toNat < 2 ^ f.width → f.isNaN w = true → ∃ raw : Word, f.nanOf raw = w) ∧
    ∀ draws : Nat, (settle f none draws).2 = draws + 1 ∧ f.isNaN (settle f none draws).1 = true ∧
      ∀ w : Word, settle f (some w) draws = (w, draws)

/-- R178: `fabs` clears the sign bit; `feq`, `flt`, `fle` are false with a NaN; else `feq` is equality of patterns or of zeros, and
`flt` and `fle` compare values, an infinity lying beyond every finite one; non-negative patterns compare as numbers (R160). -/
def Obligations.Comparisons : Prop :=
  ∀ (f : Fmt) (a b : Word), a.toNat < 2 ^ f.width → b.toNat < 2 ^ f.width →
    (fabs f a).toNat = a.toNat % 2 ^ (f.width - 1) ∧
    (f.isNaN a = true ∨ f.isNaN b = true → feq f a b = false ∧ flt f a b = false ∧ fle f a b = false) ∧
    (f.isNaN a = false → f.isNaN b = false →
      (feq f a b = true ↔ (f.isZero a = true ∧ f.isZero b = true) ∨ a = b) ∧
      (flt f a b = true ↔ f.value a < f.value b) ∧ (fle f a b = true ↔ f.value a ≤ f.value b) ∧
      (f.isInf b = true → f.sign b = false → (f.isInf a = true ∧ f.sign a = false) ∨ f.value a < f.value b) ∧
      (f.isInf b = true → f.sign b = true → (f.isInf a = true ∧ f.sign a = true) ∨ f.value b < f.value a) ∧
      (f.sign a = false → f.sign b = false → (flt f a b = true ↔ a.toNat < b.toNat)))
end

