-- ==== Sys2Proof/Laws/Decode.lean ====
section
/-! SUPPORT. The fields of a packed word are the fields it was packed from (R67, R68). -/

namespace Sys2Proof

theorem packR_toNat {op fmt imm : Nat} (d a b : Fin 16) (ho : op < 256) (hf : fmt < 4) (hi : imm < 1024) :
    (packR op fmt d a b imm).toNat =
      op * 2 ^ 24 + fmt * 2 ^ 22 + d.val * 2 ^ 18 + a.val * 2 ^ 14 + b.val * 2 ^ 10 + imm := by
  simp only [packR, BitVec.toNat_ofNat]
  omega

theorem packM_toNat {op : Nat} (d : VReg) (mask : BitVec 16) (ho : op < 256) :
    (packM op d mask).toNat = op * 2 ^ 24 + d.val * 2 ^ 18 + mask.toNat := by
  have := mask.isLt
  simp only [packM, BitVec.toNat_ofNat]
  omega

/-- Every field of a format R word (R67). -/
theorem packR_fields {op fmt imm : Nat} (d a b : Fin 16) (ho : op < 256) (hf : fmt < 4) (hi : imm < 1024) :
    bitField (packR op fmt d a b imm) 31 24 = op ∧ bitField (packR op fmt d a b imm) 23 22 = fmt ∧
      regField (packR op fmt d a b imm) 18 = d ∧ regField (packR op fmt d a b imm) 14 = a ∧
      regField (packR op fmt d a b imm) 10 = b ∧ bitField (packR op fmt d a b imm) 9 0 = imm := by
  simp only [regField, bitField, packR_toNat d a b ho hf hi, Fin.ext_iff, Fin.ofNat]
  omega

/-- Every field of a format M word (R68). -/
theorem packM_fields {op : Nat} (d : VReg) (mask : BitVec 16) (ho : op < 256) :
    bitField (packM op d mask) 31 24 = op ∧ bitField (packM op d mask) 23 22 = 0 ∧
      regField (packM op d mask) 18 = d ∧ bitField (packM op d mask) 17 16 = 0 ∧
      bitField (packM op d mask) 15 0 = mask.toNat := by
  have := mask.isLt
  simp only [regField, bitField, packM_toNat d mask ho, Fin.ext_iff, Fin.ofNat]
  omega

/-- A decode succeeds only when its must-be-zero fields are zero (R73). -/
theorem need_eq_ok {c : Bool} {i j : Instr} : need c i = .ok j ↔ c = true ∧ i = j := by
  unfold need
  split <;> simp [*]

/-- A word is made of its six fields (R67). -/
theorem word_toNat_eq (w : CmdWord) :
    w.toNat = bitField w 31 24 * 2 ^ 24 + bitField w 23 22 * 2 ^ 22 + (regField w 18).val * 2 ^ 18 +
      (regField w 14).val * 2 ^ 14 + (regField w 10).val * 2 ^ 10 + bitField w 9 0 := by
  have := w.isLt
  simp only [regField, bitField, Fin.ofNat]
  omega

end Sys2Proof
end

