-- ==== Sys2Proof/Laws/Float.lean ====
section
/-! SUPPORT. The small lemmas of the floating-point definitions: field sizes, patterns and their fields, what each primitive can
answer. -/

namespace Sys2Proof

/-! ## Field sizes (R140) -/

theorem Fmt.width_eq (f : Fmt) : f.width = f.fracBits + f.expBits + 1 := by cases f <;> rfl

theorem Fmt.width_le (f : Fmt) : f.width ≤ 64 := by cases f <;> decide

theorem Fmt.infBits_lt (f : Fmt) : f.infBits + 2 ^ f.fracBits ≤ 2 ^ (f.width - 1) := by
  cases f <;> decide

theorem Fmt.expField_lt (f : Fmt) (v : Word) : f.expField v < 2 ^ f.expBits := Nat.mod_lt _ (by positivity)

theorem Fmt.fracField_lt (f : Fmt) (v : Word) : f.fracField v < 2 ^ f.fracBits := Nat.mod_lt _ (by positivity)

theorem Fmt.expField_le (f : Fmt) (v : Word) : f.expField v ≤ f.emax := by
  have := f.expField_lt v
  unfold Fmt.emax
  omega

/-- Only the low `W` bits of a container are its pattern (R22). -/
theorem Fmt.pattern_toNat (f : Fmt) (v : Word) : (f.pattern v).toNat = v.toNat % 2 ^ f.width := by
  have h1 : v.toNat % 2 ^ f.width < 2 ^ f.width := Nat.mod_lt _ (by positivity)
  have h2 : 2 ^ f.width ≤ 2 ^ 64 := Nat.pow_le_pow_right (by decide) f.width_le
  simp only [Fmt.pattern, BitVec.toNat_ofNat]
  exact Nat.mod_eq_of_lt (lt_of_lt_of_le h1 h2)

theorem Fmt.pattern_lt (f : Fmt) (v : Word) : (f.pattern v).toNat < 2 ^ f.width := by
  rw [f.pattern_toNat]
  exact Nat.mod_lt _ (by positivity)

/-! ## A packed pattern and its fields -/

theorem Fmt.pack_toNat (f : Fmt) (neg : Bool) {m : Nat} (h : m < 2 ^ (f.width - 1)) :
    (f.pack neg m).toNat = (if neg then 2 ^ (f.width - 1) else 0) + m := by
  have h2 : 2 ^ (f.width - 1) + 2 ^ (f.width - 1) ≤ 2 ^ 64 := by cases f <;> decide
  simp only [Fmt.pack, BitVec.toNat_ofNat]
  apply Nat.mod_eq_of_lt
  split <;> omega

theorem Fmt.pack_lt (f : Fmt) (neg : Bool) {m : Nat} (h : m < 2 ^ (f.width - 1)) :
    (f.pack neg m).toNat < 2 ^ f.width := by
  rw [f.pack_toNat neg h]
  have : 2 ^ f.width = 2 ^ (f.width - 1) + 2 ^ (f.width - 1) := by cases f <;> decide
  split <;> omega

theorem Fmt.fracField_pack (f : Fmt) (neg : Bool) {m : Nat} (h : m < 2 ^ (f.width - 1)) :
    f.fracField (f.pack neg m) = m % 2 ^ f.fracBits := by
  rw [Fmt.fracField, f.pack_toNat neg h]
  cases f <;> simp only [Fmt.width, Fmt.fracBits] at * <;> split <;> omega

theorem Fmt.expField_pack (f : Fmt) (neg : Bool) {m : Nat} (h : m < 2 ^ (f.width - 1)) :
    f.expField (f.pack neg m) = m / 2 ^ f.fracBits := by
  rw [Fmt.expField, f.pack_toNat neg h]
  cases f <;> simp only [Fmt.width, Fmt.fracBits, Fmt.expBits] at * <;> split <;> omega

theorem Fmt.sign_pack (f : Fmt) (neg : Bool) {m : Nat} (h : m < 2 ^ (f.width - 1)) :
    f.sign (f.pack neg m) = neg := by
  rw [Fmt.sign, ← BitVec.testBit_toNat, f.pack_toNat neg h, Nat.testBit_eq_decide_div_mod_eq]
  cases f <;> simp only [Fmt.width] at * <;> cases neg <;> simp <;> omega

/-! ## Rounding -/

theorem Fmt.binadeBits_le (f : Fmt) (k q : Nat) : f.binadeBits k q ≤ f.infBits := Nat.min_le_right _ _

theorem Fmt.roundRatio_le (f : Fmt) (num den : Nat) : f.roundRatio num den ≤ f.infBits := f.binadeBits_le _ _

theorem Fmt.roundSqrt_le (f : Fmt) (x : Nat) : f.roundSqrt x ≤ f.infBits := f.binadeBits_le _ _

theorem Fmt.lt_of_le_infBits (f : Fmt) {m : Nat} (h : m ≤ f.infBits) : m < 2 ^ (f.width - 1) := by
  have h1 := f.infBits_lt
  have h2 : 0 < 2 ^ f.fracBits := by positivity
  omega

/-! ## What each primitive can answer: a pattern of the format, or "a NaN" -/

/-- A result that is a number or an infinity: a sign and magnitude bits up to those of infinity. -/
def IsPacked (f : Fmt) (w : Word) : Prop := ∃ neg m, m ≤ f.infBits ∧ w = f.pack neg m

theorem isPacked_zero (f : Fmt) (neg : Bool) : IsPacked f (f.zero neg) := ⟨neg, 0, Nat.zero_le _, rfl⟩

theorem isPacked_inf (f : Fmt) (neg : Bool) : IsPacked f (f.inf neg) := ⟨neg, _, Nat.le_refl _, rfl⟩

theorem isPacked_ratio (f : Fmt) (neg : Bool) (n d : Nat) : IsPacked f (f.pack neg (f.roundRatio n d)) :=
  ⟨neg, _, f.roundRatio_le n d, rfl⟩

theorem isPacked_sqrt (f : Fmt) (x : Nat) : IsPacked f (f.pack false (f.roundSqrt x)) :=
  ⟨false, _, f.roundSqrt_le x, rfl⟩

theorem IsPacked.lt {f : Fmt} {w : Word} (h : IsPacked f w) : w.toNat < 2 ^ f.width := by
  obtain ⟨neg, m, hm, rfl⟩ := h
  exact f.pack_lt neg (f.lt_of_le_infBits hm)

theorem faddVal_packed {f : Fmt} {a b w : Word} (h : faddVal f a b = some w) : IsPacked f w := by
  unfold faddVal at h
  dsimp only at h
  split at h
  · simp at h
  split at h
  · split at h
    · split at h
      · simp at h; exact h ▸ isPacked_inf f _
      · simp at h
    · simp at h; exact h ▸ isPacked_inf f _
  split at h
  · simp at h; exact h ▸ isPacked_inf f _
  split at h
  · simp at h; exact h ▸ isPacked_zero f _
  split at h
  · simp at h; exact h ▸ isPacked_zero f _
  · simp at h; exact h ▸ isPacked_ratio f _ _ _

theorem fmulVal_packed {f : Fmt} {a b w : Word} (h : fmulVal f a b = some w) : IsPacked f w := by
  unfold fmulVal at h
  dsimp only at h
  split at h
  · simp at h
  split at h
  · simp at h
  split at h
  · simp at h; exact h ▸ isPacked_inf f _
  split at h
  · simp at h; exact h ▸ isPacked_zero f _
  · simp at h; exact h ▸ isPacked_ratio f _ _ _

theorem fdivVal_packed {f : Fmt} {a b w : Word} (h : fdivVal f a b = some w) : IsPacked f w := by
  unfold fdivVal at h
  dsimp only at h
  split at h
  · simp at h
  split at h
  · split at h
    · simp at h
    · simp at h; exact h ▸ isPacked_inf f _
  split at h
  · simp at h; exact h ▸ isPacked_zero f _
  split at h
  · split at h
    · simp at h
    · simp at h; exact h ▸ isPacked_inf f _
  split at h
  · simp at h; exact h ▸ isPacked_zero f _
  · simp at h; exact h ▸ isPacked_ratio f _ _ _

theorem fsqrtVal_packed {f : Fmt} {a w : Word} (h : fsqrtVal f a = some w) : IsPacked f w := by
  unfold fsqrtVal at h
  split at h
  · simp at h
  split at h
  · simp at h; exact h ▸ isPacked_zero f _
  split at h
  · simp at h
  split at h
  · simp at h; exact h ▸ isPacked_inf f _
  · simp at h; exact h ▸ isPacked_sqrt f _

/-- A sum of two patterns that are neither NaN nor infinite is not a NaN (R173). -/
theorem faddVal_ne_none {f : Fmt} {a b : Word} (ha : f.expField a ≠ f.emax) (hb : f.expField b ≠ f.emax) :
    faddVal f a b ≠ none := by
  simp only [faddVal, Fmt.isNaN, Fmt.isInf, beq_false_of_ne ha, beq_false_of_ne hb]
  simp
  split
  · simp
  · split <;> simp

/-! ## NaN draws (R176) -/

theorem Fmt.nanOf_bits_lt (f : Fmt) (raw : Word) :
    f.infBits + (if f.fracField raw = 0 then 1 else f.fracField raw) < 2 ^ (f.width - 1) := by
  have h1 := f.infBits_lt
  have h2 := f.fracField_lt raw
  have h3 : 2 ≤ 2 ^ f.fracBits := by cases f <;> decide
  split <;> omega

/-- Whatever the draw, the result is a pattern of the format. -/
theorem Fmt.nanOf_lt (f : Fmt) (raw : Word) : (f.nanOf raw).toNat < 2 ^ f.width := f.pack_lt _ (f.nanOf_bits_lt raw)

@[simp] theorem settle_some (f : Fmt) (w : Word) (k : Nat) : settle f (some w) k = (w, k) := rfl

@[simp] theorem settle_none (f : Fmt) (k : Nat) : settle f none k = (f.nanOf (Config.nanDraw k), k + 1) := rfl

/-- A settled result is a pattern of the format. -/
theorem settle_lt {f : Fmt} {r : Option Word} (k : Nat) (h : ∀ w, r = some w → w.toNat < 2 ^ f.width) :
    (settle f r k).1.toNat < 2 ^ f.width := by
  cases r with
  | none => exact f.nanOf_lt _
  | some w => exact h w rfl

/-! ## The record of primitives (R170) -/

@[simp] theorem Primitives.fadd_ieee : Primitives.ieee.fadd = faddVal := rfl

@[simp] theorem Primitives.fmul_ieee : Primitives.ieee.fmul = fmulVal := rfl

@[simp] theorem Primitives.fdiv_ieee : Primitives.ieee.fdiv = fdivVal := rfl

@[simp] theorem Primitives.fsqrt_ieee : Primitives.ieee.fsqrt = fsqrtVal := rfl

theorem Fmt.lt_of_map_pattern {f : Fmt} {r : Option Word} {w : Word} (h : r.map f.pattern = some w) :
    w.toNat < 2 ^ f.width := by
  obtain ⟨v, -, rfl⟩ := Option.map_eq_some_iff.1 h
  exact f.pattern_lt v

/-- Whatever the record, a result of `fadd_W` is a pattern of the format. -/
theorem Primitives.fadd_lt {p : Primitives} {f : Fmt} {a b w : Word} (h : p.fadd f a b = some w) : w.toNat < 2 ^ f.width := by
  cases p with
  | ieee => exact (faddVal_packed h).lt
  | other n => exact Fmt.lt_of_map_pattern h

theorem Primitives.fmul_lt {p : Primitives} {f : Fmt} {a b w : Word} (h : p.fmul f a b = some w) : w.toNat < 2 ^ f.width := by
  cases p with
  | ieee => exact (fmulVal_packed h).lt
  | other n => exact Fmt.lt_of_map_pattern h

theorem Primitives.fdiv_lt {p : Primitives} {f : Fmt} {a b w : Word} (h : p.fdiv f a b = some w) : w.toNat < 2 ^ f.width := by
  cases p with
  | ieee => exact (fdivVal_packed h).lt
  | other n => exact Fmt.lt_of_map_pattern h

theorem Primitives.fsqrt_lt {p : Primitives} {f : Fmt} {a w : Word} (h : p.fsqrt f a = some w) : w.toNat < 2 ^ f.width := by
  cases p with
  | ieee => exact (fsqrtVal_packed h).lt
  | other n => exact Fmt.lt_of_map_pattern h

theorem fadd_lt (p : Primitives) (f : Fmt) (a b : Word) (k : Nat) : (fadd p f a b k).1.toNat < 2 ^ f.width :=
  settle_lt k fun _ => Primitives.fadd_lt

theorem fmul_lt (p : Primitives) (f : Fmt) (a b : Word) (k : Nat) : (fmul p f a b k).1.toNat < 2 ^ f.width :=
  settle_lt k fun _ => Primitives.fmul_lt

theorem fdiv_lt (p : Primitives) (f : Fmt) (a b : Word) (k : Nat) : (fdiv p f a b k).1.toNat < 2 ^ f.width :=
  settle_lt k fun _ => Primitives.fdiv_lt

theorem fsqrt_lt (p : Primitives) (f : Fmt) (a : Word) (k : Nat) : (fsqrt p f a k).1.toNat < 2 ^ f.width :=
  settle_lt k fun _ => Primitives.fsqrt_lt

/-! ## NaNs and the absolute value (R178) -/

theorem fabs_getLsbD (f : Fmt) (a : Word) (i : Nat) : (fabs f a).getLsbD i = (a.getLsbD i && decide (i ≠ f.width - 1)) := by
  by_cases hi : i < 64
  · have : f.signMask.getLsbD i = decide (f.width - 1 = i) := by
      rw [Fmt.signMask, BitVec.getLsbD_ofNat, Nat.testBit_two_pow, decide_eq_true hi, Bool.true_and]
    simp only [fabs, BitVec.getLsbD_and, BitVec.getLsbD_not, this, hi, decide_true, Bool.true_and]
    simp [eq_comm]
  · simp [BitVec.getLsbD_of_ge _ _ (not_lt.1 hi)]

theorem Fmt.expField_fabs (f : Fmt) (a : Word) : f.expField (fabs f a) = f.expField a := by
  apply Nat.eq_of_testBit_eq
  intro i
  simp only [Fmt.expField, Nat.testBit_mod_two_pow, Nat.testBit_div_two_pow, BitVec.testBit_toNat, fabs_getLsbD]
  by_cases hi : i < f.expBits
  · have : i + f.fracBits ≠ f.width - 1 := by have := f.width_eq; omega
    simp [hi, this]
  · simp [hi]

theorem Fmt.fracField_fabs (f : Fmt) (a : Word) : f.fracField (fabs f a) = f.fracField a := by
  apply Nat.eq_of_testBit_eq
  intro i
  simp only [Fmt.fracField, Nat.testBit_mod_two_pow, BitVec.testBit_toNat, fabs_getLsbD]
  by_cases hi : i < f.fracBits
  · have : i ≠ f.width - 1 := by
      have h1 := f.width_eq
      have h2 : 0 < f.expBits := by cases f <;> decide
      omega
    simp [hi, this]
  · simp [hi]

@[simp] theorem Fmt.isNaN_fabs (f : Fmt) (a : Word) : f.isNaN (fabs f a) = f.isNaN a := by
  simp [Fmt.isNaN, f.expField_fabs, f.fracField_fabs]

/-- What a draw gives is a NaN (R176). -/
@[simp] theorem Fmt.isNaN_nanOf (f : Fmt) (raw : Word) : f.isNaN (f.nanOf raw) = true := by
  have hb := f.nanOf_bits_lt raw
  obtain ⟨c, hc, h0, h1⟩ : ∃ c, (if f.fracField raw = 0 then 1 else f.fracField raw) = c ∧ c ≠ 0 ∧ c < 2 ^ f.fracBits := by
    have hf := f.fracField_lt raw
    have : 1 < 2 ^ f.fracBits := by cases f <;> decide
    exact ⟨_, rfl, by split <;> omega, by split <;> omega⟩
  have hp : 0 < 2 ^ f.fracBits := by omega
  rw [Fmt.nanOf]
  rw [hc] at hb ⊢
  simp only [Fmt.isNaN, f.expField_pack _ hb, f.fracField_pack _ hb, Bool.and_eq_true, beq_iff_eq, bne_iff_ne]
  rw [Fmt.infBits]
  constructor
  · rw [Nat.add_comm, Nat.add_mul_div_right _ _ hp, Nat.div_eq_of_lt h1, Nat.zero_add]
  · rw [Nat.add_comm, Nat.add_mul_mod_self_right, Nat.mod_eq_of_lt h1]; exact h0

/-! ## Lists of elements -/

theorem mulElems_length (p : Primitives) (f : Fmt) (as bs : List Word) (k : Nat) (h : as.length = bs.length) :
    (mulElems p f as bs k).1.length = as.length := by
  induction as generalizing bs k with
  | nil => simp [mulElems]
  | cons a as ih =>
    cases bs with
    | nil => simp at h
    | cons b bs => simp at h; simp [mulElems, ih bs _ h]

theorem sumsFrom_length (p : Primitives) (f : Fmt) (ms : List (List Word)) (n j k : Nat) : (sumsFrom p f ms n j k).1.length = n := by
  induction n generalizing j k with
  | zero => rfl
  | succ n ih => simp [sumsFrom, ih]

theorem scaleElems_length (p : Primitives) (f : Fmt) (r : Word) (as : List Word) (k : Nat) :
    (scaleElems p f r as k).1.length = as.length := by
  induction as generalizing k with
  | nil => rfl
  | cons a as ih => simp [scaleElems, ih]

theorem aggregate_length (p : Primitives) (f : Fmt) (ms : List (List Word)) (n k : Nat) : (aggregate p f ms n k).1.length = n := by
  simp [aggregate, scaleElems_length, sumsFrom_length]

theorem rotlElems_length (as : List Word) : (rotlElems as).length = as.length := by
  cases as <;> simp [rotlElems]

theorem rotrElems_length (as : List Word) : (rotrElems as).length = as.length := by
  unfold rotrElems
  split
  · rename_i h; rw [List.getLast?_eq_none_iff] at h; simp [h]
  · rename_i last h
    have : as ≠ [] := by rintro rfl; simp at h
    have := List.length_pos_iff.2 this
    simp; omega

end Sys2Proof
end

