-- ==== Sys2Proof/Laws/State.lean ====
section
/-! SUPPORT. What each update of the state leaves in each field, and register reads after register writes. -/

namespace Sys2Proof.Machine

variable (s : State)

@[simp] theorem State.setX_x (r : SReg) (w : Word) : (s.setX r w).x = s.x.set r w := rfl
@[simp] theorem State.setX_v (r : SReg) (w : Word) : (s.setX r w).v = s.v := rfl
@[simp] theorem State.setX_gen (r : SReg) (w : Word) : (s.setX r w).gen = s.gen := rfl
@[simp] theorem State.setX_ferr (r : SReg) (w : Word) : (s.setX r w).ferr = s.ferr := rfl
@[simp] theorem State.setX_fcmd (r : SReg) (w : Word) : (s.setX r w).fcmd = s.fcmd := rfl
@[simp] theorem State.setX_cmdcnt (r : SReg) (w : Word) : (s.setX r w).cmdcnt = s.cmdcnt := rfl
@[simp] theorem State.setX_hung (r : SReg) (w : Word) : (s.setX r w).hung = s.hung := rfl
@[simp] theorem State.setX_cmdIn (r : SReg) (w : Word) : (s.setX r w).cmdIn = s.cmdIn := rfl
@[simp] theorem State.setX_rstIn (r : SReg) (w : Word) : (s.setX r w).rstIn = s.rstIn := rfl
@[simp] theorem State.setX_rspOut (r : SReg) (w : Word) : (s.setX r w).rspOut = s.rspOut := rfl
@[simp] theorem State.setX_params (r : SReg) (w : Word) : (s.setX r w).params = s.params := rfl
@[simp] theorem State.setX_nanDraws (r : SReg) (w : Word) : (s.setX r w).nanDraws = s.nanDraws := rfl

@[simp] theorem State.setV_x (r : VReg) (a : VecReg) : (s.setV r a).x = s.x := rfl
@[simp] theorem State.setV_v (r : VReg) (a : VecReg) : (s.setV r a).v = s.v.set r (some a) := rfl
@[simp] theorem State.setV_gen (r : VReg) (a : VecReg) : (s.setV r a).gen = s.gen := rfl
@[simp] theorem State.setV_ferr (r : VReg) (a : VecReg) : (s.setV r a).ferr = s.ferr := rfl
@[simp] theorem State.setV_fcmd (r : VReg) (a : VecReg) : (s.setV r a).fcmd = s.fcmd := rfl
@[simp] theorem State.setV_cmdcnt (r : VReg) (a : VecReg) : (s.setV r a).cmdcnt = s.cmdcnt := rfl
@[simp] theorem State.setV_hung (r : VReg) (a : VecReg) : (s.setV r a).hung = s.hung := rfl
@[simp] theorem State.setV_cmdIn (r : VReg) (a : VecReg) : (s.setV r a).cmdIn = s.cmdIn := rfl
@[simp] theorem State.setV_rstIn (r : VReg) (a : VecReg) : (s.setV r a).rstIn = s.rstIn := rfl
@[simp] theorem State.setV_rspOut (r : VReg) (a : VecReg) : (s.setV r a).rspOut = s.rspOut := rfl
@[simp] theorem State.setV_params (r : VReg) (a : VecReg) : (s.setV r a).params = s.params := rfl
@[simp] theorem State.setV_nanDraws (r : VReg) (a : VecReg) : (s.setV r a).nanDraws = s.nanDraws := rfl

@[simp] theorem State.setGen_x (g : Gen) : (s.setGen g).x = s.x := rfl
@[simp] theorem State.setGen_v (g : Gen) : (s.setGen g).v = s.v := rfl
@[simp] theorem State.setGen_gen (g : Gen) : (s.setGen g).gen = g := rfl
@[simp] theorem State.setGen_ferr (g : Gen) : (s.setGen g).ferr = s.ferr := rfl
@[simp] theorem State.setGen_fcmd (g : Gen) : (s.setGen g).fcmd = s.fcmd := rfl
@[simp] theorem State.setGen_cmdcnt (g : Gen) : (s.setGen g).cmdcnt = s.cmdcnt := rfl
@[simp] theorem State.setGen_hung (g : Gen) : (s.setGen g).hung = s.hung := rfl
@[simp] theorem State.setGen_cmdIn (g : Gen) : (s.setGen g).cmdIn = s.cmdIn := rfl
@[simp] theorem State.setGen_rstIn (g : Gen) : (s.setGen g).rstIn = s.rstIn := rfl
@[simp] theorem State.setGen_rspOut (g : Gen) : (s.setGen g).rspOut = s.rspOut := rfl
@[simp] theorem State.setGen_params (g : Gen) : (s.setGen g).params = s.params := rfl
@[simp] theorem State.setGen_nanDraws (g : Gen) : (s.setGen g).nanDraws = s.nanDraws := rfl

@[simp] theorem State.setDraws_x (n : Nat) : (s.setDraws n).x = s.x := rfl
@[simp] theorem State.setDraws_v (n : Nat) : (s.setDraws n).v = s.v := rfl
@[simp] theorem State.setDraws_gen (n : Nat) : (s.setDraws n).gen = s.gen := rfl
@[simp] theorem State.setDraws_ferr (n : Nat) : (s.setDraws n).ferr = s.ferr := rfl
@[simp] theorem State.setDraws_fcmd (n : Nat) : (s.setDraws n).fcmd = s.fcmd := rfl
@[simp] theorem State.setDraws_cmdcnt (n : Nat) : (s.setDraws n).cmdcnt = s.cmdcnt := rfl
@[simp] theorem State.setDraws_hung (n : Nat) : (s.setDraws n).hung = s.hung := rfl
@[simp] theorem State.setDraws_cmdIn (n : Nat) : (s.setDraws n).cmdIn = s.cmdIn := rfl
@[simp] theorem State.setDraws_rstIn (n : Nat) : (s.setDraws n).rstIn = s.rstIn := rfl
@[simp] theorem State.setDraws_rspOut (n : Nat) : (s.setDraws n).rspOut = s.rspOut := rfl
@[simp] theorem State.setDraws_params (n : Nat) : (s.setDraws n).params = s.params := rfl
@[simp] theorem State.setDraws_nanDraws (n : Nat) : (s.setDraws n).nanDraws = n := rfl

@[simp] theorem State.respond_x (c : BitVec 8) (d : Word) : (s.respond c d).x = s.x := rfl
@[simp] theorem State.respond_v (c : BitVec 8) (d : Word) : (s.respond c d).v = s.v := rfl
@[simp] theorem State.respond_gen (c : BitVec 8) (d : Word) : (s.respond c d).gen = s.gen := rfl
@[simp] theorem State.respond_ferr (c : BitVec 8) (d : Word) : (s.respond c d).ferr = s.ferr := rfl
@[simp] theorem State.respond_fcmd (c : BitVec 8) (d : Word) : (s.respond c d).fcmd = s.fcmd := rfl
@[simp] theorem State.respond_cmdcnt (c : BitVec 8) (d : Word) : (s.respond c d).cmdcnt = s.cmdcnt + 1 := rfl
@[simp] theorem State.respond_hung (c : BitVec 8) (d : Word) : (s.respond c d).hung = s.hung := rfl
@[simp] theorem State.respond_cmdIn (c : BitVec 8) (d : Word) : (s.respond c d).cmdIn = s.cmdIn := rfl
@[simp] theorem State.respond_rstIn (c : BitVec 8) (d : Word) : (s.respond c d).rstIn = s.rstIn := rfl
@[simp] theorem State.respond_rspOut (c : BitVec 8) (d : Word) : (s.respond c d).rspOut = s.rspOut ++ [⟨c, d⟩] := rfl
@[simp] theorem State.respond_params (c : BitVec 8) (d : Word) : (s.respond c d).params = s.params := rfl
@[simp] theorem State.respond_nanDraws (c : BitVec 8) (d : Word) : (s.respond c d).nanDraws = s.nanDraws := rfl

@[simp] theorem State.hangUp_x : (s.hangUp).x = s.x := rfl
@[simp] theorem State.hangUp_v : (s.hangUp).v = s.v := rfl
@[simp] theorem State.hangUp_gen : (s.hangUp).gen = s.gen := rfl
@[simp] theorem State.hangUp_ferr : (s.hangUp).ferr = s.ferr := rfl
@[simp] theorem State.hangUp_fcmd : (s.hangUp).fcmd = s.fcmd := rfl
@[simp] theorem State.hangUp_cmdcnt : (s.hangUp).cmdcnt = s.cmdcnt := rfl
@[simp] theorem State.hangUp_hung : (s.hangUp).hung = true := rfl
@[simp] theorem State.hangUp_cmdIn : (s.hangUp).cmdIn = s.cmdIn := rfl
@[simp] theorem State.hangUp_rstIn : (s.hangUp).rstIn = s.rstIn := rfl
@[simp] theorem State.hangUp_rspOut : (s.hangUp).rspOut = s.rspOut := rfl
@[simp] theorem State.hangUp_params : (s.hangUp).params = s.params := rfl
@[simp] theorem State.hangUp_nanDraws : (s.hangUp).nanDraws = s.nanDraws := rfl

@[simp] theorem State.afterReset_x : (s.afterReset).x = Vector.replicate 16 0 := rfl
@[simp] theorem State.afterReset_v : (s.afterReset).v = Vector.replicate 16 none := rfl
@[simp] theorem State.afterReset_gen : (s.afterReset).gen = seedGen s.params.fillStoreFirst 0 := rfl
@[simp] theorem State.afterReset_ferr : (s.afterReset).ferr = 0 := rfl
@[simp] theorem State.afterReset_fcmd : (s.afterReset).fcmd = 0 := rfl
@[simp] theorem State.afterReset_cmdcnt : (s.afterReset).cmdcnt = 0 := rfl
@[simp] theorem State.afterReset_hung : (s.afterReset).hung = false := rfl
@[simp] theorem State.afterReset_cmdIn : (s.afterReset).cmdIn = s.cmdIn := rfl
@[simp] theorem State.afterReset_rstIn : (s.afterReset).rstIn = s.rstIn := rfl
@[simp] theorem State.afterReset_rspOut : (s.afterReset).rspOut = [] := rfl
@[simp] theorem State.afterReset_params : (s.afterReset).params = s.params := rfl
@[simp] theorem State.afterReset_nanDraws : (s.afterReset).nanDraws = s.nanDraws := rfl

/-! The fault record changes `ferr` and `fcmd` only, and only when no fault is recorded (R28, R243). -/

@[simp] theorem State.recordFault_x (w : CmdWord) (c : FaultCode) : (s.recordFault w c).x = s.x := by
  unfold State.recordFault; split <;> rfl
@[simp] theorem State.recordFault_v (w : CmdWord) (c : FaultCode) : (s.recordFault w c).v = s.v := by
  unfold State.recordFault; split <;> rfl
@[simp] theorem State.recordFault_gen (w : CmdWord) (c : FaultCode) : (s.recordFault w c).gen = s.gen := by
  unfold State.recordFault; split <;> rfl
@[simp] theorem State.recordFault_cmdcnt (w : CmdWord) (c : FaultCode) : (s.recordFault w c).cmdcnt = s.cmdcnt := by
  unfold State.recordFault; split <;> rfl
@[simp] theorem State.recordFault_hung (w : CmdWord) (c : FaultCode) : (s.recordFault w c).hung = s.hung := by
  unfold State.recordFault; split <;> rfl
@[simp] theorem State.recordFault_cmdIn (w : CmdWord) (c : FaultCode) : (s.recordFault w c).cmdIn = s.cmdIn := by
  unfold State.recordFault; split <;> rfl
@[simp] theorem State.recordFault_rstIn (w : CmdWord) (c : FaultCode) : (s.recordFault w c).rstIn = s.rstIn := by
  unfold State.recordFault; split <;> rfl
@[simp] theorem State.recordFault_rspOut (w : CmdWord) (c : FaultCode) : (s.recordFault w c).rspOut = s.rspOut := by
  unfold State.recordFault; split <;> rfl
@[simp] theorem State.recordFault_params (w : CmdWord) (c : FaultCode) : (s.recordFault w c).params = s.params := by
  unfold State.recordFault; split <;> rfl
@[simp] theorem State.recordFault_nanDraws (w : CmdWord) (c : FaultCode) : (s.recordFault w c).nanDraws = s.nanDraws := by
  unfold State.recordFault; split <;> rfl
theorem State.recordFault_ferr (w : CmdWord) (c : FaultCode) :
    (s.recordFault w c).ferr = if s.ferr = 0 then c.code else s.ferr := by
  unfold State.recordFault; split <;> rfl
theorem State.recordFault_fcmd (w : CmdWord) (c : FaultCode) :
    (s.recordFault w c).fcmd = if s.ferr = 0 then w else s.fcmd := by
  unfold State.recordFault; split <;> rfl

@[simp] theorem State.takeFault_x (w : CmdWord) (c : FaultCode) : (s.takeFault w c).x = s.x := by
  simp [State.takeFault]
@[simp] theorem State.takeFault_v (w : CmdWord) (c : FaultCode) : (s.takeFault w c).v = s.v := by
  simp [State.takeFault]
@[simp] theorem State.takeFault_gen (w : CmdWord) (c : FaultCode) : (s.takeFault w c).gen = s.gen := by
  simp [State.takeFault]
@[simp] theorem State.takeFault_cmdcnt (w : CmdWord) (c : FaultCode) : (s.takeFault w c).cmdcnt = s.cmdcnt + 1 := by
  simp [State.takeFault]
@[simp] theorem State.takeFault_hung (w : CmdWord) (c : FaultCode) : (s.takeFault w c).hung = s.hung := by
  simp [State.takeFault]
@[simp] theorem State.takeFault_cmdIn (w : CmdWord) (c : FaultCode) : (s.takeFault w c).cmdIn = s.cmdIn := by
  simp [State.takeFault]
@[simp] theorem State.takeFault_rstIn (w : CmdWord) (c : FaultCode) : (s.takeFault w c).rstIn = s.rstIn := by
  simp [State.takeFault]
@[simp] theorem State.takeFault_rspOut (w : CmdWord) (c : FaultCode) : (s.takeFault w c).rspOut = s.rspOut ++ [⟨c.code, 0⟩] := by
  simp [State.takeFault]
@[simp] theorem State.takeFault_params (w : CmdWord) (c : FaultCode) : (s.takeFault w c).params = s.params := by
  simp [State.takeFault]
@[simp] theorem State.takeFault_nanDraws (w : CmdWord) (c : FaultCode) : (s.takeFault w c).nanDraws = s.nanDraws := by
  simp [State.takeFault]
theorem State.takeFault_ferr (w : CmdWord) (c : FaultCode) :
    (s.takeFault w c).ferr = if s.ferr = 0 then c.code else s.ferr := by
  simp [State.takeFault, State.recordFault_ferr]
theorem State.takeFault_fcmd (w : CmdWord) (c : FaultCode) :
    (s.takeFault w c).fcmd = if s.ferr = 0 then w else s.fcmd := by
  simp [State.takeFault, State.recordFault_fcmd]

/-! Register reads after register writes. -/

@[simp] theorem State.getX_setX_same (r : SReg) (w : Word) : (s.setX r w).getX r = w := by
  simp [State.getX, State.setX]

theorem State.getX_setX_other {r q : SReg} (w : Word) (h : q ≠ r) : (s.setX r w).getX q = s.getX q := by
  have : r.val ≠ q.val := fun e => h (Fin.ext e.symm)
  simp [State.getX, State.setX, this]

@[simp] theorem State.getV_setV_same (r : VReg) (a : VecReg) : (s.setV r a).getV r = some a := by
  simp [State.getV, State.setV]

theorem State.getV_setV_other {r q : VReg} (a : VecReg) (h : q ≠ r) : (s.setV r a).getV q = s.getV q := by
  have : r.val ≠ q.val := fun e => h (Fin.ext e.symm)
  simp [State.getV, State.setV, this]

@[simp] theorem State.getV_setX (q : VReg) (r : SReg) (w : Word) : (s.setX r w).getV q = s.getV q := rfl
@[simp] theorem State.getX_setV (q : SReg) (r : VReg) (a : VecReg) : (s.setV r a).getX q = s.getX q := rfl
@[simp] theorem State.getX_setGen (q : SReg) (g : Gen) : (s.setGen g).getX q = s.getX q := rfl
@[simp] theorem State.getV_setGen (q : VReg) (g : Gen) : (s.setGen g).getV q = s.getV q := rfl
@[simp] theorem State.getX_setDraws (q : SReg) (n : Nat) : (s.setDraws n).getX q = s.getX q := rfl
@[simp] theorem State.getV_setDraws (q : VReg) (n : Nat) : (s.setDraws n).getV q = s.getV q := rfl
@[simp] theorem State.getX_respond (q : SReg) (c : BitVec 8) (d : Word) : (s.respond c d).getX q = s.getX q := rfl
@[simp] theorem State.getV_respond (q : VReg) (c : BitVec 8) (d : Word) : (s.respond c d).getV q = s.getV q := rfl
@[simp] theorem State.getX_hangUp (q : SReg) : (s.hangUp).getX q = s.getX q := rfl
@[simp] theorem State.getV_hangUp (q : VReg) : (s.hangUp).getV q = s.getV q := rfl
@[simp] theorem State.getX_takeFault (q : SReg) (w : CmdWord) (c : FaultCode) : (s.takeFault w c).getX q = s.getX q := by
  simp [State.getX]
@[simp] theorem State.getV_takeFault (q : VReg) (w : CmdWord) (c : FaultCode) : (s.takeFault w c).getV q = s.getV q := by
  simp [State.getV]

end Sys2Proof.Machine
end

