-- ==== Sys2Proof/Laws/Ops.lean ====
section
/-! SUPPORT. For each shared operation, once, everything it can do; and what a step can do. -/

namespace Sys2Proof.Machine

/-! ## How a command ends -/

@[simp] theorem finish_ok (i : Instr) (s t : State) (w : Word) : finish i s (.ok (t, w)) = .next (t.respond 0 w) := rfl

@[simp] theorem finish_done (i : Instr) (s t : State) : finish i s (done t) = .next (t.respond 0 0) := rfl

@[simp] theorem finish_fault (i : Instr) (s : State) (c : FaultCode) :
    finish i s (.error (.fault c)) = .next (s.takeFault (encodeWord i) c) := rfl

@[simp] theorem finish_raise (i : Instr) (s : State) (c : FaultCode) :
    finish i s (raise c) = .next (s.takeFault (encodeWord i) c) := rfl

@[simp] theorem finish_hang (i : Instr) (s : State) : finish i s (.error .hang) = .next s.hangUp := rfl

/-- A command ends in one of three ways: completed, faulted, hung. -/
theorem finish_cases (i : Instr) (s : State) (b : Body) :
    (∃ t w, b = .ok (t, w) ∧ finish i s b = .next (t.respond 0 w)) ∨
    (∃ c, b = raise c ∧ finish i s b = .next (s.takeFault (encodeWord i) c)) ∨
    (b = .error .hang ∧ finish i s b = .next s.hangUp) := by
  match b with
  | .ok (t, w) => exact .inl ⟨t, w, rfl, rfl⟩
  | .error (.fault c) => exact .inr (.inl ⟨c, rfl, rfl⟩)
  | .error .hang => exact .inr (.inr ⟨rfl, rfl⟩)

/-- A command always ends in a next state. -/
theorem finish_next (i : Instr) (s : State) (b : Body) : ∃ t, finish i s b = .next t := by
  rcases finish_cases i s b with ⟨t, w, -, h⟩ | ⟨c, -, h⟩ | ⟨-, h⟩ <;> exact ⟨_, h⟩

@[simp] theorem bind_ok_eq {ε α β : Type} (a : α) (k : α → Except ε β) : (Except.ok a >>= k) = k a := rfl

@[simp] theorem bind_error_eq {ε α β : Type} (e : ε) (k : α → Except ε β) : (Except.error e >>= k) = .error e := rfl

@[simp] theorem bind_raise_eq {α β : Type} (c : FaultCode) (k : α → Except Stop β) : (raise c >>= k) = raise c := rfl

@[simp] theorem raise_ne_ok {α : Type} (c : FaultCode) (a : α) : raise c = .ok a ↔ False := by
  simp [raise]

@[simp] theorem raise_inj {α : Type} (c d : FaultCode) : (raise c : Except Stop α) = raise d ↔ c = d := by
  simp [raise]

@[simp] theorem raise_ne_hang {α : Type} (c : FaultCode) : (raise c : Except Stop α) = .error .hang ↔ False := by
  simp [raise]

/-- What a sequence of checks answers with, it answers with after each part has answered. -/
theorem bind_eq_ok {ε α β : Type} {m : Except ε α} {k : α → Except ε β} {b : β} :
    (m >>= k) = .ok b ↔ ∃ a, m = .ok a ∧ k a = .ok b := by
  cases m <;> simp

/-! ## Codes -/

theorem FaultCode.code_ne_zero (c : FaultCode) : c.code ≠ 0 := by cases c <;> decide

theorem FaultCode.code_le (c : FaultCode) : c.code.toNat ≤ 13 := by cases c <;> decide

theorem FaultCode.code_inj {c d : FaultCode} (h : c.code = d.code) : c = d := by
  cases c <;> cases d <;> first | rfl | exact absurd h (by decide)

/-! ## Operand checks -/

theorem rotateCount_eq (width n : Nat) : rotateCount width n = if n < width then .ok n else raise .shift := by
  unfold rotateCount
  split <;> split <;> first | rfl | omega

theorem vecOperand_eq_ok {s : State} {r : VReg} {a : VecReg} : s.vecOperand r = .ok a ↔ s.getV r = some a := by
  unfold State.vecOperand
  cases s.getV r <;> simp

theorem vecOperand_some {s : State} {r : VReg} {a : VecReg} (h : s.getV r = some a) : s.vecOperand r = .ok a :=
  vecOperand_eq_ok.2 h

theorem vecOperand_none {s : State} {r : VReg} (h : s.getV r = none) : s.vecOperand r = raise .vinvalid := by
  simp [State.vecOperand, h]

theorem vecsOfOneFormat_eq_ok {s : State} {r1 r2 : VReg} {a b : VecReg} :
    s.vecsOfOneFormat r1 r2 = .ok (a, b) ↔ s.getV r1 = some a ∧ s.getV r2 = some b ∧ a.fmt = b.fmt := by
  unfold State.vecsOfOneFormat
  cases h1 : s.getV r1 with
  | none => simp [vecOperand_none h1]
  | some a' =>
    cases h2 : s.getV r2 with
    | none => simp [vecOperand_some h1, vecOperand_none h2]
    | some b' =>
      simp only [vecOperand_some h1, vecOperand_some h2, bind_ok_eq]
      split
      · rename_i h; simp; rintro rfl rfl; exact h
      · rename_i h; simp at h; simp; rintro rfl rfl; exact h

theorem compatibleVecs_eq_ok {s : State} {r1 r2 : VReg} {a b : VecReg} :
    s.compatibleVecs r1 r2 = .ok (a, b) ↔
      s.getV r1 = some a ∧ s.getV r2 = some b ∧ a.fmt = b.fmt ∧ a.len = b.len := by
  unfold State.compatibleVecs
  rw [bind_eq_ok]
  constructor
  · rintro ⟨⟨a', b'⟩, h, hk⟩
    have h := vecsOfOneFormat_eq_ok.1 h
    by_cases hl : a'.len = b'.len
    · simp [hl] at hk; obtain ⟨rfl, rfl⟩ := hk; exact ⟨h.1, h.2.1, h.2.2, hl⟩
    · simp [hl] at hk
  · rintro ⟨h1, h2, h3, h4⟩
    exact ⟨(a, b), vecsOfOneFormat_eq_ok.2 ⟨h1, h2, h3⟩, by simp [h4]⟩

theorem sizeOperand_eq_ok {s : State} {r : SReg} {n : Nat} :
    s.sizeOperand r = .ok n ↔ (s.getX r).toInt = n ∧ 1 ≤ n ∧ n ≤ s.params.vlmax := by
  unfold State.sizeOperand
  dsimp only
  split
  · simp only [raise_ne_ok, false_iff]; omega
  · split
    · simp only [raise_ne_ok, false_iff]; omega
    · simp only [Except.ok.injEq]; omega

theorem epsilonOperand_eq_ok {s : State} {f : Fmt} {r : SReg} {e : Word} :
    s.epsilonOperand f r = .ok e ↔ s.fpOperand f r = e ∧ epsilonValid f e = true := by
  unfold State.epsilonOperand
  split
  · simp only [Except.ok.injEq]; constructor
    · rintro rfl; exact ⟨rfl, by assumption⟩
    · exact fun h => h.1
  · simp only [raise_ne_ok, false_iff, not_and]; rintro rfl; assumption

theorem indexOperand_eq_ok {s : State} {a : VecReg} {r : SReg} {j : Nat} :
    s.indexOperand a r = .ok j ↔ (s.getX r).toNat = j ∧ j < a.len := by
  unfold State.indexOperand
  split
  · simp only [raise_ne_ok, false_iff]; omega
  · simp only [Except.ok.injEq]; omega

theorem vecsOf_eq_ok {s : State} {rs : List VReg} {as : List VecReg} :
    s.vecsOf rs = .ok as ↔ rs.map s.getV = as.map some := by
  induction rs generalizing as with
  | nil => cases as <;> simp [State.vecsOf]
  | cons r rs ih =>
    simp only [State.vecsOf, bind_eq_ok, vecOperand_eq_ok, ih]
    cases as with
    | nil => simp
    | cons a as => simp

theorem vecsOf_invalid {s : State} {rs : List VReg} (h : ∃ r ∈ rs, s.getV r = none) :
    s.vecsOf rs = raise .vinvalid := by
  induction rs with
  | nil => simp at h
  | cons r rs ih =>
    cases hr : s.getV r with
    | none => simp [State.vecsOf, vecOperand_none hr]
    | some a =>
      have : ∃ r ∈ rs, s.getV r = none := by simpa [hr] using h
      simp [State.vecsOf, vecOperand_some hr, ih this]

theorem membersAgree_eq_ok {ref : VecReg} {as : List VecReg} {u : Unit} :
    membersAgree ref as = .ok u ↔ (∀ a ∈ as, a.fmt = ref.fmt) ∧ ∀ a ∈ as, a.len = ref.len := by
  unfold membersAgree
  split
  · rename_i h; simp at h; simp only [raise_ne_ok, false_iff]; rintro ⟨h1, -⟩
    obtain ⟨a, ha, hn⟩ := h; exact hn (h1 a ha)
  · rename_i h1
    split
    · rename_i h; simp at h; simp only [raise_ne_ok, false_iff]; rintro ⟨-, h2⟩
      obtain ⟨a, ha, hn⟩ := h; exact hn (h2 a ha)
    · rename_i h2; simp at h1 h2; simp; exact ⟨h1, h2⟩

theorem mem_members {mask : BitVec 16} {r : VReg} : r ∈ members mask ↔ mask.getLsbD r.val = true := by
  have : r ∈ allVRegs := by revert r; decide
  simp [members, this]

/-- A collection has as many members as its mask has ones, at most 16; none exactly when the mask is 0. -/
theorem members_eq_nil {mask : BitVec 16} : members mask = [] ↔ mask = 0 := by
  constructor
  · intro h
    apply BitVec.eq_of_getLsbD_eq
    intro k hk
    have : (⟨k, hk⟩ : VReg) ∉ members mask := by simp [h]
    rw [mem_members] at this
    simpa using this
  · rintro rfl; decide

theorem collection_eq_ok {s : State} {mask : BitVec 16} {ref : VecReg} {as : List VecReg} :
    s.collection mask = .ok (ref, as) ↔
      as.head? = some ref ∧ (members mask).map s.getV = as.map some ∧
        (∀ a ∈ as, a.fmt = ref.fmt) ∧ ∀ a ∈ as, a.len = ref.len := by
  unfold State.collection
  split
  · rename_i h; subst h
    simp only [raise_ne_ok, false_iff]
    rintro ⟨h1, h2, -⟩
    have : members 0 = [] := by decide
    rw [this] at h2
    cases as <;> simp at h1 h2
  · simp only [bind_eq_ok, vecsOf_eq_ok]
    constructor
    · rintro ⟨bs, h1, h2⟩
      cases bs with
      | nil => simp at h2
      | cons b bs =>
        simp only [bind_eq_ok, membersAgree_eq_ok] at h2
        obtain ⟨-, h3, h4⟩ := h2
        simp at h4
        obtain ⟨rfl, rfl⟩ := h4
        exact ⟨rfl, h1, h3.1, h3.2⟩
    · rintro ⟨h1, h2, h3, h4⟩
      refine ⟨as, h2, ?_⟩
      cases as with
      | nil => simp at h1
      | cons a as =>
        simp at h1; subst h1
        simp only [bind_eq_ok, membersAgree_eq_ok]
        exact ⟨(), ⟨h3, h4⟩, trivial⟩

theorem collectionFor_eq_ok {s : State} {vd : VReg} {mask : BitVec 16} {self : VecReg} {as : List VecReg} :
    s.collectionFor vd mask = .ok (self, as) ↔
      mask ≠ 0 ∧ mask.getLsbD vd.val = false ∧ s.getV vd = some self ∧
        (members mask).map s.getV = as.map some ∧
        (∀ a ∈ as, a.fmt = self.fmt) ∧ ∀ a ∈ as, a.len = self.len := by
  unfold State.collectionFor
  split
  · rename_i h; simp [h]
  · rename_i h0
    split
    · rename_i h; simp [h]
    · rename_i h1
      simp only [bind_eq_ok, vecOperand_eq_ok, vecsOf_eq_ok, membersAgree_eq_ok]
      constructor
      · rintro ⟨a, ha, bs, hb, -, hm, hp⟩
        simp at hp
        obtain ⟨rfl, rfl⟩ := hp
        exact ⟨h0, by simpa using h1, ha, hb, hm.1, hm.2⟩
      · rintro ⟨-, -, h2, h3, h4, h5⟩
        exact ⟨self, h2, as, h3, (), ⟨h4, h5⟩, rfl⟩

/-! ## Every instruction ends in a next state -/

theorem exec_next (i : Instr) (s : State) : ∃ t, exec i s = .next t := by
  cases i <;> (simp only [exec]; exact finish_next _ _ _)

/-- When a command is taken: `rst` is low, the unit is not hung, a command is presented (R277, R278). -/
theorem plan_run {s t : State} {c : Command} (h : s.plan = .run c t) :
    ∃ cs, s.rstNow = .low ∧ s.hung = false ∧ s.cmdIn = c :: cs ∧ t = { s with cmdIn := cs, rstIn := s.rstIn.tail } := by
  cases hr : s.rstNow with
  | between => simp [State.plan, hr] at h
  | during => simp [State.plan, hr] at h
  | low =>
    cases hh : s.hung with
    | true => simp [State.plan, hr, hh] at h
    | false =>
      cases hc : s.cmdIn with
      | nil => simp [State.plan, hr, hh, hc] at h
      | cons d ds =>
        simp only [State.plan, hr, hh, hc] at h
        simp at h
        obtain ⟨rfl, rfl⟩ := h
        exact ⟨ds, rfl, rfl, rfl, rfl⟩

/-- The converse of `plan_run`. -/
theorem plan_of_low {s : State} {c : Command} {cs : List Command} (hr : s.rstNow = .low) (hh : s.hung = false)
    (hc : s.cmdIn = c :: cs) : s.plan = .run c { s with cmdIn := cs, rstIn := s.rstIn.tail } := by
  simp [State.plan, hr, hh, hc]

/-- What a plan that executes no command can be: a reset, or the passing of a step. -/
theorem plan_settle {s t : State} (h : s.plan = .settle t) :
    (∃ cs, t = State.afterReset { s with cmdIn := cs, rstIn := s.rstIn.tail }) ∨ t = { s with rstIn := s.rstIn.tail } := by
  cases hr : s.rstNow with
  | between => simp only [State.plan, hr, Plan.settle.injEq] at h; exact .inl ⟨s.cmdIn, h.symm⟩
  | during => simp only [State.plan, hr, Plan.settle.injEq] at h; exact .inl ⟨_, h.symm⟩
  | low =>
    cases hh : s.hung with
    | true => simp [State.plan, hr, hh] at h; exact .inr h.symm
    | false =>
      cases hc : s.cmdIn with
      | nil => simp [State.plan, hr, hh, hc] at h; exact .inr h.symm
      | cons c cs => simp [State.plan, hr, hh, hc] at h

/-- What a step can do: end as its plan says, or run one decoded command, or raise `ERR_ILLEGAL` for one word. -/
theorem step_cases (s : State) :
    (∃ t, s.plan = .settle t ∧ step s = .next t) ∨
    (∃ c t i, s.plan = .run c t ∧ decode c.word c.wdata = .ok i ∧ step s = exec i t) ∨
    (∃ c t e, s.plan = .run c t ∧ decode c.word c.wdata = .error e ∧
      step s = .next (t.takeFault c.word .illegal)) := by
  cases hp : s.plan with
  | settle t => exact .inl ⟨t, rfl, by simp [step, hp]⟩
  | run c t =>
    cases hd : decode c.word c.wdata with
    | ok i => exact .inr (.inl ⟨c, t, i, rfl, hd, by simp [step, hp, runCommand, hd]⟩)
    | error e => exact .inr (.inr ⟨c, t, e, rfl, hd, by simp [step, hp, runCommand, hd]⟩)

end Sys2Proof.Machine
end

