-- ==== Sys2Proof/Laws/PerInstr.lean ====
section
/-! SUPPORT. Per-instruction laws: the word of every well-formed instruction has the fixed fields of its row of
`spec/opcode_table.json` (its "fixed" entries), written out here apart from the encoder. -/

namespace Sys2Proof.Laws.TableRow

-- One proof at a time: 59 at once would hold too many threads and their stacks.
set_option Elab.async false

/-- A fixed field of an opcode-table row: bits `hi..lo` hold `value`. -/
structure FixedField where
  hi : Nat
  lo : Nat
  value : Nat
deriving DecidableEq, Repr

/-- The fixed fields of the row of an instruction. -/
def fixedFields : Instr → List FixedField
  | .nop => [⟨31, 0, 16777216⟩]
  | .mts _ _ => [⟨17, 0, 0⟩, ⟨31, 22, 8⟩]
  | .mfs _ => [⟨13, 0, 0⟩, ⟨31, 18, 192⟩]
  | .rdcsr _ _ => [⟨17, 10, 0⟩, ⟨31, 22, 16⟩]
  | .popc8 _ _ => [⟨13, 0, 0⟩, ⟨31, 22, 64⟩]
  | .popc16 _ _ => [⟨13, 0, 0⟩, ⟨31, 22, 68⟩]
  | .popc32 _ _ => [⟨13, 0, 0⟩, ⟨31, 22, 72⟩]
  | .popc64 _ _ => [⟨13, 0, 0⟩, ⟨31, 22, 76⟩]
  | .rol32 _ _ _ => [⟨9, 0, 0⟩, ⟨31, 22, 80⟩]
  | .ror32 _ _ _ => [⟨9, 0, 0⟩, ⟨31, 22, 84⟩]
  | .rol64 _ _ _ => [⟨9, 0, 0⟩, ⟨31, 22, 88⟩]
  | .ror64 _ _ _ => [⟨9, 0, 0⟩, ⟨31, 22, 92⟩]
  | .rol32i _ _ _ => [⟨13, 6, 0⟩, ⟨31, 22, 96⟩]
  | .ror32i _ _ _ => [⟨13, 6, 0⟩, ⟨31, 22, 100⟩]
  | .rol64i _ _ _ => [⟨13, 6, 0⟩, ⟨31, 22, 104⟩]
  | .ror64i _ _ _ => [⟨13, 6, 0⟩, ⟨31, 22, 108⟩]
  | .seed _ => [⟨13, 0, 0⟩, ⟨31, 18, 2048⟩]
  | .nextu64 _ => [⟨17, 0, 0⟩, ⟨31, 22, 132⟩]
  | .nextu32 _ => [⟨17, 0, 0⟩, ⟨31, 22, 136⟩]
  | .nextu16 _ => [⟨17, 0, 0⟩, ⟨31, 22, 140⟩]
  | .nextu8 _ => [⟨17, 0, 0⟩, ⟨31, 22, 144⟩]
  | .nextbool _ => [⟨17, 0, 0⟩, ⟨31, 22, 148⟩]
  | .next12H _ => [⟨17, 0, 0⟩, ⟨31, 22, 160⟩]
  | .next12S _ => [⟨17, 0, 0⟩, ⟨31, 22, 161⟩]
  | .next12D _ => [⟨17, 0, 0⟩, ⟨31, 22, 162⟩]
  | .next12Fmt3 _ => [⟨17, 0, 0⟩, ⟨31, 22, 163⟩]
  | .next01H _ => [⟨17, 0, 0⟩, ⟨31, 22, 164⟩]
  | .next01S _ => [⟨17, 0, 0⟩, ⟨31, 22, 165⟩]
  | .next01D _ => [⟨17, 0, 0⟩, ⟨31, 22, 166⟩]
  | .next01Fmt3 _ => [⟨17, 0, 0⟩, ⟨31, 22, 167⟩]
  | .nextunitH _ => [⟨17, 0, 0⟩, ⟨31, 22, 168⟩]
  | .nextunitS _ => [⟨17, 0, 0⟩, ⟨31, 22, 169⟩]
  | .nextunitD _ => [⟨17, 0, 0⟩, ⟨31, 22, 170⟩]
  | .nextunitFmt3 _ => [⟨17, 0, 0⟩, ⟨31, 22, 171⟩]
  | .nextvecH _ _ => [⟨13, 0, 0⟩, ⟨31, 22, 172⟩]
  | .nextvecS _ _ => [⟨13, 0, 0⟩, ⟨31, 22, 173⟩]
  | .nextvecD _ _ => [⟨13, 0, 0⟩, ⟨31, 22, 174⟩]
  | .nextvecFmt3 _ _ => [⟨13, 0, 0⟩, ⟨31, 22, 175⟩]
  | .vnewH _ _ => [⟨13, 0, 0⟩, ⟨31, 22, 192⟩]
  | .vnewS _ _ => [⟨13, 0, 0⟩, ⟨31, 22, 193⟩]
  | .vnewD _ _ => [⟨13, 0, 0⟩, ⟨31, 22, 194⟩]
  | .vnewFmt3 _ _ => [⟨13, 0, 0⟩, ⟨31, 22, 195⟩]
  | .vgenH _ _ _ => [⟨9, 0, 0⟩, ⟨31, 22, 196⟩]
  | .vgenS _ _ _ => [⟨9, 0, 0⟩, ⟨31, 22, 197⟩]
  | .vgenD _ _ _ => [⟨9, 0, 0⟩, ⟨31, 22, 198⟩]
  | .vgenFmt3 _ _ _ => [⟨9, 0, 0⟩, ⟨31, 22, 199⟩]
  | .vcopy _ _ => [⟨13, 0, 0⟩, ⟨31, 22, 200⟩]
  | .vinfo _ _ => [⟨13, 0, 0⟩, ⟨31, 22, 204⟩]
  | .vgete _ _ _ => [⟨9, 0, 0⟩, ⟨31, 22, 208⟩]
  | .vsete _ _ _ => [⟨9, 0, 0⟩, ⟨31, 22, 212⟩]
  | .vnorm _ _ => [⟨13, 0, 0⟩, ⟨31, 22, 256⟩]
  | .vdot _ _ _ => [⟨9, 0, 0⟩, ⟨31, 22, 260⟩]
  | .vcos _ _ _ => [⟨9, 0, 0⟩, ⟨31, 22, 264⟩]
  | .vmul _ _ _ => [⟨9, 0, 0⟩, ⟨31, 22, 268⟩]
  | .veq _ _ _ => [⟨9, 0, 0⟩, ⟨31, 22, 272⟩]
  | .vrotl _ _ => [⟨13, 0, 0⟩, ⟨31, 22, 288⟩]
  | .vrotr _ _ => [⟨13, 0, 0⟩, ⟨31, 22, 292⟩]
  | .vagg _ _ => [⟨17, 16, 0⟩, ⟨31, 22, 320⟩]
  | .vaggi _ _ => [⟨17, 16, 0⟩, ⟨31, 22, 324⟩]

/-- The word of a well-formed instruction holds every fixed field of its row. -/
def Statement (i : Instr) : Prop :=
  i.wellFormed = true → ∀ r ∈ fixedFields i, bitField (encodeWord i) r.hi r.lo = r.value

theorem nop : Statement .nop := by
  intro _
  simp [fixedFields, encodeWord, bitField, packR_toNat]

theorem mts (rd : SReg) (wdata : Word) : Statement (.mts rd wdata) := by
  intro _
  simp [fixedFields, encodeWord, bitField, packR_toNat]
  omega

theorem mfs (rs1 : SReg) : Statement (.mfs rs1) := by
  intro _
  simp [fixedFields, encodeWord, bitField, packR_toNat]
  omega

theorem rdcsr (rd : SReg) (csr : Nat) : Statement (.rdcsr rd csr) := by
  intro h
  have hb : csr < 1024 := by simpa [Instr.wellFormed] using h
  have hi : csr < 1024 := by omega
  simp [fixedFields, encodeWord, bitField, packR_toNat, hi]
  omega

theorem popc8 (rd rs1 : SReg) : Statement (.popc8 rd rs1) := by
  intro _
  simp [fixedFields, encodeWord, bitField, packR_toNat]
  omega

theorem popc16 (rd rs1 : SReg) : Statement (.popc16 rd rs1) := by
  intro _
  simp [fixedFields, encodeWord, bitField, packR_toNat]
  omega

theorem popc32 (rd rs1 : SReg) : Statement (.popc32 rd rs1) := by
  intro _
  simp [fixedFields, encodeWord, bitField, packR_toNat]
  omega

theorem popc64 (rd rs1 : SReg) : Statement (.popc64 rd rs1) := by
  intro _
  simp [fixedFields, encodeWord, bitField, packR_toNat]
  omega

theorem rol32 (rd rs1 rs2 : SReg) : Statement (.rol32 rd rs1 rs2) := by
  intro _
  simp [fixedFields, encodeWord, bitField, packR_toNat]
  omega

theorem ror32 (rd rs1 rs2 : SReg) : Statement (.ror32 rd rs1 rs2) := by
  intro _
  simp [fixedFields, encodeWord, bitField, packR_toNat]
  omega

theorem rol64 (rd rs1 rs2 : SReg) : Statement (.rol64 rd rs1 rs2) := by
  intro _
  simp [fixedFields, encodeWord, bitField, packR_toNat]
  omega

theorem ror64 (rd rs1 rs2 : SReg) : Statement (.ror64 rd rs1 rs2) := by
  intro _
  simp [fixedFields, encodeWord, bitField, packR_toNat]
  omega

theorem rol32i (rd rs1 : SReg) (sh : Nat) : Statement (.rol32i rd rs1 sh) := by
  intro h
  have hb : sh < 64 := by simpa [Instr.wellFormed] using h
  have hi : sh < 1024 := by omega
  simp [fixedFields, encodeWord, bitField, packR_toNat, hi]
  omega

theorem ror32i (rd rs1 : SReg) (sh : Nat) : Statement (.ror32i rd rs1 sh) := by
  intro h
  have hb : sh < 64 := by simpa [Instr.wellFormed] using h
  have hi : sh < 1024 := by omega
  simp [fixedFields, encodeWord, bitField, packR_toNat, hi]
  omega

theorem rol64i (rd rs1 : SReg) (sh : Nat) : Statement (.rol64i rd rs1 sh) := by
  intro h
  have hb : sh < 64 := by simpa [Instr.wellFormed] using h
  have hi : sh < 1024 := by omega
  simp [fixedFields, encodeWord, bitField, packR_toNat, hi]
  omega

theorem ror64i (rd rs1 : SReg) (sh : Nat) : Statement (.ror64i rd rs1 sh) := by
  intro h
  have hb : sh < 64 := by simpa [Instr.wellFormed] using h
  have hi : sh < 1024 := by omega
  simp [fixedFields, encodeWord, bitField, packR_toNat, hi]
  omega

theorem seed (rs1 : SReg) : Statement (.seed rs1) := by
  intro _
  simp [fixedFields, encodeWord, bitField, packR_toNat]
  omega

theorem nextu64 (rd : SReg) : Statement (.nextu64 rd) := by
  intro _
  simp [fixedFields, encodeWord, bitField, packR_toNat]
  omega

theorem nextu32 (rd : SReg) : Statement (.nextu32 rd) := by
  intro _
  simp [fixedFields, encodeWord, bitField, packR_toNat]
  omega

theorem nextu16 (rd : SReg) : Statement (.nextu16 rd) := by
  intro _
  simp [fixedFields, encodeWord, bitField, packR_toNat]
  omega

theorem nextu8 (rd : SReg) : Statement (.nextu8 rd) := by
  intro _
  simp [fixedFields, encodeWord, bitField, packR_toNat]
  omega

theorem nextbool (rd : SReg) : Statement (.nextbool rd) := by
  intro _
  simp [fixedFields, encodeWord, bitField, packR_toNat]
  omega

theorem next12H (rd : SReg) : Statement (.next12H rd) := by
  intro _
  simp [fixedFields, encodeWord, bitField, packR_toNat]
  omega

theorem next12S (rd : SReg) : Statement (.next12S rd) := by
  intro _
  simp [fixedFields, encodeWord, bitField, packR_toNat]
  omega

theorem next12D (rd : SReg) : Statement (.next12D rd) := by
  intro _
  simp [fixedFields, encodeWord, bitField, packR_toNat]
  omega

theorem next12Fmt3 (rd : SReg) : Statement (.next12Fmt3 rd) := by
  intro _
  simp [fixedFields, encodeWord, bitField, packR_toNat]
  omega

theorem next01H (rd : SReg) : Statement (.next01H rd) := by
  intro _
  simp [fixedFields, encodeWord, bitField, packR_toNat]
  omega

theorem next01S (rd : SReg) : Statement (.next01S rd) := by
  intro _
  simp [fixedFields, encodeWord, bitField, packR_toNat]
  omega

theorem next01D (rd : SReg) : Statement (.next01D rd) := by
  intro _
  simp [fixedFields, encodeWord, bitField, packR_toNat]
  omega

theorem next01Fmt3 (rd : SReg) : Statement (.next01Fmt3 rd) := by
  intro _
  simp [fixedFields, encodeWord, bitField, packR_toNat]
  omega

theorem nextunitH (rd : SReg) : Statement (.nextunitH rd) := by
  intro _
  simp [fixedFields, encodeWord, bitField, packR_toNat]
  omega

theorem nextunitS (rd : SReg) : Statement (.nextunitS rd) := by
  intro _
  simp [fixedFields, encodeWord, bitField, packR_toNat]
  omega

theorem nextunitD (rd : SReg) : Statement (.nextunitD rd) := by
  intro _
  simp [fixedFields, encodeWord, bitField, packR_toNat]
  omega

theorem nextunitFmt3 (rd : SReg) : Statement (.nextunitFmt3 rd) := by
  intro _
  simp [fixedFields, encodeWord, bitField, packR_toNat]
  omega

theorem nextvecH (rd rs1 : SReg) : Statement (.nextvecH rd rs1) := by
  intro _
  simp [fixedFields, encodeWord, bitField, packR_toNat]
  omega

theorem nextvecS (rd rs1 : SReg) : Statement (.nextvecS rd rs1) := by
  intro _
  simp [fixedFields, encodeWord, bitField, packR_toNat]
  omega

theorem nextvecD (rd rs1 : SReg) : Statement (.nextvecD rd rs1) := by
  intro _
  simp [fixedFields, encodeWord, bitField, packR_toNat]
  omega

theorem nextvecFmt3 (rd rs1 : SReg) : Statement (.nextvecFmt3 rd rs1) := by
  intro _
  simp [fixedFields, encodeWord, bitField, packR_toNat]
  omega

theorem vnewH (vd : VReg) (rs1 : SReg) : Statement (.vnewH vd rs1) := by
  intro _
  simp [fixedFields, encodeWord, bitField, packR_toNat]
  omega

theorem vnewS (vd : VReg) (rs1 : SReg) : Statement (.vnewS vd rs1) := by
  intro _
  simp [fixedFields, encodeWord, bitField, packR_toNat]
  omega

theorem vnewD (vd : VReg) (rs1 : SReg) : Statement (.vnewD vd rs1) := by
  intro _
  simp [fixedFields, encodeWord, bitField, packR_toNat]
  omega

theorem vnewFmt3 (vd : VReg) (rs1 : SReg) : Statement (.vnewFmt3 vd rs1) := by
  intro _
  simp [fixedFields, encodeWord, bitField, packR_toNat]
  omega

theorem vgenH (vd : VReg) (rs1 rs2 : SReg) : Statement (.vgenH vd rs1 rs2) := by
  intro _
  simp [fixedFields, encodeWord, bitField, packR_toNat]
  omega

theorem vgenS (vd : VReg) (rs1 rs2 : SReg) : Statement (.vgenS vd rs1 rs2) := by
  intro _
  simp [fixedFields, encodeWord, bitField, packR_toNat]
  omega

theorem vgenD (vd : VReg) (rs1 rs2 : SReg) : Statement (.vgenD vd rs1 rs2) := by
  intro _
  simp [fixedFields, encodeWord, bitField, packR_toNat]
  omega

theorem vgenFmt3 (vd : VReg) (rs1 rs2 : SReg) : Statement (.vgenFmt3 vd rs1 rs2) := by
  intro _
  simp [fixedFields, encodeWord, bitField, packR_toNat]
  omega

theorem vcopy (vd vs1 : VReg) : Statement (.vcopy vd vs1) := by
  intro _
  simp [fixedFields, encodeWord, bitField, packR_toNat]
  omega

theorem vinfo (rd : SReg) (vs1 : VReg) : Statement (.vinfo rd vs1) := by
  intro _
  simp [fixedFields, encodeWord, bitField, packR_toNat]
  omega

theorem vgete (rd : SReg) (vs1 : VReg) (rs2 : SReg) : Statement (.vgete rd vs1 rs2) := by
  intro _
  simp [fixedFields, encodeWord, bitField, packR_toNat]
  omega

theorem vsete (vd : VReg) (rs1 rs2 : SReg) : Statement (.vsete vd rs1 rs2) := by
  intro _
  simp [fixedFields, encodeWord, bitField, packR_toNat]
  omega

theorem vnorm (rd : SReg) (vs1 : VReg) : Statement (.vnorm rd vs1) := by
  intro _
  simp [fixedFields, encodeWord, bitField, packR_toNat]
  omega

theorem vdot (rd : SReg) (vs1 vs2 : VReg) : Statement (.vdot rd vs1 vs2) := by
  intro _
  simp [fixedFields, encodeWord, bitField, packR_toNat]
  omega

theorem vcos (rd : SReg) (vs1 vs2 : VReg) : Statement (.vcos rd vs1 vs2) := by
  intro _
  simp [fixedFields, encodeWord, bitField, packR_toNat]
  omega

theorem vmul (vd vs1 vs2 : VReg) : Statement (.vmul vd vs1 vs2) := by
  intro _
  simp [fixedFields, encodeWord, bitField, packR_toNat]
  omega

theorem veq (rd : SReg) (vs1 vs2 : VReg) : Statement (.veq rd vs1 vs2) := by
  intro _
  simp [fixedFields, encodeWord, bitField, packR_toNat]
  omega

theorem vrotl (vd vs1 : VReg) : Statement (.vrotl vd vs1) := by
  intro _
  simp [fixedFields, encodeWord, bitField, packR_toNat]
  omega

theorem vrotr (vd vs1 : VReg) : Statement (.vrotr vd vs1) := by
  intro _
  simp [fixedFields, encodeWord, bitField, packR_toNat]
  omega

theorem vagg (vd : VReg) (mask : BitVec 16) : Statement (.vagg vd mask) := by
  intro _
  simp [fixedFields, encodeWord, bitField, packM_toNat]
  omega

theorem vaggi (vd : VReg) (mask : BitVec 16) : Statement (.vaggi vd mask) := by
  intro _
  simp [fixedFields, encodeWord, bitField, packM_toNat]
  omega

end Sys2Proof.Laws.TableRow
end

