-- ==== Sys2Proof/Laws/Prbs.lean ====
section
/-! SUPPORT. What the generator's operations can do: seeding, the step, the rejection loop. -/

namespace Sys2Proof

/-! ## Seeding (R121) -/

@[simp] theorem seedGen_cur (storeFirst : Bool) (seed : Word) : (seedGen storeFirst seed).cur = 0 := rfl

theorem seedGen_words (storeFirst : Bool) (seed : Word) :
    (seedGen storeFirst seed).words.toList = seedFill storeFirst 37 (seedStart seed) := by
  simp [seedGen]

/-! ## The step (R122) -/

@[simp] theorem Gen.step64_fst (g : Gen) : g.step64.1 = g.words[g.cur] := rfl

@[simp] theorem Gen.step64_snd (g : Gen) : g.step64.2 = g.advance := rfl

@[simp] theorem Gen.advance_cur (g : Gen) : g.advance.cur = nextCur g.cur := rfl

theorem Gen.advance_words (g : Gen) :
    g.advance.words = g.words.set g.cur (g.words[g.cur] ^^^ ror g.words[nextCur g.cur] 1) := rfl

/-- Exactly the word at the cursor changes in a step (R122). -/
theorem Gen.advance_getElem_other (g : Gen) {i : Fin 37} (h : i ≠ g.cur) : g.advance.words[i] = g.words[i] := by
  have : g.cur.val ≠ i.val := fun e => h (Fin.ext e.symm)
  simp [Gen.advance, this]

/-! ## The rejection loop (R160) -/

theorem accepted_eq_some {f : Fmt} {e r : Word} {sample : Option Word} :
    accepted f e sample = some r ↔ sample = some r ∧ flt f e (fabs f r) = true := by
  simp [accepted, Option.filter_eq_some_iff]

/-- A NaN is no accepted sample, whatever its draw: so the loop needs no draw (R178; log 15). -/
theorem accepted_nan (f : Fmt) (e raw : Word) : accepted f e (some (f.nanOf raw)) = none := by
  simp [accepted, Option.filter, flt]

/-- One sample of the loop: accepted, or the loop goes on. -/
theorem nextVecWithin_succ (p : Primitives) (f : Fmt) (e : Word) (n : Nat) (g : Gen) :
    nextVecWithin p f e (n + 1) g =
      match accepted f e (nextUnitOf p f g.step64.1) with
      | some r => some (r, g.advance)
      | none => nextVecWithin p f e n g.advance := rfl

/-- What the loop returns is a sample that has been accepted. -/
theorem nextVecWithin_accepted {p : Primitives} {f : Fmt} {e r : Word} {n : Nat} {g g' : Gen}
    (h : nextVecWithin p f e n g = some (r, g')) :
    ∃ u, nextUnitOf p f u = some r ∧ flt f e (fabs f r) = true := by
  induction n generalizing g with
  | zero => simp [nextVecWithin] at h
  | succ n ih =>
    rw [nextVecWithin_succ] at h
    split at h
    · rename_i ha
      simp at h; obtain ⟨rfl, -⟩ := h
      exact ⟨_, accepted_eq_some.1 ha⟩
    · exact ih h

/-- A longer run of the loop returns what a shorter one has returned. -/
theorem nextVecWithin_mono {p : Primitives} {f : Fmt} {e : Word} {n m : Nat} {g : Gen} {r : Word × Gen}
    (h : nextVecWithin p f e n g = some r) (hm : n ≤ m) : nextVecWithin p f e m g = some r := by
  induction n generalizing g m with
  | zero => simp [nextVecWithin] at h
  | succ n ih =>
    obtain ⟨m, rfl⟩ : ∃ m', m = m' + 1 := ⟨m - 1, by omega⟩
    rw [nextVecWithin_succ] at h ⊢
    split at h
    · exact h
    · exact ih h (by omega)

/-- From the all-zero state every output is 0 and the state stays all zero (R129). -/
theorem advance_allZero {g : Gen} (h : g.words.toList.all (fun w => w == 0) = true) :
    g.step64.1 = 0 ∧ g.advance.words.toList.all (fun w => w == 0) = true := by
  have hz : ∀ i (hi : i < 37), g.words[i] = 0 := by
    intro i hi
    have := List.all_eq_true.1 h g.words[i] (by simp)
    simpa using this
  refine ⟨hz _ _, ?_⟩
  rw [List.all_eq_true]
  intro w hw
  rw [Gen.advance_words] at hw
  simp only [Vector.mem_toList_iff] at hw
  obtain ⟨i, hi, rfl⟩ := Vector.getElem_of_mem hw
  have h0 : ∀ c : Fin 37, g.words[c] = 0 := fun c => hz c c.isLt
  rw [Vector.getElem_set]
  simp only [h0]
  split
  · decide
  · simpa using hz i hi

theorem nextVecWithin_rejectsForEver {p : Primitives} {f : Fmt} {e : Word} {g : Gen} (h : rejectsForEver p f e g = true)
    (n : Nat) : nextVecWithin p f e n g = none := by
  simp only [rejectsForEver, Bool.and_eq_true, Option.isNone_iff_eq_none] at h
  obtain ⟨hz, hr⟩ := h
  induction n generalizing g with
  | zero => rfl
  | succ n ih =>
    obtain ⟨h0, h1⟩ := advance_allZero hz
    rw [nextVecWithin_succ, h0, hr]
    exact ih h1

/-- The shortcut of `nextVec` changes nothing: it is the loop cut off after `genStates` samples. -/
theorem nextVec_eq_within (p : Primitives) (f : Fmt) (e : Word) (g : Gen) :
    nextVec p f e g = nextVecWithin p f e genStates g := by
  unfold nextVec
  split
  · rw [nextVecWithin_rejectsForEver (by assumption)]
  · rfl

/-- What `NextVec` returns is a sample that has been accepted (R160). -/
theorem nextVec_accepted {p : Primitives} {f : Fmt} {e r : Word} {g g' : Gen} (h : nextVec p f e g = some (r, g')) :
    ∃ u, nextUnitOf p f u = some r ∧ flt f e (fabs f r) = true := by
  rw [nextVec_eq_within] at h
  exact nextVecWithin_accepted h

/-- What `NextVec` returns is a pattern of the format. -/
theorem nextVec_lt {p : Primitives} {f : Fmt} {e r : Word} {g g' : Gen} (h : nextVec p f e g = some (r, g')) :
    r.toNat < 2 ^ f.width := by
  obtain ⟨u, hu, -⟩ := nextVec_accepted h
  exact Primitives.fadd_lt hu

/-! ## The elements of `VGEN` (R198) -/

theorem genElements_length {p : Primitives} {f : Fmt} {e : Word} {n : Nat} {g g' : Gen} {rs : List Word}
    (h : genElements p f e n g = some (rs, g')) : rs.length = n := by
  induction n generalizing g rs with
  | zero => simp [genElements] at h; simp [← h.1]
  | succ n ih =>
    simp only [genElements] at h
    split at h
    · simp at h
    · split at h
      · simp at h
      · rename_i h2; simp at h; obtain ⟨rfl, rfl⟩ := h; simp [ih h2]

/-- Every element is a pattern of the format whose magnitude exceeds epsilon. -/
theorem genElements_accepted {p : Primitives} {f : Fmt} {e : Word} {n : Nat} {g g' : Gen} {rs : List Word}
    (h : genElements p f e n g = some (rs, g')) :
    ∀ r ∈ rs, r.toNat < 2 ^ f.width ∧ flt f e (fabs f r) = true := by
  induction n generalizing g rs with
  | zero => simp [genElements] at h; obtain ⟨rfl, -⟩ := h; simp
  | succ n ih =>
    simp only [genElements] at h
    split at h
    · simp at h
    · rename_i h1
      split at h
      · simp at h
      · rename_i h2
        simp at h
        obtain ⟨rfl, rfl⟩ := h
        intro r hr
        rcases List.mem_cons.1 hr with rfl | hr
        · exact ⟨nextVec_lt h1, (nextVec_accepted h1).choose_spec.2⟩
        · exact ih h2 r hr

/-! ## The sums of the assembler are never NaN under the default record (R143) -/

/-- A finite sum of the default record is a number of the format. -/
theorem ieee_fadd_finite {f : Fmt} {a b : Word} (ha : f.expField a ≠ f.emax) (hb : f.expField b ≠ f.emax) :
    ∃ w, Primitives.ieee.fadd f a b = some w ∧ IsPacked f w := by
  obtain ⟨w, hw⟩ := Option.ne_none_iff_exists'.1 (faddVal_ne_none ha hb)
  exact ⟨w, hw, faddVal_packed hw⟩

end Sys2Proof
end

