-- ==== Sys2Proof/Tests/Slice0.lean ====
section
/-! SUPPORT. Tests: expected values are those of the spec's examples and tables, or hand calculation from its rules; and a
witness for the hypotheses of every statement that has some (`witness_<Statement>`). -/

namespace Sys2Proof.Tests

open Sys2Proof.Machine

-- One proof at a time: every `decide +kernel` that waits for the kernel would hold a thread and its stack.
set_option Elab.async false

/-! ## Well-formedness: one ill-formed term for each check, and the last well-formed one -/

theorem test_wf_csr : (Instr.rdcsr 0 1024).wellFormed = false ∧ (Instr.rdcsr 0 1023).wellFormed = true := by decide

theorem test_wf_rol32i : (Instr.rol32i 1 2 64).wellFormed = false ∧ (Instr.rol32i 1 2 63).wellFormed = true := by decide

theorem test_wf_ror32i : (Instr.ror32i 1 2 64).wellFormed = false ∧ (Instr.ror32i 1 2 63).wellFormed = true := by decide

theorem test_wf_rol64i : (Instr.rol64i 1 2 64).wellFormed = false ∧ (Instr.rol64i 1 2 63).wellFormed = true := by decide

theorem test_wf_ror64i : (Instr.ror64i 1 2 64).wellFormed = false ∧ (Instr.ror64i 1 2 63).wellFormed = true := by decide

/-! ## Decoding: words laid out by hand from R67, R68 and R70 (R80 and 95_test_vectors.md where they have one) -/

/-- Every word decodes to the instruction beside it, with write data that only `MTS` may see. -/
def allRead (rows : List (CmdWord × Instr)) : Bool :=
  rows.all fun p => match decode p.1 0xFEDCBA9876543210#64 with
    | .ok i => decide (i = p.2)
    | .error _ => false

/-- None of the words is an instruction. -/
def noneRead (words : List CmdWord) : Bool :=
  words.all fun w => match decode w 0 with
    | .ok _ => false
    | .error _ => true

theorem test_decode_system :
    allRead
      [(0x01000000, Instr.nop),
       (0x02380000, Instr.mts 14 0xFEDCBA9876543210),
       (0x03034000, Instr.mfs 13),
       (0x043003FF, Instr.rdcsr 12 0x3FF)] = true := by decide

theorem test_decode_popc :
    allRead
      [(0x10048000, Instr.popc8 1 2),
       (0x113E0000, Instr.popc16 15 8),
       (0x1223C000, Instr.popc32 8 15),
       (0x13168000, Instr.popc64 5 10)] = true := by decide

theorem test_decode_rotates :
    allRead
      [(0x14104800, Instr.rol32 4 1 2),
       (0x150FE000, Instr.ror32 3 15 8),
       (0x16044400, Instr.rol64 1 1 1),
       (0x1725BC00, Instr.ror64 9 6 15),
       (0x1808401F, Instr.rol32i 2 1 31),
       (0x19084020, Instr.ror32i 2 1 32),
       (0x1A0C4001, Instr.rol64i 3 1 1),
       (0x1B08403F, Instr.ror64i 2 1 63)] = true := by decide

theorem test_decode_generator :
    allRead
      [(0x20024000, Instr.seed 9),
       (0x211C0000, Instr.nextu64 7),
       (0x221C0000, Instr.nextu32 7),
       (0x231C0000, Instr.nextu16 7),
       (0x241C0000, Instr.nextu8 7),
       (0x251C0000, Instr.nextbool 7)] = true := by decide

theorem test_decode_next12 :
    allRead
      [(0x28140000, Instr.next12H 5),
       (0x28540000, Instr.next12S 5),
       (0x28940000, Instr.next12D 5),
       (0x28D40000, Instr.next12Fmt3 5)] = true := by decide

theorem test_decode_next01 :
    allRead
      [(0x29280000, Instr.next01H 10),
       (0x29680000, Instr.next01S 10),
       (0x29A80000, Instr.next01D 10),
       (0x29E80000, Instr.next01Fmt3 10)] = true := by decide

theorem test_decode_nextunit :
    allRead
      [(0x2A300000, Instr.nextunitH 12),
       (0x2A700000, Instr.nextunitS 12),
       (0x2AB00000, Instr.nextunitD 12),
       (0x2AF00000, Instr.nextunitFmt3 12)] = true := by decide

theorem test_decode_nextvec :
    allRead
      [(0x2B188000, Instr.nextvecH 6 2),
       (0x2B588000, Instr.nextvecS 6 2),
       (0x2B988000, Instr.nextvecD 6 2),
       (0x2BD88000, Instr.nextvecFmt3 6 2)] = true := by decide

theorem test_decode_vnew :
    allRead
      [(0x3004C000, Instr.vnewH 1 3),
       (0x3044C000, Instr.vnewS 1 3),
       (0x3084C000, Instr.vnewD 1 3),
       (0x30C4C000, Instr.vnewFmt3 1 3)] = true := by decide

theorem test_decode_vgen :
    allRead
      [(0x31087000, Instr.vgenH 2 1 12),
       (0x31487000, Instr.vgenS 2 1 12),
       (0x31887000, Instr.vgenD 2 1 12),
       (0x31C87000, Instr.vgenFmt3 2 1 12)] = true := by decide

theorem test_decode_vector_access :
    allRead
      [(0x32144000, Instr.vcopy 5 1),
       (0x331F0000, Instr.vinfo 7 12),
       (0x34144800, Instr.vgete 5 1 2),
       (0x35044800, Instr.vsete 1 1 2)] = true := by decide

theorem test_decode_vector_algebra :
    allRead
      [(0x402DC000, Instr.vnorm 11 7),
       (0x41244800, Instr.vdot 9 1 2),
       (0x420F9400, Instr.vcos 3 14 5),
       (0x43296400, Instr.vmul 10 5 9),
       (0x44049000, Instr.veq 1 2 4),
       (0x480CC000, Instr.vrotl 3 3),
       (0x49204000, Instr.vrotr 8 1)] = true := by decide

theorem test_decode_aggregation :
    allRead
      [(0x5000000E, Instr.vagg 0 0b1110),
       (0x503C8001, Instr.vagg 15 0x8001),
       (0x51100006, Instr.vaggi 4 0b0110)] = true := by decide

/-- The all-zero word, `0xFF`, unassigned opcodes, and one word for each kind of must-be-zero field (R73). -/
theorem test_decode_illegal :
    noneRead
      [0x00000000, 0xFF000000, 0x05000000, 0x26000000, 0x01000001, 0x01400000, 0x02004000, 0x03000400, 0x04400000,
       0x10000400, 0x14000001, 0x18000040, 0x1B000200, 0x20040000, 0x28004000, 0x2B000400, 0x31000001, 0x44000200,
       0x50010000, 0x51020000, 0x50400000] = true := by decide

theorem test_table_word :
    decodeTableWord 32 0x01000000 = some .nop ∧ decodeTableWord 32 0x02040000 = some (.mts 1 0) ∧
      decodeTableWord 96 0x000000000000000502040000 = some (.mts 1 5) ∧ decodeTableWord 32 0 = none := by decide

/-! ## States of the tests -/

/-- The state after reset with `VLMAX = 8`, the default switches and the default primitives (95_test_vectors.md). -/
def base : State := State.resetFor ⟨8, false, false, .ieee⟩

/-- What an outcome's next state must satisfy. -/
def ends (o : Host.Outcome State Fault Refusal) (p : State → Bool) : Bool :=
  match o with
  | .next t => p t
  | _ => false

/-- The code and read data of the last response. -/
def answered (t : State) (code : BitVec 8) (rdata : Word) : Bool :=
  decide (t.rspOut.getLast? = some ⟨code, rdata⟩)

/-- `x[1]` and `x[2]` as given. -/
def with12 (a b : Word) : State := (base.setX 1 a).setX 2 b

/-- Vectors 1 to 4 and 5 to 8 in single (v1, v2), 3 and 4 in half (v3), one of length 3 in single (v4), zeros of length 4 in single (v5). -/
def vecs : State :=
  ((((base.setV 1 ⟨.single, [0x3F800000, 0x40000000, 0x40400000, 0x40800000]⟩).setV 2
    ⟨.single, [0x40A00000, 0x40C00000, 0x40E00000, 0x41000000]⟩).setV 3 ⟨.half, [0x4200, 0x4400]⟩).setV 4
    ⟨.single, [0xBF800000, 0x80000000, 0]⟩).setV 5 ⟨.single, [0, 0, 0, 0]⟩

/-- The generator with every word 0. -/
def zeroGen : Gen := ⟨Vector.replicate 37 0, 0⟩

/-- The elements of a vector register in a next state. -/
def hasElems (r : VReg) (f : Fmt) (es : List Word) (t : State) : Bool := decide (t.v[r] = some ⟨f, es⟩)

/-! ## The primitives (R181) -/

theorem test_fadd :
    faddVal .single 0x4CBEBC20 0x3F800000 = some 0x4CBEBC20 ∧ faddVal .half 0x6800 0x3C00 = some 0x6800 ∧
      faddVal .half 0x4000 0x6800 = some 0x6801 ∧ faddVal .half 0x7B52 0x70E2 = some 0x7C00 ∧
      faddVal .half 0xBC00 0x3C00 = some 0x0000 := by decide +kernel

theorem test_fmul :
    fmulVal .half 0x5640 0x5640 = some 0x70E2 ∧ fmulVal .single 0x40AF456F 0x40AF456F = some 0x41F00001 := by decide +kernel

theorem test_fsqrt_fdiv :
    fsqrtVal .single 0x41F00000 = some 0x40AF456F ∧ fdivVal .single 0x00000000 0x00000000 = none := by decide +kernel

/-! ## One step of each instruction: the examples of the spec's rules -/

theorem test_nop :
    ends (exec (.nop) (base)) (fun t => decide (t = base.afterOk 0)) = true := by decide +kernel

theorem test_mts :
    ends (exec (.mts 1 0x0123456789ABCDEF) (base)) (fun t => t.x[(1 : SReg)] == 0x0123456789ABCDEF && answered t 0 0) = true := by decide +kernel

theorem test_mfs :
    ends (exec (.mfs 1) (with12 0x0123456789ABCDEF 0)) (fun t => answered t 0 0x0123456789ABCDEF && t.cmdcnt == 1) = true := by decide +kernel

theorem test_rdcsr_s0 :
    ends (exec (.rdcsr 2 0x040) (base)) (fun t => t.x[(2 : SReg)] == 0x6E1AB72CCC0C37A3) = true := by decide +kernel

/-- R93: `0x04080005` answers `(ERR_CSR, 0)`. -/
theorem test_rdcsr_absent :
    ends (exec (.rdcsr 2 0x005) (with12 0 7)) (fun t => t.x[(2 : SReg)] == 7 && answered t 12 0 && t.ferr == 12 && t.fcmd == 0x04080005) = true := by decide +kernel

theorem test_popc8 :
    ends (exec (.popc8 2 1) (with12 0x0123456789ABCDEF 0xFF)) (fun t => t.x[(2 : SReg)] == 7) = true := by decide +kernel

theorem test_popc16 :
    ends (exec (.popc16 2 1) (with12 0x0123456789ABCDEF 0xFF)) (fun t => t.x[(2 : SReg)] == 12) = true := by decide +kernel

theorem test_popc32 :
    ends (exec (.popc32 2 1) (with12 0x0123456789ABCDEF 0xFF)) (fun t => t.x[(2 : SReg)] == 20) = true := by decide +kernel

theorem test_popc64 :
    ends (exec (.popc64 2 1) (with12 0x0123456789ABCDEF 0xFF)) (fun t => t.x[(2 : SReg)] == 32) = true := by decide +kernel

theorem test_rol32 :
    ends (exec (.rol32 3 1 2) (with12 0x89ABCDEF 8)) (fun t => t.x[(3 : SReg)] == 0xABCDEF89) = true := by decide +kernel

theorem test_rol32_out_of_range :
    ends (exec (.rol32 3 1 2) (with12 0x89ABCDEF 32)) (fun t => answered t 8 0 && t.x[(3 : SReg)] == 0) = true := by decide +kernel

/-- The upper source bits are ignored (R107). -/
theorem test_ror32 :
    ends (exec (.ror32 3 1 2) (with12 0xFFFFFFFF89ABCDEF 8)) (fun t => t.x[(3 : SReg)] == 0xEF89ABCD) = true := by decide +kernel

theorem test_ror32_by_one :
    ends (exec (.ror32 3 1 2) (with12 1 1)) (fun t => t.x[(3 : SReg)] == 0x80000000) = true := by decide +kernel

theorem test_rol64 :
    ends (exec (.rol64 3 1 2) (with12 0x0123456789ABCDEF 4)) (fun t => t.x[(3 : SReg)] == 0x123456789ABCDEF0) = true := by decide +kernel

theorem test_rol64_negative :
    ends (exec (.rol64 3 1 2) (with12 1 0xFFFFFFFFFFFFFFFF)) (fun t => answered t 8 0) = true := by decide +kernel

theorem test_ror64 :
    ends (exec (.ror64 3 1 2) (with12 0x61C885EF5D07E919 23)) (fun t => t.x[(3 : SReg)] == 0x0FD232C3910BDEBA) = true := by decide +kernel

/-- Sources are read before the destination is written (R57). -/
theorem test_ror64_same_registers :
    ends (exec (.ror64 1 1 1) (with12 4 0)) (fun t => t.x[(1 : SReg)] == 0x4000000000000000) = true := by decide +kernel

theorem test_rol32i :
    ends (exec (.rol32i 2 1 31) (with12 0x89ABCDEF 0)) (fun t => t.x[(2 : SReg)] == 0xC4D5E6F7) = true := by decide +kernel

theorem test_ror32i :
    ends (exec (.ror32i 2 1 1) (with12 1 0)) (fun t => t.x[(2 : SReg)] == 0x80000000) = true := by decide +kernel

theorem test_ror32i_out_of_range :
    ends (exec (.ror32i 2 1 32) (with12 1 0)) (fun t => answered t 8 0 && t.fcmd == 0x19084020) = true := by decide +kernel

theorem test_rol64i :
    ends (exec (.rol64i 2 1 1) (with12 0x61C885EF5D07E919 0)) (fun t => t.x[(2 : SReg)] == 0xC3910BDEBA0FD232) = true := by decide +kernel

theorem test_ror64i :
    ends (exec (.ror64i 2 1 63) (with12 0x61C885EF5D07E919 0)) (fun t => t.x[(2 : SReg)] == 0xC3910BDEBA0FD232) = true := by decide +kernel

/-- The second array of 95_test_vectors.md section 2.1. -/
theorem test_seed :
    ends (exec (.seed 1) (with12 1 0)) (fun t => t.gen.words[0] == 0xB70D599666061BD0 && t.gen.words[36] == 0xC1BF662BC1BF662B && t.gen.cur == 0) = true := by decide +kernel

/-- Section 2.4. -/
theorem test_seed_store_first :
    ends (exec (.seed 1) ((State.resetFor ⟨8, true, false, .ieee⟩).setX 1 1)) (fun t => t.gen.words[0] == 0xB0E442F7AE83F48D && t.gen.words[36] == 0xF81CD1DBF81CD1DB) = true := by decide +kernel

theorem test_nextu64 :
    ends (exec (.nextu64 7) (base)) (fun t => t.x[(7 : SReg)] == 0x6E1AB72CCC0C37A3 && t.gen.cur == 1 && t.gen.words[0] == 0xD5204FD4B0BD00BE) = true := by decide +kernel

theorem test_nextu32 :
    ends (exec (.nextu32 7) (base)) (fun t => t.x[(7 : SReg)] == 0xCC0C37A3 && t.gen.cur == 1 && t.gen.words[0] == 0xD5204FD4B0BD00BE) = true := by decide +kernel

theorem test_nextu16 :
    ends (exec (.nextu16 7) (base)) (fun t => t.x[(7 : SReg)] == 0x37A3 && t.gen.cur == 1 && t.gen.words[0] == 0xD5204FD4B0BD00BE) = true := by decide +kernel

theorem test_nextu8 :
    ends (exec (.nextu8 7) (base)) (fun t => t.x[(7 : SReg)] == 0xA3 && t.gen.cur == 1 && t.gen.words[0] == 0xD5204FD4B0BD00BE) = true := by decide +kernel

theorem test_nextbool :
    ends (exec (.nextbool 7) (base)) (fun t => t.x[(7 : SReg)] == 1 && t.gen.cur == 1) = true := by decide +kernel

theorem test_next12H :
    ends (exec (.next12H 7) (base)) (fun t => t.x[(7 : SReg)] == 0x3FA3 && t.gen.cur == 1) = true := by decide +kernel

theorem test_next12S :
    ends (exec (.next12S 7) (base)) (fun t => t.x[(7 : SReg)] == 0x3F8C37A3 && t.gen.cur == 1) = true := by decide +kernel

theorem test_next12D :
    ends (exec (.next12D 7) (base)) (fun t => t.x[(7 : SReg)] == 0x3FFAB72CCC0C37A3 && t.gen.cur == 1) = true := by decide +kernel

theorem test_next01H :
    ends (exec (.next01H 7) (base)) (fun t => t.x[(7 : SReg)] == 0x3B46 && t.gen.cur == 1) = true := by decide +kernel

theorem test_next01S :
    ends (exec (.next01S 7) (base)) (fun t => t.x[(7 : SReg)] == 0x3DC37A30 && t.gen.cur == 1) = true := by decide +kernel

theorem test_next01D :
    ends (exec (.next01D 7) (base)) (fun t => t.x[(7 : SReg)] == 0x3FE56E5998186F46 && t.gen.cur == 1) = true := by decide +kernel

theorem test_nextunitH :
    ends (exec (.nextunitH 7) (base)) (fun t => t.x[(7 : SReg)] == 0x3B46 && t.gen.cur == 1) = true := by decide +kernel

theorem test_nextunitS :
    ends (exec (.nextunitS 7) (base)) (fun t => t.x[(7 : SReg)] == 0xBDC37A30 && t.gen.cur == 1) = true := by decide +kernel

theorem test_nextunitD :
    ends (exec (.nextunitD 7) (base)) (fun t => t.x[(7 : SReg)] == 0x3FE56E5998186F46 && t.gen.cur == 1) = true := by decide +kernel

/-- A negative pattern with fraction 0 gives +0 (R150). -/
theorem test_nextunitH_zero :
    ends (exec (.nextunitH 7) (base.setGen ⟨Vector.replicate 37 0xFC00, 0⟩)) (fun t => t.x[(7 : SReg)] == 0) = true := by decide +kernel

theorem test_nextvecH :
    ends (exec (.nextvecH 6 2) (with12 0 0x3800)) (fun t => t.x[(6 : SReg)] == 0x3B46 && t.gen.cur == 1) = true := by decide +kernel

theorem test_nextvecS :
    ends (exec (.nextvecS 6 2) (with12 0 0x3DCCCCCD)) (fun t => t.x[(6 : SReg)] == 0xBF44DC76 && t.gen.cur == 2) = true := by decide +kernel

theorem test_nextvecS_epsilon_low :
    ends (exec (.nextvecS 6 2) (with12 0 0x3DCCCCCC)) (fun t => answered t 7 0 && t.gen.cur == 0) = true := by decide +kernel

theorem test_nextvecD :
    ends (exec (.nextvecD 6 2) (with12 0 0x3FE0000000000000)) (fun t => t.x[(6 : SReg)] == 0x3FE56E5998186F46 && t.gen.cur == 1) = true := by decide +kernel

theorem test_nextvecD_epsilon_high :
    ends (exec (.nextvecD 6 2) (with12 0 0x3FE0000000000001)) (fun t => answered t 7 0) = true := by decide +kernel

theorem test_nextvecH_hang :
    ends (exec (.nextvecH 6 2) ((with12 0 0x3800).setGen zeroGen)) (fun t => t.hung && t.cmdcnt == 0 && decide (t.rspOut = [])) = true := by decide +kernel

theorem test_next12Fmt3 :
    ends (exec (.next12Fmt3 7) (base)) (fun t => answered t 2 0 && t.gen.cur == 0) = true := by decide +kernel

theorem test_next01Fmt3 :
    ends (exec (.next01Fmt3 7) (base)) (fun t => answered t 2 0 && t.gen.cur == 0) = true := by decide +kernel

theorem test_nextunitFmt3 :
    ends (exec (.nextunitFmt3 7) (base)) (fun t => answered t 2 0 && t.gen.cur == 0) = true := by decide +kernel

theorem test_nextvecFmt3 :
    ends (exec (.nextvecFmt3 7 1) (base)) (fun t => answered t 2 0 && t.gen.cur == 0) = true := by decide +kernel

theorem test_vnewFmt3 :
    ends (exec (.vnewFmt3 7 1) (base)) (fun t => answered t 2 0 && t.gen.cur == 0) = true := by decide +kernel

theorem test_vgenFmt3 :
    ends (exec (.vgenFmt3 7 1 2) (base)) (fun t => answered t 2 0 && t.gen.cur == 0) = true := by decide +kernel

theorem test_vnewH :
    ends (exec (.vnewH 1 3) (base.setX 3 4)) (fun t => hasElems 1 .half [0, 0, 0, 0] t) = true := by decide +kernel

theorem test_vnewS :
    ends (exec (.vnewS 0 3) (base.setX 3 1)) (fun t => hasElems 0 .single [0] t) = true := by decide +kernel

theorem test_vnewS_size :
    ends (exec (.vnewS 0 3) (base.setX 3 0x8000000000000000)) (fun t => answered t 3 0) = true := by decide +kernel

theorem test_vnewD :
    ends (exec (.vnewD 1 3) (base.setX 3 8)) (fun t => hasElems 1 .double (List.replicate 8 0) t) = true := by decide +kernel

theorem test_vnewD_capacity :
    ends (exec (.vnewD 1 3) (base.setX 3 9)) (fun t => answered t 4 0 && t.fcmd == 0x3084C000) = true := by decide +kernel

theorem test_vgenH :
    ends (exec (.vgenH 1 1 2) (with12 4 0x3800)) (fun t => hasElems 1 .half [0x3B46, 0x3876, 0xBB92, 0xBBD8] t && t.gen.cur == 4) = true := by decide +kernel

theorem test_vgenS :
    ends (exec (.vgenS 2 1 2) (with12 4 0x3DCCCCCD)) (fun t => hasElems 2 .single [0xBF44DC76, 0x3DFB7EC0, 0x3E9D15BC, 0xBEF5C4D0] t && t.gen.cur == 6) = true := by decide +kernel

theorem test_vgenD :
    ends (exec (.vgenD 2 1 2) (with12 3 0x3FE0000000000000)) (fun t => hasElems 2 .double [0x3FE56E5998186F46, 0xBFE30E3825031F92, 0xBFE39A345B4E8ADE] t && t.gen.cur == 5) = true := by decide +kernel

/-- R200: with both operands bad the fault is `ERR_SIZE`. -/
theorem test_vgenD_size_first :
    ends (exec (.vgenD 2 1 2) (with12 0 0)) (fun t => answered t 3 0) = true := by decide +kernel

theorem test_vcopy :
    ends (exec (.vcopy 6 1) (vecs)) (fun t => hasElems 6 .single [0x3F800000, 0x40000000, 0x40400000, 0x40800000] t) = true := by decide +kernel

theorem test_vinfo :
    ends (exec (.vinfo 7 1) (base.setV 1 ⟨.double, List.replicate 8 0⟩)) (fun t => t.x[(7 : SReg)] == 0x8000000200000008) = true := by decide +kernel

theorem test_vinfo_invalid :
    ends (exec (.vinfo 7 9) (vecs.setX 7 5)) (fun t => t.x[(7 : SReg)] == 0 && answered t 0 0) = true := by decide +kernel

theorem test_vgete :
    ends (exec (.vgete 5 1 2) ((with12 0 2).setV 1 ⟨.half, [0x3B46, 0x3876, 0xBB92, 0xBBD8]⟩)) (fun t => t.x[(5 : SReg)] == 0xBB92) = true := by decide +kernel

theorem test_vgete_index :
    ends (exec (.vgete 5 1 2) ((with12 0 4).setV 1 ⟨.half, [0x3B46, 0x3876, 0xBB92, 0xBBD8]⟩)) (fun t => answered t 11 0) = true := by decide +kernel

theorem test_vsete :
    ends (exec (.vsete 5 1 2) ((vecs.setX 1 3).setX 2 0xFFFFFFFF40800000)) (fun t => hasElems 5 .single [0, 0, 0, 0x40800000] t) = true := by decide +kernel

theorem test_vnorm :
    ends (exec (.vnorm 9 1) (vecs)) (fun t => t.x[(9 : SReg)] == 0x40AF456F) = true := by decide +kernel

theorem test_vnorm_half :
    ends (exec (.vnorm 9 3) (vecs)) (fun t => t.x[(9 : SReg)] == 0x4500) = true := by decide +kernel

theorem test_vdot :
    ends (exec (.vdot 9 1 2) (vecs)) (fun t => t.x[(9 : SReg)] == 0x428C0000) = true := by decide +kernel

theorem test_vdot_order :
    ends (exec (.vdot 9 1 2) ((base.setV 1 ⟨.half, [0x3C00, 0x3C00, 0x6800]⟩).setV 2 ⟨.half, [0x3C00, 0x3C00, 0x3C00]⟩)) (fun t => t.x[(9 : SReg)] == 0x6801) = true := by decide +kernel

theorem test_vcos :
    ends (exec (.vcos 9 1 2) (vecs)) (fun t => t.x[(9 : SReg)] == 0x3F780778) = true := by decide +kernel

theorem test_vcos_self :
    ends (exec (.vcos 9 1 1) (vecs)) (fun t => t.x[(9 : SReg)] == 0x3F7FFFFF) = true := by decide +kernel

theorem test_vmul :
    ends (exec (.vmul 2 1 2) (vecs)) (fun t => hasElems 2 .single [0x40A00000, 0x41400000, 0x41A80000, 0x42000000] t) = true := by decide +kernel

theorem test_veq_zeros :
    ends (exec (.veq 9 6 4) (vecs.setV 6 ⟨.single, [0xBF800000, 0, 0x80000000]⟩)) (fun t => t.x[(9 : SReg)] == 1) = true := by decide +kernel

theorem test_veq_lengths :
    ends (exec (.veq 9 1 4) (vecs.setX 9 5)) (fun t => t.x[(9 : SReg)] == 0 && answered t 0 0) = true := by decide +kernel

theorem test_vrotl :
    ends (exec (.vrotl 3 2) (vecs)) (fun t => hasElems 3 .single [0x40C00000, 0x40E00000, 0x41000000, 0x40A00000] t) = true := by decide +kernel

theorem test_vrotr :
    ends (exec (.vrotr 2 2) (vecs)) (fun t => hasElems 2 .single [0x41000000, 0x40A00000, 0x40C00000, 0x40E00000] t) = true := by decide +kernel

theorem test_vagg :
    ends (exec (.vagg 0 0b110) (vecs)) (fun t => hasElems 0 .single [0x40400000, 0x40800000, 0x40A00000, 0x40C00000] t) = true := by decide +kernel

theorem test_vagg_three :
    ends (exec (.vagg 0 0b1110) (vecs.setV 3 ⟨.single, [0xBF800000, 0x3F000000, 0x3E800000, 0x41200000]⟩)) (fun t => hasElems 0 .single [0x3FD55556, 0x40355556, 0x405AAAAB, 0x40EAAAAB] t) = true := by decide +kernel

theorem test_vaggi :
    ends (exec (.vaggi 5 0b110) (vecs)) (fun t => hasElems 5 .single [0x40400000, 0x40800000, 0x40A00000, 0x40C00000] t) = true := by decide +kernel

theorem test_vaggi_alias :
    ends (exec (.vaggi 1 0b110) (vecs)) (fun t => answered t 13 0 && t.fcmd == 0x51040006) = true := by decide +kernel

/-! ## The step -/

/-- `s` with the given commands presented. -/
def presenting (s : State) (cs : List Command) : State := { s with cmdIn := cs }

theorem test_step_illegal :
    ends (step (presenting base [⟨0x01000001, 7⟩])) (fun t => answered t 1 0 && t.fcmd == 0x01000001 && t.cmdcnt == 1) = true := by
  decide +kernel

theorem test_step_abandons_on_reset :
    ends (step { presenting (with12 5 6) [⟨0x01000000, 0⟩, ⟨0x03004000, 0⟩] with rstIn := [.during] })
      (fun t => decide (t = presenting base [⟨0x03004000, 0⟩])) = true := by decide +kernel

theorem test_step_fetches :
    ends (step (State.reset.withFetchWord 96 0x000000000000000502040000)) (fun t => t.x[(1 : SReg)] == 5) = true := by
  decide +kernel

/-! ## Witnesses: the hypotheses of every statement that has some, met together, and each clause at a boundary -/

theorem takes_presenting (s : State) (c : Command) (cs : List Command) (h : s.hung = false) (hr : s.rstNow = .low) :
    (presenting s (c :: cs)).Takes c { presenting s cs with rstIn := s.rstIn.tail } :=
  ⟨h, hr, cs, rfl, rfl⟩

/-- The state after the one command `c` is taken from `base`. -/
theorem takes_base (c : Command) : (presenting base [c]).Takes c base := takes_presenting base c [] rfl rfl

/-- Both operands held as numbers at the ends of their ranges. -/
theorem witness_DecodeOfEncode :
    (Instr.rdcsr 15 1023).wellFormed = true ∧ (Instr.rdcsr 0 0).wellFormed = true ∧ (Instr.ror64i 15 0 63).wellFormed = true ∧
      (∀ rd d, Instr.rol32i 0 15 0 ≠ .mts rd d) ∧ (Instr.mts 15 0xFFFFFFFFFFFFFFFF).wellFormed = true := by
  refine ⟨by decide, by decide, by decide, ?_, by decide⟩
  intro rd d h
  cases h

theorem witness_EncodeOfDecode :
    decode 0x02380000 7 = .ok (.mts 14 7) ∧ decode 0x043003FF 7 = .ok (.rdcsr 12 0x3FF) ∧
      decode 0x503CFFFF 0 = .ok (.vagg 15 0xFFFF) :=
  ⟨rfl, rfl, rfl⟩

theorem witness_WorkedEncodings : (presenting base [⟨0x28C00000, 9⟩]).Takes ⟨0x28C00000, 9⟩ base := takes_base _

theorem witness_IllegalWordsFault :
    (presenting base [⟨0x18000040, 9⟩]).Takes ⟨0x18000040, 9⟩ base ∧ legalWord 0x18000040 = false ∧ legalWord 0 = false ∧
      legalWord 0xFF000000 = false ∧ legalWord 0x50010000 = false ∧ legalWord 0x1800003F = true ∧
      legalWord 0x51FCFFFF = false ∧ legalWord 0x513CFFFF = true :=
  ⟨takes_base _, by decide, by decide, by decide, by decide, by decide, by decide, by decide⟩

theorem witness_ReservedFormatFaults :
    ((presenting base [⟨0x31FFFC00, 9⟩]).Takes ⟨0x31FFFC00, 9⟩ base ∧ legalWord 0x31FFFC00 = true ∧
      (BitVec.extractLsb 31 24 0x31FFFC00#32).toNat = 0x31 ∧ BitVec.extractLsb 23 22 0x31FFFC00#32 = 3#2) ∧
    (presenting base [⟨0x01400000, 9⟩]).Takes ⟨0x01400000, 9⟩ base ∧
      (BitVec.extractLsb 31 24 0x01400000#32).toNat = 0x01 ∧ BitVec.extractLsb 23 22 0x01400000#32 ≠ 0#2 :=
  ⟨⟨takes_base _, by decide, by decide, by decide⟩, takes_base _, by decide, by decide⟩

theorem witness_StepRunsDecodedCommand :
    (presenting base [⟨0x02040000, 5⟩]).Takes ⟨0x02040000, 5⟩ base ∧ decode 0x02040000 5 = .ok (.mts 1 5) :=
  ⟨takes_base _, rfl⟩

/-- A hung unit with a command presented, and a ready one with none. -/
theorem witness_QuietSteps :
    (presenting { base with hung := true } [⟨0x01000000, 0⟩]).rstNow = .low ∧
      (presenting { base with hung := true } [⟨0x01000000, 0⟩]).hung = true ∧ base.rstNow = .low ∧ base.cmdIn = [] :=
  ⟨rfl, rfl, rfl, rfl⟩

/-- A reset between commands, during one, and while one hangs. -/
theorem witness_ResetEvent :
    ({ base with rstIn := [.between] } : State).rstNow = .between ∧ ({ base with rstIn := [.during] } : State).rstNow = .during ∧
      ({ base with rstIn := [.during, .low], hung := true } : State).rstNow = .during :=
  ⟨rfl, rfl, rfl⟩

theorem witness_ResetStateValues :
    base.params.fillStoreFirst = State.reset.params.fillStoreFirst ∧ (base.setX 1 5).x[(15 : SReg)] = 0 := by decide

/-- A state with every vector, a faulted command behind it and a command before it. -/
def busy : State :=
  presenting { vecs with ferr := 12, fcmd := 0x04080005, cmdcnt := 2, rspOut := [⟨0, 5⟩, ⟨12, 0⟩] } [⟨0x20004000, 0⟩]

theorem busy_inv : busy.Inv where
  params := ⟨by decide, by decide⟩
  vectors := by
    intro r a h
    have key : ∀ r : VReg, (busy.getV r).all (fun a =>
        1 ≤ a.len && a.len ≤ 8 && a.elems.all fun w => w.toNat < 2 ^ a.fmt.width) = true := by decide +kernel
    have ha := key r
    rw [h] at ha
    simp only [Option.all_some, Bool.and_eq_true, decide_eq_true_eq, List.all_eq_true] at ha
    exact ⟨ha.1.1, ha.1.2, ha.2⟩
  responses := by
    intro r hr
    simp only [busy, presenting, List.mem_cons, List.not_mem_nil, or_false] at hr
    rcases hr with rfl | rfl <;> exact ⟨by decide, by decide⟩
  count := by decide
  record := by decide
  noWord := by decide

theorem witness_StepKeepsInvariant : busy.Inv ∧ ends (step busy) (fun t => t.cmdcnt == 3) = true :=
  ⟨busy_inv, by decide +kernel⟩

/-- A command that completes, one that faults, one that hangs; and `cmd_ready` after the first two. -/
theorem witness_ResponseOfEveryCommand :
    (presenting base [⟨0x03004000, 0⟩]).Takes ⟨0x03004000, 0⟩ base ∧ (presenting base [⟨0, 0⟩]).Takes ⟨0, 0⟩ base ∧
      (presenting ((with12 0 0x3800).setGen zeroGen) [⟨0x2B188000, 0⟩]).Takes ⟨0x2B188000, 0⟩
        ((with12 0 0x3800).setGen zeroGen) ∧
      ends (step (presenting base [⟨0x03004000, 0⟩])) State.cmdReady = true ∧
      ends (step (presenting base [⟨0, 0⟩])) State.cmdReady = true :=
  ⟨takes_base _, takes_base _, takes_presenting ((with12 0 0x3800).setGen zeroGen) _ [] rfl rfl, by decide +kernel,
    by decide +kernel⟩

theorem witness_FaultsOfEachInstruction : (Instr.rol64i 1 2 63).wellFormed = true ∧ (Instr.rdcsr 1 1023).wellFormed = true := by
  decide

/-- A first fault, a fault after the first (the record stays), a step that keeps `err` without a fault, one that resets it. -/
theorem witness_ErrLevelAndStickyRecord :
    ((presenting base [⟨0, 0⟩]).Takes ⟨0, 0⟩ base ∧ (presenting base [⟨0, 0⟩]).rstNow = .low ∧
      (presenting base [⟨0, 0⟩]).err = false ∧
      ends (step (presenting base [⟨0, 0⟩])) (fun t => t.err && decide (t.rspOut = [] ++ [⟨1, 0⟩]) && t.ferr == 1) = true) ∧
    ((presenting busy [⟨0, 0⟩]).Takes ⟨0, 0⟩ (presenting busy []) ∧ (presenting busy [⟨0, 0⟩]).err = true ∧
      ends (step (presenting busy [⟨0, 0⟩])) (fun t => decide (t.rspOut = busy.rspOut ++ [⟨1, 0⟩]) && t.ferr == 12) = true) ∧
    (busy.rstNow = .low ∧ busy.err = true ∧ ends (step busy) (fun t => t.err) = true) ∧
    ({ busy with rstIn := [.during] } : State).rstNow ≠ .low ∧
      ends (step { busy with rstIn := [.during] }) (fun t => t.cmdcnt == 0) = true :=
  ⟨⟨takes_base _, rfl, rfl, by decide +kernel⟩, ⟨takes_presenting busy _ [] rfl rfl, rfl, by decide +kernel⟩,
    ⟨rfl, rfl, by decide +kernel⟩, by decide, by decide +kernel⟩

/-- The count at its largest value before a command that ends, and a command that hangs. -/
theorem witness_CmdcntCountsResponses :
    busy.Inv ∧
    (presenting { base with cmdcnt := 0xFFFFFFFFFFFFFFFF } [⟨0x01000000, 0⟩]).Takes ⟨0x01000000, 0⟩
      { base with cmdcnt := 0xFFFFFFFFFFFFFFFF } ∧
    ends (step (presenting { base with cmdcnt := 0xFFFFFFFFFFFFFFFF } [⟨0x01000000, 0⟩])) (fun t => !t.hung && t.cmdcnt == 0) = true ∧
    (presenting ((with12 0 0x3800).setGen zeroGen) [⟨0x2B188000, 0⟩]).rstNow = .low ∧
    ends (step (presenting ((with12 0 0x3800).setGen zeroGen) [⟨0x2B188000, 0⟩])) (fun t => t.hung) = true :=
  ⟨busy_inv, takes_presenting { base with cmdcnt := 0xFFFFFFFFFFFFFFFF } _ [] rfl rfl, by decide +kernel, rfl, by decide +kernel⟩

theorem witness_OnlyRejectionLoopHangs :
    ((with12 1 0x3800).setGen zeroGen).safe = true ∧
      ends (exec (.vgenH 1 1 2) ((with12 1 0x3800).setGen zeroGen)) (fun t => !t.safe) = true := by decide +kernel

theorem witness_ScalarFrame :
    ends (exec (.popc8 3 1) (with12 7 8)) (fun t => t.x[(3 : SReg)] == 3) = true ∧ scalarDest (.popc8 3 1) ≠ some 1 := by
  decide +kernel

theorem witness_VectorFrame :
    ends (exec (.vmul 1 1 2) vecs) (fun t => t.v[(1 : VReg)].isSome) = true ∧ vectorDest (.vmul 1 1 2) ≠ some 2 ∧
      vecs.v[(2 : VReg)] ≠ none := by decide +kernel

theorem witness_GeneratorFrame :
    (ends (exec (.vmul 1 1 2) vecs) (fun t => t.cmdcnt == 1) = true ∧ touchesGen (.vmul 1 1 2) = false) ∧
      ends (exec (.nextu8 1) vecs) (fun t => t.cmdcnt == 1) = true ∧ ∀ rs1, Instr.nextu8 1 ≠ .seed rs1 := by
  refine ⟨by decide +kernel, by decide +kernel, ?_⟩
  intro rs1 h
  cases h

theorem witness_InterfaceFrame : ends (exec .nop { base with hung := true }) (fun t => t.cmdcnt == 1) = true := by
  decide +kernel

/-- The numbers beside the existing ones that do not exist. -/
theorem witness_RdcsrCompletes :
    (0x004 < 0x005 ∧ 0x005 < 0x040) ∧ (0x004 < 0x03F ∧ 0x03F < 0x040) ∧ (0x004 < 0x065 ∧ 0x064 < 0x065) := by decide

/-- `VLMAX` at both ends of its range. -/
theorem witness_ConfigCsrConstant :
    (State.resetFor ⟨1, false, false, .ieee⟩).params.ok ∧ (State.resetFor ⟨2 ^ 31 - 1, false, false, .ieee⟩).params.ok ∧
      ends (step base) (fun t => t.cmdcnt == 0) = true := by
  exact ⟨⟨by decide, by decide⟩, ⟨by decide, by decide⟩, by decide +kernel⟩

theorem witness_RotationBits : (64 = 32 ∨ 64 = 64) ∧ 0 < 64 ∧ 63 < 64 ∧ (32 = 32 ∨ 32 = 64) ∧ 31 < 32 := by decide

theorem witness_RotationLaws : (32 = 32 ∨ 32 = 64) ∧ 0 < 32 ∧ 31 < 32 ∧ 63 < 64 := by decide

/-- Counts 0 and 31 for 32 bits, 63 for 64 bits, in a register and immediate. -/
theorem witness_RotatesComplete :
    31 < 32 ∧ 63 < 64 ∧ (with12 0 31).x[(2 : SReg)].toNat = 31 ∧ (with12 0 63).x[(2 : SReg)].toNat = 63 ∧
      (with12 0 0).x[(2 : SReg)].toNat = 0 := by decide

/-- The first count out of range and the largest. -/
theorem witness_RotateCountFaults :
    32 ≤ (with12 0 32).x[(2 : SReg)].toNat ∧ 64 ≤ (with12 0 64).x[(2 : SReg)].toNat ∧
      64 ≤ (with12 0 0xFFFFFFFFFFFFFFFF).x[(2 : SReg)].toNat ∧ 32 ≤ 32 ∧ 63 < 64 := by decide

/-- The cursor at both ends: its successor, another word, and a generator as seeded. -/
theorem witness_GeneratorStep :
    (1 : Fin 37).val = ((0 : Fin 37).val + 1) % 37 ∧ (0 : Fin 37).val = ((36 : Fin 37).val + 1) % 37 ∧
      base.gen.cur = 0 ∧ (1 : Fin 37) ≠ base.gen.cur := by decide

theorem witness_SeededHalvesEqual :
    (if false = true then 32 else 31) ≤ (31 : Fin 37).val ∧ (if true = true then 32 else 31) ≤ (32 : Fin 37).val := by decide

/-- The default primitives, all words 0, both bounds of epsilon in each format, sizes 1 and `VLMAX`. -/
theorem witness_ZeroGeneratorHangs :
    ((with12 8 0x3800).setGen zeroGen).params.primitives = .ieee ∧
      (∀ i : Fin 37, ((with12 8 0x3800).setGen zeroGen).gen.words[i] = 0) ∧
      (∀ f : Fmt, epsilonInRange f (f.pattern (with12 1 f.epsLo).x[(2 : SReg)]) ∧
        epsilonInRange f (f.pattern (with12 8 f.epsHi).x[(2 : SReg)])) ∧
      1 ≤ (with12 1 0).x[(1 : SReg)].toInt ∧ (with12 8 0).x[(1 : SReg)].toInt ≤ base.params.vlmax := by
  refine ⟨rfl, by decide, ?_, by decide, by decide⟩
  intro f
  cases f <;> unfold epsilonInRange <;> decide +kernel

theorem witness_AssembledValuesComplete : base.params.primitives = .ieee := rfl

theorem witness_AssembledValuesExact : (0x8000#64).toNat % 2 ^ Fmt.half.fracBits = 0 ∧ (1#64).toNat % 2 ^ Fmt.half.fracBits ≠ 0 := by
  decide

/-- Patterns at and just beyond both bounds, and a NaN, with valid sizes. -/
theorem witness_EpsilonRange :
    (0x2E66#64).toNat < 2 ^ Fmt.half.width ∧ (0x3800#64).toNat < 2 ^ Fmt.half.width ∧
      (¬ epsilonInRange .half (Fmt.half.pattern (with12 1 0x2E65).x[(2 : SReg)]) ∧
        ¬ epsilonInRange .half (Fmt.half.pattern (with12 1 0x3801).x[(2 : SReg)]) ∧
        ¬ epsilonInRange .half (Fmt.half.pattern (with12 1 0x7E00).x[(2 : SReg)]) ∧
        ¬ epsilonInRange .half (Fmt.half.pattern (with12 1 0xB000).x[(2 : SReg)])) ∧
      1 ≤ (with12 1 0).x[(1 : SReg)].toInt ∧ (with12 8 0).x[(1 : SReg)].toInt ≤ base.params.vlmax := by
  refine ⟨by decide, by decide, ?_, by decide, by decide⟩
  unfold epsilonInRange
  decide +kernel

/-- Sample 0 of a generator of zeros is rejected, and so are all others: the array stays zero. -/
theorem zeroGen_rejects (f : Fmt) (e : Word) (k : Nat) : sampleAccepted .ieee f e zeroGen k = false := by
  have zero : ∀ k : Nat, (Gen.advance^[k] zeroGen).words.toList.all (fun w => w == 0) = true := by
    intro k
    induction k with
    | zero => decide
    | succ k ih => rw [Function.iterate_succ_apply']; exact (advance_allZero ih).2
  have word : ∀ g : Gen, g.words.toList.all (fun w => w == 0) = true → g.words[g.cur] = 0 := by
    intro g h
    have h' := List.all_eq_true.1 h g.words[g.cur] (by simp)
    simpa using h'
  have first : ∀ f : Fmt, unitValue .ieee f 0 = some 0 := by intro f; cases f <;> decide +kernel
  unfold sampleAccepted loopSample
  simp only [word _ (zero k), first]
  cases f <;> simp

/-- In the default primitives: sample 0 accepted at once, sample 1 the first accepted one, and none ever. -/
theorem witness_NextvecCompletes :
    (epsilonInRange .half (Fmt.half.pattern (with12 0 0x3800).x[(2 : SReg)]) ∧
      loopSample .ieee .half base.gen 0 = some 0x3B46 ∧
      sampleAccepted .ieee .half (Fmt.half.pattern (with12 0 0x3800).x[(2 : SReg)]) base.gen 0 = true) ∧
    (epsilonInRange .single (Fmt.single.pattern (with12 0 0x3DCCCCCD).x[(2 : SReg)]) ∧
      loopSample .ieee .single base.gen 1 = some 0xBF44DC76 ∧
      sampleAccepted .ieee .single (Fmt.single.pattern (with12 0 0x3DCCCCCD).x[(2 : SReg)]) base.gen 1 = true ∧
      ∀ j < 1, sampleAccepted .ieee .single (Fmt.single.pattern (with12 0 0x3DCCCCCD).x[(2 : SReg)]) base.gen j = false) ∧
    ∀ k : Nat, sampleAccepted .ieee .half (Fmt.half.pattern (with12 0 0x3800).x[(2 : SReg)]) zeroGen k = false := by
  refine ⟨⟨?_, by decide +kernel, by decide +kernel⟩, ⟨?_, by decide +kernel, by decide +kernel, by decide +kernel⟩,
    fun k => zeroGen_rejects _ _ k⟩ <;>
    unfold epsilonInRange <;> decide +kernel

/-- Sizes 0, the most negative one, and `VLMAX + 1`. -/
theorem witness_SizeFaults :
    (with12 0 0).x[(1 : SReg)].toInt < 1 ∧ (with12 0x8000000000000000 0).x[(1 : SReg)].toInt < 1 ∧
      (base.params.vlmax : Int) < (with12 9 0).x[(1 : SReg)].toInt := by decide

theorem witness_VnewCompletes :
    ((with12 1 0).x[(1 : SReg)].toInt = (1 : Nat) ∧ 1 ≤ 1 ∧ 1 ≤ base.params.vlmax) ∧
      (with12 8 0).x[(1 : SReg)].toInt = (8 : Nat) ∧ 8 ≤ base.params.vlmax := by decide

/-- R199's example: sample 5 is the 4th accepted one; and a generator that never has one. -/
theorem witness_VgenCompletes :
    ((with12 4 0x3DCCCCCD).x[(1 : SReg)].toInt = (4 : Nat) ∧ 1 ≤ 4 ∧ 4 ≤ base.params.vlmax ∧
      epsilonInRange .single (Fmt.single.pattern (with12 4 0x3DCCCCCD).x[(2 : SReg)]) ∧
      sampleAccepted .ieee .single (Fmt.single.pattern (with12 4 0x3DCCCCCD).x[(2 : SReg)]) base.gen 5 = true ∧
      ((List.range 6).filter
        (sampleAccepted .ieee .single (Fmt.single.pattern (with12 4 0x3DCCCCCD).x[(2 : SReg)]) base.gen)).length = 4 ∧
      ((List.range 6).filter
        (sampleAccepted .ieee .single (Fmt.single.pattern (with12 4 0x3DCCCCCD).x[(2 : SReg)]) base.gen)).map
        (loopSample .ieee .single base.gen) = [0xBF44DC76#64, 0x3DFB7EC0, 0x3E9D15BC, 0xBEF5C4D0].map some) ∧
    ∀ count : Nat, ((List.range count).filter
      (sampleAccepted .ieee .single (Fmt.single.pattern (with12 4 0x3DCCCCCD).x[(2 : SReg)]) zeroGen)).length < 4 := by
  refine ⟨⟨by decide, by decide, by decide, ?_, by decide +kernel, by decide +kernel, by decide +kernel⟩, ?_⟩
  · unfold epsilonInRange
    decide +kernel
  · intro count
    simp [List.filter_eq_nil_iff.2, zeroGen_rejects]

/-- An invalid register; a valid one with the indices 0, the last, and the length. -/
theorem witness_VectorAccessCompletes :
    vecs.v[(9 : VReg)] = none ∧ vecs.v[(3 : VReg)] = some ⟨.half, [0x4200, 0x4400]⟩ ∧
      (⟨.half, [0x4200, 0x4400]⟩ : VecReg).len < 2 ^ 31 ∧
      (vecs.setX 2 1).x[(2 : SReg)].toNat < [0x4200#64, 0x4400#64].length ∧ vecs.x[(1 : SReg)].toNat < [0x4200#64, 0x4400#64].length ∧
      [0x4200#64, 0x4400#64].length ≤ (vecs.setX 2 2).x[(2 : SReg)].toNat ∧
      [0x4200#64, 0x4400#64].length ≤ (vecs.setX 1 0xFFFFFFFFFFFFFFFF).x[(1 : SReg)].toNat := by decide +kernel

/-- An invalid register; masks that hold it, without and with another destination; a mask without it. -/
theorem witness_InvalidRegisterFaults :
    vecs.v[(15 : VReg)] = none ∧ (0x8002#16).getLsbD 15 = true ∧ (0x8002#16).getLsbD 5 = false ∧ (2#16) ≠ 0 ∧
      (2#16).getLsbD 15 = false := by decide +kernel

/-- An invalid source; two formats; one format and two lengths. -/
theorem witness_CompatibilityFaults :
    Instr.vcos 1 1 2 ∈ [Instr.vdot 1 1 2, .vcos 1 1 2, .vmul 0 1 2] ∧ vecs.v[(9 : VReg)] = none ∧
      (∃ a b : VecReg, vecs.v[(1 : VReg)] = some a ∧ vecs.v[(3 : VReg)] = some b ∧ a.fmt ≠ b.fmt) ∧
      ∃ a b : VecReg, vecs.v[(1 : VReg)] = some a ∧ vecs.v[(4 : VReg)] = some b ∧ a.fmt = b.fmt ∧ a.len ≠ b.len :=
  ⟨by decide, by decide +kernel, ⟨_, _, rfl, rfl, by decide⟩, ⟨_, _, rfl, rfl, rfl, by decide⟩⟩

theorem witness_NormDotCosineComplete :
    vecs.params.primitives = .ieee ∧
      ∃ a b : VecReg, vecs.v[(1 : VReg)] = some a ∧ vecs.v[(2 : VReg)] = some b ∧ a.fmt = b.fmt ∧ a.len = b.len :=
  ⟨rfl, _, _, rfl, rfl, rfl, rfl⟩

theorem witness_MultiplyCompletes :
    ∃ a b : VecReg, vecs.v[(1 : VReg)] = some a ∧ vecs.v[(2 : VReg)] = some b ∧ a.fmt = b.fmt ∧ a.len = b.len :=
  ⟨_, _, rfl, rfl, rfl, rfl⟩

/-- An invalid source; two formats; two lengths; one format and length. -/
theorem witness_EqualityCompletes :
    vecs.v[(9 : VReg)] = none ∧
      (∃ a b : VecReg, vecs.v[(1 : VReg)] = some a ∧ vecs.v[(3 : VReg)] = some b ∧ a.fmt ≠ b.fmt) ∧
      (∃ a b : VecReg, vecs.v[(1 : VReg)] = some a ∧ vecs.v[(4 : VReg)] = some b ∧ a.fmt = b.fmt ∧ a.len ≠ b.len) ∧
      ∃ a b : VecReg, vecs.v[(1 : VReg)] = some a ∧ vecs.v[(2 : VReg)] = some b ∧ a.fmt = b.fmt ∧ a.len = b.len :=
  ⟨by decide +kernel, ⟨_, _, rfl, rfl, by decide⟩, ⟨_, _, rfl, rfl, rfl, by decide⟩, ⟨_, _, rfl, rfl, rfl, rfl⟩⟩

theorem witness_RotateVectorCompletes : ∃ a : VecReg, vecs.v[(4 : VReg)] = some a ∧ a.len = 3 := ⟨_, rfl, rfl⟩

theorem witness_RotationAndCopyLaws : ∃ a : VecReg, vecs.v[(4 : VReg)] = some a ∧ a.len = 3 := ⟨_, rfl, rfl⟩

/-- Two members and, for `VAGGI`, a destination of their format and length outside the mask. -/
theorem witness_AggregationCompletes :
    ∃ m1 m2 self : VecReg, [m1, m2] ≠ [] ∧ vecs.collectionOf 0b110 = [m1, m2].map some ∧
      (∀ m ∈ [m1, m2], m.fmt = .single ∧ m.len = 4) ∧ (0b110#16).getLsbD 5 = false ∧ vecs.v[(5 : VReg)] = some self ∧
      self.fmt = .single ∧ self.len = 4 ∧ vecs.params.primitives = .ieee := by
  refine ⟨⟨.single, [0x3F800000, 0x40000000, 0x40400000, 0x40800000]⟩,
    ⟨.single, [0x40A00000, 0x40C00000, 0x40E00000, 0x41000000]⟩, ⟨.single, [0, 0, 0, 0]⟩, ?_⟩
  decide +kernel

/-- Each clause: an invalid member; a second format, first member and `vd`; a second length; the mask with and without `vd`. -/
theorem witness_AggregationFaults :
    none ∈ vecs.collectionOf 0x8002 ∧ (0b110#16).getLsbD 2 = true ∧ (0b110#16) ≠ 0 ∧ (0b110#16).getLsbD 5 = false ∧
      vecs.v[(9 : VReg)] = none ∧
      (∃ m1 m3 : VecReg, vecs.collectionOf 0b1010 = [m1, m3].map some ∧ m3.fmt ≠ m1.fmt) ∧
      (∃ m1 m4 : VecReg, vecs.collectionOf 0b10010 = [m1, m4].map some ∧ m4.fmt = m1.fmt ∧ m4.len ≠ m1.len) ∧
      (∃ self m3 : VecReg, vecs.v[(5 : VReg)] = some self ∧ vecs.collectionOf 0b1000 = [m3].map some ∧ m3.fmt ≠ self.fmt) ∧
      ∃ self m4 : VecReg, vecs.v[(5 : VReg)] = some self ∧ vecs.collectionOf 0b10000 = [m4].map some ∧ m4.fmt = self.fmt ∧
        m4.len ≠ self.len := by
  refine ⟨by decide +kernel, by decide, by decide, by decide, by decide +kernel, ?_, ?_, ?_, ?_⟩
  · exact ⟨⟨.single, [0x3F800000, 0x40000000, 0x40400000, 0x40800000]⟩, ⟨.half, [0x4200, 0x4400]⟩, by decide +kernel⟩
  · exact ⟨⟨.single, [0x3F800000, 0x40000000, 0x40400000, 0x40800000]⟩, ⟨.single, [0xBF800000, 0x80000000, 0]⟩,
      by decide +kernel⟩
  · exact ⟨⟨.single, [0, 0, 0, 0]⟩, ⟨.half, [0x4200, 0x4400]⟩, by decide +kernel⟩
  · exact ⟨⟨.single, [0, 0, 0, 0]⟩, ⟨.single, [0xBF800000, 0x80000000, 0]⟩, by decide +kernel⟩

/-- Half: 1/3 unit, a tie, the last magnitude below the threshold and the threshold itself; another magnitude to compare with. -/
theorem witness_RationalRounding :
    0 < 1 ∧ 0 < 3 ∧ Fmt.half.roundRatio 1 3 = 0 ∧ Fmt.half.roundRatio 3 2 = 2 ∧ 1 ≤ Fmt.half.infBits ∧ 1 ≠ 0 ∧
      Fmt.half.roundRatio ((2 ^ 12 - 1) * 2 ^ 28 - 1) 1 < Fmt.half.infBits ∧
      Fmt.half.roundRatio ((2 ^ 12 - 1) * 2 ^ 28) 1 = Fmt.half.infBits := by decide +kernel

/-- The smallest and the largest positive half number, with magnitudes on both sides of the root. -/
theorem witness_SquareRootRounding :
    ([0x0001#64, 0x7BFF#64].all fun a => !Fmt.half.isNaN a && !Fmt.half.isInf a && !Fmt.half.isZero a &&
      !Fmt.half.sign a) = true ∧
    fsqrtVal .half 0x0001 = some 0x0C00 ∧ 0 < 0x0C00 ∧ 0x0C00 < Fmt.half.infBits := by decide +kernel

/-- In half: a NaN, both infinities, both zeros, a positive and a negative number meet the clauses' hypotheses. -/
theorem witness_PrimitiveCases :
    Fmt.half.isNaN 0x7E00 = true ∧ Fmt.half.isInf 0x7C00 = true ∧ Fmt.half.isInf 0xFC00 = true ∧ Fmt.half.sign 0x7C00 = false ∧
      (Fmt.half.isZero 0x8000 = true ∧ Fmt.half.isNaN 0x8000 = false ∧ Fmt.half.isInf 0x8000 = false) ∧
      (Fmt.half.isNaN 0xBC00 = false ∧ Fmt.half.isInf 0xBC00 = false ∧ Fmt.half.isZero 0xBC00 = false ∧
        Fmt.half.sign 0xBC00 = true) ∧
      Fmt.half.isNaN 0x0001 = false ∧ Fmt.half.isInf 0x0001 = false ∧ Fmt.half.isZero 0x0001 = false := by decide +kernel

theorem witness_SumsAndProductsCommute : [0x3C00#64, 0x4000#64].length = [0x4200#64, 0x7E00#64].length := rfl

theorem witness_ReciprocalTable : 1 ≤ 1 ∧ 1 ≤ 16 ∧ 16 ≤ 16 := by decide

/-- A sum; the NaNs with the smallest and the largest pattern. -/
theorem witness_NanResults :
    some 0x4000#64 ∈ [Primitives.ieee.fadd .half 0x3C00 0x3C00] ∧
    (0x7C01#64).toNat < 2 ^ Fmt.half.width ∧ Fmt.half.isNaN 0x7C01 = true ∧ (0xFFFF#64).toNat < 2 ^ Fmt.half.width ∧
      Fmt.half.isNaN 0xFFFF = true := by decide +kernel

/-- A NaN, both infinities, the largest finite number and zeros, as half patterns. -/
theorem witness_Comparisons :
    ([0x7C01#64, 0x7C00#64, 0xFC00#64, 0x7BFF#64, 0x8000#64].all fun a => a.toNat < 2 ^ Fmt.half.width) = true ∧
      Fmt.half.isNaN 0x7C01 = true ∧
      ([0x7C00#64, 0xFC00#64, 0x7BFF#64, 0x8000#64].all fun a => !Fmt.half.isNaN a) = true ∧
      Fmt.half.isInf 0x7C00 = true ∧ Fmt.half.sign 0x7C00 = false ∧ Fmt.half.isInf 0xFC00 = true ∧
      Fmt.half.sign 0xFC00 = true ∧ Fmt.half.sign 0x7BFF = false := by decide +kernel

end Sys2Proof.Tests
end

/-! # What a command can do, and the statements of family 00_scope

One inversion lemma, `exec_cases`, says what any instruction can do to the state; the step invariant and the frames follow from
it. -/

namespace Sys2Proof

/-! ## Elements of result vectors are patterns of the format (R22, R23) -/

theorem mulElems_lt {p : Primitives} {f : Fmt} {as bs : List Word} {k : Nat} :
    ∀ w ∈ (mulElems p f as bs k).1, w.toNat < 2 ^ f.width := by
  induction as generalizing bs k with
  | nil => simp [mulElems]
  | cons a as ih =>
    cases bs with
    | nil => simp [mulElems]
    | cons b bs => exact List.forall_mem_cons.2 ⟨fmul_lt p f a b k, ih⟩

theorem scaleElems_lt {p : Primitives} {f : Fmt} {r : Word} {as : List Word} {k : Nat} :
    ∀ w ∈ (scaleElems p f r as k).1, w.toNat < 2 ^ f.width := by
  induction as generalizing k with
  | nil => simp [scaleElems]
  | cons a as ih => exact List.forall_mem_cons.2 ⟨fmul_lt p f a r k, ih⟩

theorem aggregate_lt {p : Primitives} {f : Fmt} {ms : List (List Word)} {n k : Nat} :
    ∀ w ∈ (aggregate p f ms n k).1, w.toNat < 2 ^ f.width :=
  scaleElems_lt

theorem mem_rotlElems {as : List Word} {w : Word} : w ∈ rotlElems as ↔ w ∈ as := by
  cases as <;> simp [rotlElems, or_comm]

theorem mem_rotrElems {as : List Word} {w : Word} : w ∈ rotrElems as ↔ w ∈ as := by
  rcases List.eq_nil_or_concat as with rfl | ⟨init, last, rfl⟩ <;> simp [rotrElems, or_comm]

end Sys2Proof

namespace Sys2Proof.Machine

/-! ## Well-formed vector registers (R23) -/

/-- Every valid vector register is as R23 says: the field `vectors` of the invariant. -/
def State.VectorsOk (s : State) : Prop := ∀ r a, s.getV r = some a → a.wf s.params.vlmax

/-- A vector with the length of a well-formed one, and with patterns of its own format for elements, is well-formed. -/
theorem VecReg.wf.of_length_eq {vlmax : Nat} {a : VecReg} (ha : a.wf vlmax) {f : Fmt} {es : List Word}
    (hlen : es.length = a.len) (hes : ∀ w ∈ es, w.toNat < 2 ^ f.width) : VecReg.wf vlmax ⟨f, es⟩ := by
  obtain ⟨hpos, hle, -⟩ := ha
  exact ⟨hpos.trans_eq hlen.symm, hlen.trans_le hle, hes⟩

/-- A vector with the length, the format and no elements but those of a well-formed one is well-formed. -/
theorem VecReg.wf.of_mem {vlmax : Nat} {a : VecReg} (ha : a.wf vlmax) {es : List Word} (hlen : es.length = a.len)
    (hmem : ∀ w ∈ es, w ∈ a.elems) : VecReg.wf vlmax ⟨a.fmt, es⟩ := by
  have ⟨_, _, helems⟩ := ha
  exact ha.of_length_eq hlen fun w hw => helems w (hmem w hw)

/-- One element of a well-formed vector may become any pattern of its format (R196). -/
theorem VecReg.wf.set {vlmax : Nat} {a : VecReg} (ha : a.wf vlmax) (j : Nat) (v : Word) :
    VecReg.wf vlmax ⟨a.fmt, a.elems.set j (a.fmt.pattern v)⟩ := by
  have ⟨_, _, helems⟩ := ha
  refine ha.of_length_eq List.length_set fun w hw => ?_
  obtain hold | rfl := List.mem_or_eq_of_mem_set hw
  · exact helems w hold
  · exact a.fmt.pattern_lt v

/-- A vector of an accepted size is well-formed (R191). -/
theorem wf_of_sizeOperand {s : State} {r : SReg} {n : Nat} (hn : s.sizeOperand r = .ok n) {f : Fmt} {es : List Word}
    (hlen : es.length = n) (hes : ∀ w ∈ es, w.toNat < 2 ^ f.width) : VecReg.wf s.params.vlmax ⟨f, es⟩ := by
  obtain ⟨-, hpos, hle⟩ := sizeOperand_eq_ok.1 hn
  exact ⟨hpos.trans_eq hlen.symm, hlen.trans_le hle, hes⟩

/-- The reference vector of a collection is in a vector register. -/
theorem collection_reference {s : State} {mask : BitVec 16} {ref : VecReg} {as : List VecReg}
    (h : s.collection mask = .ok (ref, as)) : ∃ r, s.getV r = some ref := by
  obtain ⟨hhead, hmembers, -⟩ := collection_eq_ok.1 h
  have hmem : some ref ∈ (members mask).map s.getV := hmembers ▸ List.mem_map_of_mem (List.mem_of_head? hhead)
  obtain ⟨r, -, hr⟩ := List.mem_map.1 hmem
  exact ⟨r, hr⟩

/-! ## The operand checks answer or fault, they do not hang (R10) -/

/-- A check of a command: whatever it answers, it is no hang. -/
def IsCheck {α : Type} (m : Except Stop α) : Prop := m ≠ .error .hang

theorem isCheck_ok {α : Type} (a : α) : IsCheck (.ok a) := nofun

theorem isCheck_raise {α : Type} (c : FaultCode) : IsCheck (raise c : Except Stop α) := by simp [IsCheck]

theorem IsCheck.bind {α β : Type} {m : Except Stop α} {k : α → Except Stop β} (hm : IsCheck m) (hk : ∀ a, IsCheck (k a)) :
    IsCheck (m >>= k) := by
  cases m with
  | error e => simpa [IsCheck] using hm
  | ok a => exact hk a

theorem isCheck_ite {α : Type} {c : Prop} [Decidable c] {m n : Except Stop α} (hm : IsCheck m) (hn : IsCheck n) :
    IsCheck (if c then m else n) := by
  split <;> assumption

theorem isCheck_rotateCount (width n : Nat) : IsCheck (rotateCount width n) :=
  isCheck_ite (isCheck_raise _) (isCheck_ok _)

theorem isCheck_sizeOperand (s : State) (r : SReg) : IsCheck (s.sizeOperand r) :=
  isCheck_ite (isCheck_raise _) (isCheck_ite (isCheck_raise _) (isCheck_ok _))

theorem isCheck_epsilonOperand (s : State) (f : Fmt) (r : SReg) : IsCheck (s.epsilonOperand f r) :=
  isCheck_ite (isCheck_ok _) (isCheck_raise _)

theorem isCheck_indexOperand (s : State) (a : VecReg) (r : SReg) : IsCheck (s.indexOperand a r) :=
  isCheck_ite (isCheck_raise _) (isCheck_ok _)

theorem isCheck_vecOperand (s : State) (r : VReg) : IsCheck (s.vecOperand r) := by
  cases h : s.getV r with
  | none => exact vecOperand_none h ▸ isCheck_raise _
  | some a => exact vecOperand_some h ▸ isCheck_ok _

theorem isCheck_vecsOfOneFormat (s : State) (r1 r2 : VReg) : IsCheck (s.vecsOfOneFormat r1 r2) :=
  (isCheck_vecOperand s r1).bind fun _ => (isCheck_vecOperand s r2).bind fun _ =>
    isCheck_ite (isCheck_raise _) (isCheck_ok _)

theorem isCheck_compatibleVecs (s : State) (r1 r2 : VReg) : IsCheck (s.compatibleVecs r1 r2) :=
  (isCheck_vecsOfOneFormat s r1 r2).bind fun _ => isCheck_ite (isCheck_raise _) (isCheck_ok _)

theorem isCheck_vecsOf (s : State) (rs : List VReg) : IsCheck (s.vecsOf rs) := by
  induction rs with
  | nil => exact isCheck_ok _
  | cons r rs ih => exact (isCheck_vecOperand s r).bind fun _ => ih.bind fun _ => isCheck_ok _

theorem isCheck_membersAgree (ref : VecReg) (as : List VecReg) : IsCheck (membersAgree ref as) :=
  isCheck_ite (isCheck_raise _) (isCheck_ite (isCheck_raise _) (isCheck_ok _))

theorem isCheck_collection (s : State) (mask : BitVec 16) : IsCheck (s.collection mask) := by
  refine isCheck_ite (isCheck_raise _) ((isCheck_vecsOf s _).bind fun as => ?_)
  cases as with
  | nil => exact isCheck_raise _
  | cons a as => exact (isCheck_membersAgree a (a :: as)).bind fun _ => isCheck_ok _

theorem isCheck_collectionFor (s : State) (vd : VReg) (mask : BitVec 16) : IsCheck (s.collectionFor vd mask) :=
  isCheck_ite (isCheck_raise _) <| isCheck_ite (isCheck_raise _) <|
    (isCheck_vecOperand s vd).bind fun ref => (isCheck_vecsOf s _).bind fun as =>
      (isCheck_membersAgree ref as).bind fun _ => isCheck_ok _

/-! ## What a command's own part can do -/

/-- The commands with a rejection loop (R160): `NEXTVEC` and `VGEN` in the three formats. -/
def RejectionLoop (i : Instr) : Prop :=
  (∃ f rd rs1, i = Fmt.nextvec f rd rs1) ∨ ∃ f vd rs1 rs2, i = Fmt.vgen f vd rs1 rs2

/-- `Effect i s t`: a completing `i` may have made `t` of `s` before its response. It replaces the generator or leaves it, and it
writes no register, or the scalar register it names, or the vector register it names: that one with a vector as R23 says when
the registers of `s` are so. -/
inductive Effect (i : Instr) (s : State) : State → Prop
  | noRegister (g : Gen) : Effect i s (s.setGen g)
  | scalar {rd : SReg} (hd : scalarDest i = some rd) (g : Gen) (k : Nat) (w : Word) :
      Effect i s (((s.setGen g).setDraws k).setX rd w)
  | vector {vd : VReg} (hd : vectorDest i = some vd) (g : Gen) (k : Nat) (a : VecReg)
      (ha : s.VectorsOk → a.wf s.params.vlmax) : Effect i s (((s.setGen g).setDraws k).setV vd a)

/-- `BodyOk i s b`: `b` is what the own part of `i` may answer in `s`. -/
inductive BodyOk (i : Instr) (s : State) : Body → Prop
  | ok {t : State} (h : Effect i s t) (w : Word) : BodyOk i s (.ok (t, w))
  | fault (c : FaultCode) : BodyOk i s (raise c)
  | hang (h : RejectionLoop i) : BodyOk i s (.error .hang)

section Bodies

variable {i : Instr} {s : State} {rd rs1 rs2 : SReg} {vd : VReg}

/-- A check before the rest of a body: the rest may use that the check has answered. -/
theorem BodyOk.bind {α : Type} {m : Except Stop α} {k : α → Body} (hm : IsCheck m)
    (hk : ∀ a, m = .ok a → BodyOk i s (k a)) : BodyOk i s (m >>= k) := by
  match m, hm with
  | .ok a, _ => exact hk a rfl
  | .error (.fault c), _ => exact .fault c
  | .error .hang, hm => exact absurd rfl hm

/-- A body that writes one scalar register. -/
theorem BodyOk.setX (hd : scalarDest i = some rd) (g : Gen) (k : Nat) (w : Word) :
    BodyOk i s (done (((s.setGen g).setDraws k).setX rd w)) := .ok (.scalar hd g k w) 0

/-- A body that writes one vector register. -/
theorem BodyOk.setV (hd : vectorDest i = some vd) (g : Gen) (k : Nat) {a : VecReg}
    (ha : s.VectorsOk → a.wf s.params.vlmax) : BodyOk i s (done (((s.setGen g).setDraws k).setV vd a)) :=
  .ok (.vector hd g k a ha) 0

/-- A body that writes one scalar register and does not draw. -/
theorem BodyOk.onlyX (hd : scalarDest i = some rd) (w : Word) : BodyOk i s (done (s.setX rd w)) :=
  .setX hd s.gen s.nanDraws w

theorem rolBody_ok (hd : scalarDest i = some rd) (n count : Nat) : BodyOk i s (rolBody n rd rs1 count s) :=
  .bind (isCheck_rotateCount n count) fun _ _ => .onlyX hd _

theorem rorBody_ok (hd : scalarDest i = some rd) (n count : Nat) : BodyOk i s (rorBody n rd rs1 count s) :=
  .bind (isCheck_rotateCount n count) fun _ _ => .onlyX hd _

theorem assembleBody_ok (hd : scalarDest i = some rd) (f : Fmt) (value : Word → Option Word) :
    BodyOk i s (assembleBody f value rd s) := .setX hd _ _ _

theorem nextUBody_ok (hd : scalarDest i = some rd) (n : Nat) : BodyOk i s (nextUBody n rd s) :=
  .setX hd s.gen.step64.2 s.nanDraws _

theorem nextvecBody_ok (hd : scalarDest i = some rd) (hi : RejectionLoop i) (f : Fmt) :
    BodyOk i s (nextvecBody f rd rs1 s) := by
  refine .bind (isCheck_epsilonOperand s f rs1) fun e _ => ?_
  cases nextVec s.params.primitives f e s.gen with
  | none => exact .hang hi
  | some r => exact .setX hd r.2 s.nanDraws r.1

theorem vnewBody_ok (hd : vectorDest i = some vd) (f : Fmt) : BodyOk i s (vnewBody f vd rs1 s) := by
  refine .bind (isCheck_sizeOperand s rs1) fun n hn => .setV hd s.gen s.nanDraws fun _ => ?_
  have hzero : ∀ w ∈ List.replicate n (0 : Word), w.toNat < 2 ^ f.width := by
    intro w hw
    simp [List.eq_of_mem_replicate hw]
  exact wf_of_sizeOperand hn List.length_replicate hzero

theorem vgenBody_ok (hd : vectorDest i = some vd) (hi : RejectionLoop i) (f : Fmt) :
    BodyOk i s (vgenBody f vd rs1 rs2 s) := by
  refine .bind (isCheck_sizeOperand s rs1) fun n hn => .bind (isCheck_epsilonOperand s f rs2) fun e _ => ?_
  cases hg : genElements s.params.primitives f e n s.gen with
  | none => exact .hang hi
  | some r =>
    refine .setV hd r.2 s.nanDraws fun _ => wf_of_sizeOperand hn (genElements_length hg) ?_
    exact fun w hw => (genElements_accepted hg w hw).1

end Bodies

/-! ## What an instruction can do -/

/-- Every instruction is `finish` of a body that is as `BodyOk` says. -/
theorem exec_body (i : Instr) (s : State) : ∃ b, exec i s = finish i s b ∧ BodyOk i s b := by
  cases i with
  | nop | mfs _ => exact ⟨_, rfl, .ok (.noRegister s.gen) _⟩
  | seed rs1 => exact ⟨_, rfl, .ok (.noRegister _) _⟩
  | rdcsr rd csr =>
    refine ⟨_, rfl, ?_⟩
    cases s.readCsr csr with
    | none => exact .fault .csr
    | some w => exact .onlyX rfl w
  | mts rd _ | popc8 rd _ | popc16 rd _ | popc32 rd _ | popc64 rd _ | vinfo rd _ => exact ⟨_, rfl, .onlyX rfl _⟩
  | rol32 rd _ _ | rol64 rd _ _ | rol32i rd _ _ | rol64i rd _ _ => exact ⟨_, rfl, rolBody_ok rfl _ _⟩
  | ror32 rd _ _ | ror64 rd _ _ | ror32i rd _ _ | ror64i rd _ _ => exact ⟨_, rfl, rorBody_ok rfl _ _⟩
  | nextu64 rd | nextu32 rd | nextu16 rd | nextu8 rd | nextbool rd => exact ⟨_, rfl, nextUBody_ok rfl _⟩
  | next12H rd => exact ⟨_, rfl, assembleBody_ok rfl .half fun u => some (next12Of .half u)⟩
  | next12S rd => exact ⟨_, rfl, assembleBody_ok rfl .single fun u => some (next12Of .single u)⟩
  | next12D rd => exact ⟨_, rfl, assembleBody_ok rfl .double fun u => some (next12Of .double u)⟩
  | next01H rd | next01S rd | next01D rd | nextunitH rd | nextunitS rd | nextunitD rd =>
    exact ⟨_, rfl, assembleBody_ok rfl _ _⟩
  | next12Fmt3 _ | next01Fmt3 _ | nextunitFmt3 _ | nextvecFmt3 _ _ | vnewFmt3 _ _ | vgenFmt3 _ _ _ =>
    exact ⟨_, rfl, .fault .fmt⟩
  | nextvecH rd rs1 => exact ⟨_, rfl, nextvecBody_ok rfl (.inl ⟨.half, rd, rs1, rfl⟩) .half⟩
  | nextvecS rd rs1 => exact ⟨_, rfl, nextvecBody_ok rfl (.inl ⟨.single, rd, rs1, rfl⟩) .single⟩
  | nextvecD rd rs1 => exact ⟨_, rfl, nextvecBody_ok rfl (.inl ⟨.double, rd, rs1, rfl⟩) .double⟩
  | vnewH vd _ | vnewS vd _ | vnewD vd _ => exact ⟨_, rfl, vnewBody_ok rfl _⟩
  | vgenH vd rs1 rs2 => exact ⟨_, rfl, vgenBody_ok rfl (.inr ⟨.half, vd, rs1, rs2, rfl⟩) .half⟩
  | vgenS vd rs1 rs2 => exact ⟨_, rfl, vgenBody_ok rfl (.inr ⟨.single, vd, rs1, rs2, rfl⟩) .single⟩
  | vgenD vd rs1 rs2 => exact ⟨_, rfl, vgenBody_ok rfl (.inr ⟨.double, vd, rs1, rs2, rfl⟩) .double⟩
  | vcopy vd vs1 =>
    exact ⟨_, rfl, .bind (isCheck_vecOperand s vs1) fun a ha =>
      .setV rfl s.gen s.nanDraws fun hs => hs vs1 a (vecOperand_eq_ok.1 ha)⟩
  | vgete rd vs1 rs2 =>
    exact ⟨_, rfl, .bind (isCheck_vecOperand s vs1) fun a _ => .bind (isCheck_indexOperand s a rs2) fun _ _ => .onlyX rfl _⟩
  | vsete vd rs1 rs2 =>
    exact ⟨_, rfl, .bind (isCheck_vecOperand s vd) fun a ha => .bind (isCheck_indexOperand s a rs1) fun j _ =>
      .setV rfl s.gen s.nanDraws fun hs => (hs vd a (vecOperand_eq_ok.1 ha)).set j _⟩
  | vnorm rd vs1 =>
    exact ⟨_, rfl, .bind (isCheck_vecOperand s vs1) fun _ _ => .setX rfl s.gen _ _⟩
  | vdot rd vs1 vs2 | vcos rd vs1 vs2 =>
    exact ⟨_, rfl, .bind (isCheck_compatibleVecs s vs1 vs2) fun _ _ => .setX rfl s.gen _ _⟩
  | vmul vd vs1 vs2 =>
    refine ⟨_, rfl, .bind (isCheck_compatibleVecs s vs1 vs2) fun ⟨a, b⟩ hab => .setV rfl s.gen _ fun hs => ?_⟩
    obtain ⟨ha, -, -, hlen⟩ := compatibleVecs_eq_ok.1 hab
    exact (hs vs1 a ha).of_length_eq (mulElems_length _ _ _ _ _ hlen) mulElems_lt
  | veq rd vs1 vs2 =>
    exact ⟨_, rfl, .bind (isCheck_vecsOfOneFormat s vs1 vs2) fun _ _ => .onlyX rfl _⟩
  | vrotl vd vs1 =>
    exact ⟨_, rfl, .bind (isCheck_vecOperand s vs1) fun a ha => .setV rfl s.gen s.nanDraws fun hs =>
      (hs vs1 a (vecOperand_eq_ok.1 ha)).of_mem (rotlElems_length _) fun _ => mem_rotlElems.1⟩
  | vrotr vd vs1 =>
    exact ⟨_, rfl, .bind (isCheck_vecOperand s vs1) fun a ha => .setV rfl s.gen s.nanDraws fun hs =>
      (hs vs1 a (vecOperand_eq_ok.1 ha)).of_mem (rotrElems_length _) fun _ => mem_rotrElems.1⟩
  | vagg vd mask =>
    refine ⟨_, rfl, .bind (isCheck_collection s mask) fun ⟨first, as⟩ h => .setV rfl s.gen _ fun hs => ?_⟩
    obtain ⟨r, hr⟩ := collection_reference h
    exact (hs r first hr).of_length_eq (aggregate_length _ _ _ _ _) aggregate_lt
  | vaggi vd mask =>
    refine ⟨_, rfl, .bind (isCheck_collectionFor s vd mask) fun ⟨self, as⟩ h => .setV rfl s.gen _ fun hs => ?_⟩
    obtain ⟨-, -, hself, -⟩ := collectionFor_eq_ok.1 h
    exact (hs vd self hself).of_length_eq (aggregate_length _ _ _ _ _) aggregate_lt

/-- What an instruction can do: complete with its effect and one `OK` response, fault, or, with a rejection loop, hang. -/
theorem exec_cases (i : Instr) (s : State) :
    (∃ t w, Effect i s t ∧ exec i s = .next (t.respond 0 w)) ∨
    (∃ c, exec i s = .next (s.takeFault (encodeWord i) c)) ∨
    (RejectionLoop i ∧ exec i s = .next s.hangUp) := by
  obtain ⟨b, hexec, hb⟩ := exec_body i s
  cases hb with
  | ok h w => exact .inl ⟨_, w, h, hexec⟩
  | fault c => exact .inr (.inl ⟨c, hexec⟩)
  | hang h => exact .inr (.inr ⟨h, hexec⟩)

/-- The effect of a completing command is in the registers, the generator and the draws; all else is as before. -/
theorem Effect.eq_update {i : Instr} {s t : State} (h : Effect i s t) :
    t = { s with x := t.x, v := t.v, gen := t.gen, nanDraws := t.nanDraws } := by
  cases h <;> rfl

theorem Effect.hung_eq {i : Instr} {s t : State} (h : Effect i s t) : t.hung = s.hung := by
  rw [h.eq_update]

/-- Settles O16: of the three ways to end only the hang sets `hung`, and only a rejection loop ends so. -/
theorem onlyRejectionLoopHangs : Obligations.OnlyRejectionLoopHangs := by
  intro i s t hs hexec ht
  have hs : s.hung = false := by simpa [State.safe] using hs
  have ht : t.hung = true := by simpa [State.safe] using ht
  obtain ⟨u, w, heff, h⟩ | ⟨c, h⟩ | ⟨hi, h⟩ := exec_cases i s <;> obtain rfl := Host.Outcome.next.inj (hexec.symm.trans h)
  · simp [heff.hung_eq, hs] at ht
  · simp [hs] at ht
  · exact ⟨rfl, hi⟩

/-! ## The step invariant -/

/-- One more response: the record of the first fault changes only if there was none (R28). -/
theorem firstFault_append (rs : List Response) (r : Response) :
    firstFault (rs ++ [r]) = if firstFault rs = 0 then r.code else firstFault rs := by
  induction rs with
  | nil =>
    simp only [List.nil_append, firstFault, if_true]
    split
    · next h => exact h.symm
    · rfl
  | cons q rs ih =>
    by_cases h : q.code = 0
    · simp only [List.cons_append, firstFault, if_pos h, ih]
    · simp only [List.cons_append, firstFault, if_neg h]

/-- The invariant says nothing of the scalar registers, the generator, the interface lists, `hung` or the draws. -/
theorem State.Inv.congr {s t : State} (hs : s.Inv) (hparams : t.params = s.params := by rfl) (hv : t.v = s.v := by rfl)
    (hrsp : t.rspOut = s.rspOut := by rfl) (hcnt : t.cmdcnt = s.cmdcnt := by rfl) (hferr : t.ferr = s.ferr := by rfl)
    (hfcmd : t.fcmd = s.fcmd := by rfl) : t.Inv where
  params := hparams ▸ hs.params
  vectors r a h := hparams ▸ hs.vectors r a (by simpa [State.getV, hv] using h)
  responses := hrsp ▸ hs.responses
  count := hcnt ▸ hrsp ▸ hs.count
  record := hferr ▸ hrsp ▸ hs.record
  noWord := hferr ▸ hfcmd ▸ hs.noWord

/-- The state after reset meets the invariant for all parameters in the range of R7. -/
theorem resetFor_inv {p : Params} (hp : p.ok) : (State.resetFor p).Inv where
  params := hp
  vectors r a h := by simp [State.resetFor, State.getV] at h
  responses r h := by simp [State.resetFor] at h
  count := rfl
  record := rfl
  noWord _ := rfl

/-- A reset event leads back to the invariant. -/
theorem afterReset_inv {s : State} (hs : s.Inv) : s.afterReset.Inv :=
  (resetFor_inv hs.params).congr

/-- A response keeps the invariant, once the record is right for it. -/
theorem State.Inv.respond {s t : State} (hs : s.Inv) {code : BitVec 8} {rdata : Word} (hr : Response.ok ⟨code, rdata⟩)
    (hparams : t.params = s.params) (hvec : t.VectorsOk) (hrsp : t.rspOut = s.rspOut) (hcnt : t.cmdcnt = s.cmdcnt)
    (hferr : t.ferr = if s.ferr = 0 then code else s.ferr) (hfcmd : t.ferr = 0 → t.fcmd = 0) :
    (t.respond code rdata).Inv where
  params := by simpa [hparams] using hs.params
  vectors := hvec
  responses r h := by
    simp only [State.respond_rspOut, hrsp, List.mem_append, List.mem_singleton] at h
    obtain h | rfl := h
    · exact hs.responses r h
    · exact hr
  count := by simp [hrsp, hcnt, hs.count, BitVec.ofNat_add]
  record := by simp [hrsp, hferr, firstFault_append, hs.record]
  noWord := hfcmd

/-- The effect of a completing command keeps the vector registers as R23 says. -/
theorem Effect.vectorsOk {i : Instr} {s t : State} (h : Effect i s t) (hs : s.VectorsOk) : t.VectorsOk := by
  cases h with
  | noRegister g => exact hs
  | scalar hd g k w => exact hs
  | @vector vd hd g k a ha =>
    intro r b hb
    by_cases hr : r = vd
    · subst hr
      rw [State.getV_setV_same, Option.some.injEq] at hb
      exact hb ▸ ha hs
    · rw [State.getV_setV_other _ a hr] at hb
      exact hs r b hb

/-- A completing command keeps the invariant. -/
theorem Effect.respond_inv {i : Instr} {s t : State} (h : Effect i s t) (w : Word) (hs : s.Inv) : (t.respond 0 w).Inv := by
  have hok : Response.ok ⟨0, w⟩ := ⟨Nat.zero_le 13, fun hne => absurd rfl hne⟩
  have hrecord : s.ferr = if s.ferr = 0 then 0 else s.ferr := by
    split
    · assumption
    · rfl
  have hferr : t.ferr = s.ferr := by rw [h.eq_update]
  have hfcmd : t.fcmd = s.fcmd := by rw [h.eq_update]
  exact hs.respond hok (by rw [h.eq_update]) (h.vectorsOk hs.vectors) (by rw [h.eq_update])
    (by rw [h.eq_update]) (hferr.trans hrecord) fun h0 => hfcmd.trans (hs.noWord (hferr ▸ h0))

/-- A fault keeps the invariant. -/
theorem takeFault_inv {s : State} (hs : s.Inv) (w : CmdWord) (c : FaultCode) : (s.takeFault w c).Inv := by
  refine hs.respond ⟨c.code_le, fun _ => rfl⟩ (by simp) ?_ (by simp) (by simp) (s.recordFault_ferr w c) ?_
  · intro r a ha
    simpa using hs.vectors r a (by simpa [State.getV] using ha)
  · rw [s.recordFault_ferr, s.recordFault_fcmd]
    split
    · exact fun h0 => absurd h0 c.code_ne_zero
    · exact hs.noWord

theorem exec_inv {i : Instr} {s t : State} (hs : s.Inv) (h : exec i s = .next t) : t.Inv := by
  obtain ⟨u, w, heff, hu⟩ | ⟨c, hu⟩ | ⟨-, hu⟩ := exec_cases i s <;> obtain rfl := Host.Outcome.next.inj (h.symm.trans hu)
  · exact heff.respond_inv w hs
  · exact takeFault_inv hs _ c
  · exact hs.congr

/-- Settles O11, along the branches of a step: a reset event or a quiet step, a decoded command, an illegal word. -/
theorem stepKeepsInvariant : Obligations.StepKeepsInvariant := by
  intro s t hs hstep
  have taken : ∀ {c u}, s.plan = .run c u → u.Inv := by
    intro c u hplan
    obtain ⟨cs, -, -, -, rfl⟩ := plan_run hplan
    exact hs.congr
  obtain ⟨u, hplan, hu⟩ | ⟨c, u, i, hplan, -, hu⟩ | ⟨c, u, e, hplan, -, hu⟩ := step_cases s
  · obtain rfl := Host.Outcome.next.inj (hstep.symm.trans hu)
    obtain ⟨cs, rfl⟩ | rfl := plan_settle hplan
    · exact afterReset_inv (hs.congr)
    · exact hs.congr
  · exact exec_inv (taken hplan) (hu.symm.trans hstep)
  · obtain rfl := Host.Outcome.next.inj (hstep.symm.trans hu)
    exact takeFault_inv (taken hplan) c.word .illegal

/-- Settles O10: `VLMAX` of the modelled machine is in the range of R7. -/
theorem resetMeetsInvariant : Obligations.ResetMeetsInvariant :=
  resetFor_inv Config.vlmax_range

/-- Settles O6: the plan of a ready unit is to run the presented command. -/
theorem stepRunsDecodedCommand : Obligations.StepRunsDecodedCommand := by
  rintro s t c i ⟨hhung, hrst, cs, hcmd, rfl⟩ hdecode
  simp [step, plan_of_low hrst hhung hcmd, runCommand, hdecode]

end Sys2Proof.Machine

namespace Sys2Proof

/-! ## Rotations bit by bit (R11) -/

section Rotations

variable {N n i : Nat}

theorem getLsbD_ror (v : BitVec N) (hn : n < N) (hi : i < N) : (ror v n).getLsbD i = v.getLsbD ((i + n) % N) := by
  rw [ror, BitVec.getLsbD_rotateRight_of_lt hn]
  by_cases h : i < N - n
  · rw [Nat.mod_eq_of_lt (by omega : i + n < N)]
    simp [h, Nat.add_comm]
  · rw [Nat.mod_eq_sub_mod (by omega : N ≤ i + n), Nat.mod_eq_of_lt (by omega : i + n - N < N),
      (by omega : i + n - N = i - (N - n))]
    simp [h, hi]

theorem getLsbD_rol (v : BitVec N) (hn : n < N) (hi : i < N) : (rol v n).getLsbD i = v.getLsbD ((i + N - n) % N) := by
  rw [rol, BitVec.getLsbD_rotateLeft_of_le hn]
  by_cases h : i < n
  · rw [Nat.mod_eq_of_lt (by omega : i + N - n < N), (by omega : i + N - n = N - n + i)]
    simp [h]
  · rw [(by omega : i + N - n = i - n + N), Nat.add_mod_right, Nat.mod_eq_of_lt (by omega : i - n < N)]
    simp [h, hi]

theorem ror_zero (v : BitVec N) (hN : 0 < N) : ror v 0 = v := by
  refine BitVec.eq_of_getLsbD_eq fun i hi => ?_
  rw [getLsbD_ror v hN hi, Nat.add_zero, Nat.mod_eq_of_lt hi]

theorem rol_zero (v : BitVec N) (hN : 0 < N) : rol v 0 = v := by
  refine BitVec.eq_of_getLsbD_eq fun i hi => ?_
  rw [getLsbD_rol v hN hi, Nat.sub_zero, Nat.add_mod_right, Nat.mod_eq_of_lt hi]

/-- A left rotation undoes a right rotation by the same count. -/
theorem rol_ror (v : BitVec N) (hn : n < N) : rol (ror v n) n = v := by
  refine BitVec.eq_of_getLsbD_eq fun i hi => ?_
  rw [getLsbD_rol _ hn hi, getLsbD_ror v hn (Nat.mod_lt _ (by omega)), Nat.mod_add_mod, Nat.sub_add_cancel (by omega),
    Nat.add_mod_right, Nat.mod_eq_of_lt hi]

/-- A right rotation is a left rotation by the rest of the width. -/
theorem ror_eq_rol (v : BitVec N) (hn : n < N) : ror v n = rol v ((N - n) % N) := by
  rcases Nat.eq_zero_or_pos n with rfl | hpos
  · rw [Nat.sub_zero, Nat.mod_self, ror_zero v hn, rol_zero v hn]
  · rw [Nat.mod_eq_of_lt (by omega : N - n < N)]
    refine BitVec.eq_of_getLsbD_eq fun i hi => ?_
    rw [getLsbD_ror v hn hi, getLsbD_rol v (by omega) hi, (by omega : i + N - (N - n) = i + n)]

theorem onesBelow_eq_countP (v : BitVec N) (m : Nat) : onesBelow v m = (List.range m).countP fun i => v.getLsbD i := by
  induction m with
  | zero => rfl
  | succ m ih => cases h : v.getLsbD m <;> simp [onesBelow, ih, List.range_succ, h]

end Rotations

/-- Settles O26: the laws hold for every width. -/
theorem rotationBits : Obligations.RotationBits := by
  intro N _ v
  refine ⟨onesBelow_eq_countP v N, fun n hn => ?_⟩
  exact ⟨fun i hi => getLsbD_ror v hn hi, fun i hi => getLsbD_rol v hn hi, ror_zero v (by omega), rol_zero v (by omega),
    rol_ror v hn, ror_eq_rol v hn⟩

/-! ## The seed expansion (R121) -/

/-- Word `i` of the fill is the running value after `i + 1` updates, or after `i` when the store comes first. -/
theorem getElem_seedFill (storeFirst : Bool) (n : Nat) (v : Word) (i : Nat) (hi : i < (seedFill storeFirst n v).length) :
    (seedFill storeFirst n v)[i] = seedMix^[if storeFirst then i else i + 1] v := by
  induction n generalizing v i with
  | zero => simp [seedFill] at hi
  | succ n ih =>
    cases i with
    | zero => cases storeFirst <;> rfl
    | succ i =>
      simp only [seedFill, List.getElem_cons_succ, ih]
      cases storeFirst <;> rfl

theorem getElem_seedGen_words (storeFirst : Bool) (seed : Word) (i : Fin 37) :
    (seedGen storeFirst seed).words[i] = seedMix^[if storeFirst then i.val else i.val + 1] (seedStart seed) :=
  getElem_seedFill storeFirst 37 (seedStart seed) i (by simp [seedFill_length])

/-- Settles O30: the words of `SEED` are iterates of the seed expansion. -/
theorem seedCompletes : Obligations.SeedCompletes := by
  intro s rs1
  exact ⟨seedGen s.params.fillStoreFirst s.x[rs1], rfl, rfl, getElem_seedGen_words s.params.fillStoreFirst s.x[rs1]⟩

end Sys2Proof

/-! # What each command leaves unchanged, what reset does, and the statements of family 10_state

`exec_next_cases` reads a next state off `exec_cases`; the frames follow from it. The generator has an inversion lemma of its own,
`exec_gen`, since `Effect` does not say which generator a command puts in place. -/

namespace Sys2Proof

/-! ## The draws of the rejection loop are whole generator steps (R160, R198) -/

/-- The loop leaves the generator a whole number of steps on. -/
theorem nextVecWithin_advance {p : Primitives} {f : Fmt} {e r : Word} {n : Nat} {g g' : Gen}
    (h : nextVecWithin p f e n g = some (r, g')) : ∃ k, g' = Gen.advance^[k] g := by
  induction n generalizing g with
  | zero => simp [nextVecWithin] at h
  | succ n ih =>
    rw [nextVecWithin_succ] at h
    split at h
    · obtain ⟨-, rfl⟩ : _ ∧ g.advance = g' := by simpa using h
      exact ⟨1, rfl⟩
    · obtain ⟨k, hk⟩ := ih h
      exact ⟨k + 1, hk⟩

theorem nextVec_advance {p : Primitives} {f : Fmt} {e r : Word} {g g' : Gen} (h : nextVec p f e g = some (r, g')) :
    ∃ k, g' = Gen.advance^[k] g :=
  nextVecWithin_advance (nextVec_eq_within p f e g ▸ h)

/-- So do the loops of all elements of `VGEN` together. -/
theorem genElements_advance {p : Primitives} {f : Fmt} {e : Word} {n : Nat} {g g' : Gen} {rs : List Word}
    (h : genElements p f e n g = some (rs, g')) : ∃ k, g' = Gen.advance^[k] g := by
  induction n generalizing g rs with
  | zero =>
    obtain ⟨-, rfl⟩ : _ ∧ g = g' := by simpa [genElements] using h
    exact ⟨0, rfl⟩
  | succ n ih =>
    simp only [genElements] at h
    split at h
    · cases h
    · next r g1 hr =>
      split at h
      · cases h
      · next rs' g2 hrs =>
        obtain ⟨-, rfl⟩ : _ ∧ g2 = g' := by simpa using h
        obtain ⟨k, rfl⟩ := nextVec_advance hr
        obtain ⟨l, rfl⟩ := ih hrs
        exact ⟨l + k, (Function.iterate_add_apply ..).symm⟩

/-! ## Words and their low bits (R11, R22) -/

/-- The population count of the low bits of a container counts the ones of the container below `n` (R103 to R106). -/
theorem popcount_lowBits (n : Nat) (v : Word) : popcount (lowBits n v) = (List.range n).countP fun i => v.getLsbD i := by
  rw [popcount, onesBelow_eq_countP]
  refine List.countP_congr fun i hi => ?_
  simp [lowBits, List.mem_range.1 hi]

theorem lowBits_64 (v : Word) : lowBits 64 v = v := BitVec.setWidth_eq v

theorem zext64_64 (v : Word) : zext64 v = v := BitVec.setWidth_eq v

end Sys2Proof

namespace Sys2Proof.Machine

/-! ## Faults in the terms of the claims (R243) -/

/-- A fault leaves what R243 says. -/
theorem takeFault_eq_afterFault (s : State) (w : CmdWord) (c : FaultCode) : s.takeFault w c = s.afterFault w c.code := by
  unfold State.takeFault State.recordFault State.afterFault
  split <;> rfl

theorem finish_raise_eq_afterFault (i : Instr) (s : State) (c : FaultCode) :
    finish i s (raise c) = .next (s.afterFault (encodeWord i) c.code) := by
  rw [finish_raise, takeFault_eq_afterFault]

/-- A command whose first check raises a fault ends with it. -/
theorem finish_bind_raise {s : State} {α : Type} {m : Except Stop α} {c : FaultCode} (h : m = raise c) (i : Instr) (k : α → Body) :
    finish i s (m >>= k) = .next (s.afterFault (encodeWord i) c.code) := by
  rw [h, bind_raise_eq, finish_raise_eq_afterFault]

/-! ## Frames from what an instruction can do -/

section Frames

variable {i : Instr} {s t : State}

/-- `exec_cases` read from a next state that is given. -/
theorem exec_next_cases (h : exec i s = .next t) :
    (∃ u w, Effect i s u ∧ t = u.respond 0 w) ∨ (∃ c, t = s.takeFault (encodeWord i) c) ∨ t = s.hangUp := by
  obtain ⟨u, w, heff, hu⟩ | ⟨c, hu⟩ | ⟨-, hu⟩ := exec_cases i s <;> obtain rfl := Host.Outcome.next.inj (h.symm.trans hu)
  · exact .inl ⟨u, w, heff, rfl⟩
  · exact .inr (.inl ⟨c, rfl⟩)
  · exact .inr (.inr rfl)

theorem Effect.getX_other (h : Effect i s t) {r : SReg} (hr : scalarDest i ≠ some r) : t.getX r = s.getX r := by
  cases h with
  | noRegister g => rfl
  | @scalar rd hd g k w =>
    have hne : r ≠ rd := fun e => hr (e ▸ hd)
    rw [State.getX_setX_other _ w hne]
    rfl
  | vector hd g k a ha => rfl

theorem Effect.getV_other (h : Effect i s t) {r : VReg} (hr : vectorDest i ≠ some r) : t.getV r = s.getV r := by
  cases h with
  | noRegister g => rfl
  | scalar hd g k w => rfl
  | @vector vd hd g k a ha =>
    have hne : r ≠ vd := fun e => hr (e ▸ hd)
    rw [State.getV_setV_other _ a hne]
    rfl

/-- A vector register is only ever written with a vector (R190). -/
theorem Effect.getV_valid (h : Effect i s t) {r : VReg} (hr : s.getV r ≠ none) : t.getV r ≠ none := by
  cases h with
  | noRegister g => exact hr
  | scalar hd g k w => exact hr
  | @vector vd hd g k a ha =>
    by_cases hne : r = vd
    · subst hne
      simp
    · rwa [State.getV_setV_other _ a hne]

/-! Of the interface: the count of responses, and the inputs (R31, R66, R275). -/

/-- From `s` to `t` the unit has given one response, counted it, and not hung. -/
def Answered (s t : State) : Prop :=
  t.cmdcnt = s.cmdcnt + 1 ∧ t.hung = s.hung ∧ ∃ r : Response, t.rspOut = s.rspOut ++ [r]

theorem Effect.answered (h : Effect i s t) (w : Word) : Answered s (t.respond 0 w) := by
  rw [h.eq_update]
  exact ⟨rfl, rfl, _, rfl⟩

theorem takeFault_answered (s : State) (w : CmdWord) (c : FaultCode) : Answered s (s.takeFault w c) :=
  ⟨s.takeFault_cmdcnt w c, s.takeFault_hung w c, _, s.takeFault_rspOut w c⟩

theorem exec_answered_or_hangs (h : exec i s = .next t) : Answered s t ∨ t = s.hangUp := by
  obtain ⟨u, w, heff, rfl⟩ | ⟨c, rfl⟩ | rfl := exec_next_cases h
  · exact .inl (heff.answered w)
  · exact .inl (takeFault_answered s _ c)
  · exact .inr rfl

theorem exec_inputs (h : exec i s = .next t) : t.params = s.params ∧ t.cmdIn = s.cmdIn ∧ t.rstIn = s.rstIn := by
  obtain ⟨u, w, heff, rfl⟩ | ⟨c, rfl⟩ | rfl := exec_next_cases h
  · rw [heff.eq_update]
    exact ⟨rfl, rfl, rfl⟩
  · simp
  · exact ⟨rfl, rfl, rfl⟩

end Frames

/-- Settles O17: a completing command writes its `rd` at most, a fault and a hang no register. -/
theorem scalarFrame : Obligations.ScalarFrame := by
  intro i s t r h hr
  obtain ⟨u, w, heff, rfl⟩ | ⟨c, rfl⟩ | rfl := exec_next_cases h
  · exact heff.getX_other hr
  · rw [State.takeFault_x]
  · rfl

/-- Settles O18: as O17, with what a completing command writes to its `vd` being a vector. -/
theorem vectorFrame : Obligations.VectorFrame := by
  intro i s t r h
  obtain ⟨u, w, heff, rfl⟩ | ⟨c, rfl⟩ | rfl := exec_next_cases h
  · exact ⟨heff.getV_other, heff.getV_valid⟩
  · rw [State.takeFault_v]
    exact ⟨fun _ => rfl, id⟩
  · exact ⟨fun _ => rfl, id⟩

/-- Settles O20: an instruction answers once or hangs, and either way the inputs stay. -/
theorem interfaceFrame : Obligations.InterfaceFrame := by
  intro i s t h
  obtain ⟨hparams, hcmd, hrst⟩ := exec_inputs h
  refine ⟨hparams, hcmd, hrst, ?_⟩
  obtain ⟨-, hhung, hrsp⟩ | rfl := exec_answered_or_hangs h
  · exact ⟨hhung.trans, .inr hrsp⟩
  · exact ⟨fun _ => rfl, .inl rfl⟩

/-! ## Steps (R56, R246, R275, R278) -/

/-- With `rst` low a step takes the command presented, or only time passes. -/
theorem takes_or_quiet {s : State} (hrst : s.rstNow = .low) :
    (∃ c t, s.Takes c t) ∨ step s = .next { s with rstIn := s.rstIn.tail } := by
  cases hhung : s.hung with
  | true => exact .inr (by simp [step, State.plan, hrst, hhung])
  | false =>
    cases hcmd : s.cmdIn with
    | nil => exact .inr (by simp [step, State.plan, hrst, hhung, hcmd])
    | cons c cs => exact .inl ⟨c, _, hhung, hrst, cs, hcmd, rfl⟩

/-- A taken command, decoded or not, answers once or hangs. -/
theorem step_taken {s t u : State} {c : Command} (ht : s.Takes c t) (h : step s = .next u) : Answered t u ∨ u = t.hangUp := by
  obtain ⟨hhung, hrst, cs, hcmd, rfl⟩ := ht
  simp only [step, plan_of_low hrst hhung hcmd, runCommand] at h
  split at h
  · exact exec_answered_or_hangs h
  · obtain rfl := Host.Outcome.next.inj h
    exact .inl (takeFault_answered _ _ _)

theorem step_params {s t : State} (h : step s = .next t) : t.params = s.params := by
  obtain ⟨u, hplan, hu⟩ | ⟨c, u, i, hplan, -, hu⟩ | ⟨c, u, e, hplan, -, hu⟩ := step_cases s
  · obtain rfl := Host.Outcome.next.inj (h.symm.trans hu)
    obtain ⟨cs, rfl⟩ | rfl := plan_settle hplan <;> rfl
  · obtain ⟨cs, -, -, -, rfl⟩ := plan_run hplan
    obtain ⟨hparams, -⟩ := exec_inputs (hu.symm.trans h)
    exact hparams
  · obtain rfl := Host.Outcome.next.inj (h.symm.trans hu)
    obtain ⟨cs, -, -, -, rfl⟩ := plan_run hplan
    exact State.takeFault_params ..

/-! ## Control and status registers (R27 to R33) -/

section Csr

variable {s : State} {n : Nat}

theorem exec_rdcsr_some {w : Word} (h : s.readCsr n = some w) (rd : SReg) :
    exec (.rdcsr rd n) s = .next ({ s with x := s.x.set rd w }.afterOk 0) := by
  simp only [exec, execRdcsr, h]
  rfl

/-- The numbers above those of the named CSRs (R27, R32). -/
theorem readCsr_of_lt (s : State) (h : 0x004 < n) :
    s.readCsr n = if h : 0x040 ≤ n ∧ n ≤ 0x064 then some (s.gen.words[n - 0x040]'(by omega)) else none := by
  have h0 : n ≠ 0 := by omega
  have h1 : n ≠ 1 := by omega
  have h2 : n ≠ 2 := by omega
  have h3 : n ≠ 3 := by omega
  have h4 : n ≠ 4 := by omega
  rw [State.readCsr, if_neg h0, if_neg h1, if_neg h2, if_neg h3, if_neg h4]

theorem readCsr_words (s : State) (i : Fin 37) : s.readCsr (0x040 + i.val) = some s.gen.words[i] := by
  have hrange : 0x040 ≤ 0x040 + i.val ∧ 0x040 + i.val ≤ 0x064 := by omega
  rw [readCsr_of_lt s (by omega), dif_pos hrange]
  simp

theorem readCsr_absent (s : State) (hlow : 0x004 < n) (hout : n < 0x040 ∨ 0x064 < n) : s.readCsr n = none := by
  have hrange : ¬ (0x040 ≤ n ∧ n ≤ 0x064) := by omega
  rw [readCsr_of_lt s hlow, dif_neg hrange]

/-- The fields of `CONFIG` (R33). -/
theorem configWord_eq (vlmax : Nat) :
    configWord vlmax = (1#8 ++ 0#8 ++ 37#8 ++ 15#4 ++ 15#4 ++ 0#1 ++ BitVec.ofNat 31 vlmax : BitVec 64) := by
  have hupper : (1#8 ++ 0#8 ++ 37#8 ++ 15#4 ++ 15#4 ++ 0#1).toNat = 33573886 := by decide
  have hlt : vlmax % 2 ^ 31 < 2 ^ 31 := Nat.mod_lt _ (by decide)
  refine BitVec.eq_of_toNat_eq ?_
  rw [BitVec.toNat_append, hupper, BitVec.toNat_ofNat, ← Nat.shiftLeft_add_eq_or_of_lt hlt, configWord, BitVec.toNat_ofNat]
  omega

end Csr

/-- Settles O22, one CSR number after the other. -/
theorem rdcsrCompletes : Obligations.RdcsrCompletes := by
  intro s rd
  have hferr : zext64 s.ferr = (0#56 ++ s.ferr : BitVec 64) := BitVec.setWidth_eq_append (by decide)
  have hfcmd : zext64 s.fcmd = (0#32 ++ s.fcmd : BitVec 64) := BitVec.setWidth_eq_append (by decide)
  refine ⟨hferr ▸ exec_rdcsr_some rfl rd, hfcmd ▸ exec_rdcsr_some rfl rd, exec_rdcsr_some rfl rd, exec_rdcsr_some rfl rd,
    fun i => exec_rdcsr_some (readCsr_words s i) rd, fun csr hlow hout => ?_⟩
  simp only [exec, execRdcsr, readCsr_absent s hlow hout]
  exact finish_raise_eq_afterFault ..

/-- Settles O23: the CSR is made of a parameter, and no step changes one. -/
theorem configCsrConstant : Obligations.ConfigCsrConstant := by
  refine ⟨fun s rd _ => configWord_eq s.params.vlmax ▸ exec_rdcsr_some rfl rd, fun s t h => ?_⟩
  change some (configWord t.params.vlmax) = some (configWord s.params.vlmax)
  rw [step_params h]

/-- Settles O15: a taken command answers once or hangs, and a step that takes none leaves the count. -/
theorem cmdcntCountsResponses : Obligations.CmdcntCountsResponses := by
  refine ⟨rfl, fun s hs => hs.count, fun s t u c ht h hready => ?_, fun s t hrst h hhung => ?_,
    fun rd s => exec_rdcsr_some rfl rd⟩
  · obtain ⟨hcnt, -, hrsp⟩ | rfl := step_taken ht h
    · obtain ⟨-, -, cs, -, rfl⟩ := ht
      exact ⟨hcnt, hrsp⟩
    · cases hready
  · obtain ⟨c, u, hu⟩ | hquiet := takes_or_quiet hrst
    · have hends := step_taken hu h
      obtain ⟨hs, -, cs, -, rfl⟩ := hu
      obtain ⟨-, hkept, -⟩ | rfl := hends
      · have hnot : t.hung = false := hkept.trans hs
        simp [hnot] at hhung
      · exact ⟨rfl, rfl⟩
    · obtain rfl := Host.Outcome.next.inj (h.symm.trans hquiet)
      exact ⟨rfl, rfl⟩

/-! ## What a command does to the generator (R26) -/

/-- What `i` may make of the generator `g`: leave it, draw from it, or, for `SEED`, replace it. -/
inductive GenEffect (i : Instr) (g : Gen) : Gen → Prop
  | kept : GenEffect i g g
  | drawn (hi : touchesGen i = true) (k : Nat) : GenEffect i g (Gen.advance^[k] g)
  | seeded (rs1 : SReg) (hseed : i = .seed rs1) (g' : Gen) : GenEffect i g g'

/-- If the body `b` of `i` completes, its effect on the generator is one of those. -/
def GenOk (i : Instr) (s : State) (b : Body) : Prop := ∀ t w, b = .ok (t, w) → GenEffect i s.gen t.gen

section GeneratorEffects

variable {i : Instr} {s t : State} {rd rs1 rs2 : SReg} {vd : VReg}

theorem GenOk.ok (h : GenEffect i s.gen t.gen) (w : Word) : GenOk i s (.ok (t, w)) := by
  rintro _ _ ⟨⟩
  exact h

/-- A body that does not write the generator. -/
theorem GenOk.kept (h : t.gen = s.gen) (w : Word) : GenOk i s (.ok (t, w)) := .ok (h ▸ .kept) w

theorem GenOk.error (e : Stop) : GenOk i s (.error e) := nofun

theorem GenOk.bind {α : Type} {m : Except Stop α} {k : α → Body} (hk : ∀ a, GenOk i s (k a)) : GenOk i s (m >>= k) := by
  cases m with
  | error e => exact .error e
  | ok a => exact hk a

/-- One generator step and a write of one scalar register. -/
theorem GenOk.oneStep (hi : touchesGen i = true) (k : Nat) (w : Word) :
    GenOk i s (done (((s.setGen s.gen.step64.2).setDraws k).setX rd w)) := .ok (.drawn hi 1) 0

theorem nextvecBody_gen (hi : touchesGen i = true) (f : Fmt) : GenOk i s (nextvecBody f rd rs1 s) := by
  refine .bind fun e => ?_
  cases hr : nextVec s.params.primitives f e s.gen with
  | none => exact .error .hang
  | some r =>
    obtain ⟨k, hk⟩ := nextVec_advance hr
    exact .ok (hk ▸ .drawn hi k : GenEffect i s.gen r.2) 0

theorem vgenBody_gen (hi : touchesGen i = true) (f : Fmt) : GenOk i s (vgenBody f vd rs1 rs2 s) := by
  refine .bind fun n => .bind fun e => ?_
  cases hr : genElements s.params.primitives f e n s.gen with
  | none => exact .error .hang
  | some r =>
    obtain ⟨k, hk⟩ := genElements_advance hr
    exact .ok (hk ▸ .drawn hi k : GenEffect i s.gen r.2) 0

end GeneratorEffects

/-- Every instruction is `finish` of a body that does to the generator what `GenOk` says. -/
theorem exec_genBody (i : Instr) (s : State) : ∃ b, exec i s = finish i s b ∧ GenOk i s b := by
  cases i with
  | seed rs1 => exact ⟨_, rfl, .ok (.seeded rs1 rfl _) 0⟩
  | nextu64 _ | nextu32 _ | nextu16 _ | nextu8 _ | nextbool _ => exact ⟨_, rfl, .oneStep rfl s.nanDraws _⟩
  | next12H _ | next12S _ | next12D _ | next01H _ | next01S _ | next01D _ | nextunitH _ | nextunitS _ | nextunitD _ =>
    exact ⟨_, rfl, .oneStep rfl _ _⟩
  | nextvecH _ _ | nextvecS _ _ | nextvecD _ _ => exact ⟨_, rfl, nextvecBody_gen rfl _⟩
  | vgenH _ _ _ | vgenS _ _ _ | vgenD _ _ _ => exact ⟨_, rfl, vgenBody_gen rfl _⟩
  | next12Fmt3 _ | next01Fmt3 _ | nextunitFmt3 _ | nextvecFmt3 _ _ | vnewFmt3 _ _ | vgenFmt3 _ _ _ =>
    exact ⟨raise .fmt, rfl, .error _⟩
  | nop | mfs _ => exact ⟨_, rfl, .kept rfl _⟩
  | mts _ _ | popc8 _ _ | popc16 _ _ | popc32 _ _ | popc64 _ _ | vinfo _ _ => exact ⟨_, rfl, .kept (t := s.setX _ _) rfl 0⟩
  | rdcsr rd csr =>
    refine ⟨_, rfl, ?_⟩
    cases s.readCsr csr with
    | none => exact .error _
    | some w => exact .kept rfl 0
  | rol32 _ _ _ | ror32 _ _ _ | rol64 _ _ _ | ror64 _ _ _ | rol32i _ _ _ | ror32i _ _ _ | rol64i _ _ _ | ror64i _ _ _
  | vnewH _ _ | vnewS _ _ | vnewD _ _ | vcopy _ _ | vnorm _ _ | vdot _ _ _ | vcos _ _ _ | vmul _ _ _ | veq _ _ _
  | vrotl _ _ | vrotr _ _ | vagg _ _ | vaggi _ _ =>
    exact ⟨_, rfl, .bind fun _ => .kept rfl 0⟩
  | vgete _ _ _ | vsete _ _ _ => exact ⟨_, rfl, .bind fun _ => .bind fun _ => .kept rfl 0⟩

/-- What an instruction can do to the generator; a fault and a hang leave it alone (R10). -/
theorem exec_gen {i : Instr} {s t : State} (h : exec i s = .next t) : GenEffect i s.gen t.gen := by
  obtain ⟨b, hexec, hb⟩ := exec_genBody i s
  obtain ⟨u, w, hok, hu⟩ | ⟨c, -, hu⟩ | ⟨-, hu⟩ := finish_cases i s b <;>
    obtain rfl := Host.Outcome.next.inj ((h.symm.trans hexec).trans hu)
  · exact hb u w hok
  · rw [State.takeFault_gen]
    exact .kept
  · exact .kept

/-- Settles O19, by what an instruction can do to the generator. -/
theorem generatorFrame : Obligations.GeneratorFrame := by
  intro i s t h
  have hkind := exec_gen h
  generalize t.gen = g at hkind
  cases hkind with
  | kept => exact ⟨fun _ => rfl, fun _ => ⟨0, rfl⟩⟩
  | drawn hi k => exact ⟨fun hno => by simp [hi] at hno, fun _ => ⟨k, rfl⟩⟩
  | seeded rs1 hseed => exact ⟨fun hno => by simp [hseed, touchesGen] at hno, fun hno => absurd hseed (hno rs1)⟩

/-! ## The bit counter (R103 to R114) -/

theorem finish_popcBody (n : Nat) (i : Instr) (s : State) (rd rs1 : SReg) : finish i s (popcBody n rd rs1 s) = .next ({ s with
    x := s.x.set rd (BitVec.ofNat 64 ((List.range n).countP fun k => s.x[rs1].getLsbD k)) }.afterOk 0) :=
  popcount_lowBits n s.x[rs1] ▸ rfl

/-- Settles O24: each completes with the count of the low bits. -/
theorem populationCountsComplete : Obligations.PopulationCountsComplete := by
  intro s rd rs1
  exact ⟨finish_popcBody 8 (.popc8 rd rs1) .., finish_popcBody 16 (.popc16 rd rs1) ..,
    finish_popcBody 32 (.popc32 rd rs1) .., finish_popcBody 64 (.popc64 rd rs1) ..⟩

section Rotates

variable {n count : Nat} {s : State}

theorem finish_rolBody (h : count < n) (i : Instr) (rd rs1 : SReg) : finish i s (rolBody n rd rs1 count s) =
    .next ({ s with x := s.x.set rd (zext64 (rol (lowBits n s.x[rs1]) count)) }.afterOk 0) := by
  rw [rolBody, rotateCount_eq, if_pos h]
  rfl

theorem finish_rorBody (h : count < n) (i : Instr) (rd rs1 : SReg) : finish i s (rorBody n rd rs1 count s) =
    .next ({ s with x := s.x.set rd (zext64 (ror (lowBits n s.x[rs1]) count)) }.afterOk 0) := by
  rw [rorBody, rotateCount_eq, if_pos h]
  rfl

theorem finish_rolBody_64 (h : count < 64) (i : Instr) (rd rs1 : SReg) :
    finish i s (rolBody 64 rd rs1 count s) = .next ({ s with x := s.x.set rd (rol s.x[rs1] count) }.afterOk 0) := by
  rw [finish_rolBody h, lowBits_64, zext64_64]

theorem finish_rorBody_64 (h : count < 64) (i : Instr) (rd rs1 : SReg) :
    finish i s (rorBody 64 rd rs1 count s) = .next ({ s with x := s.x.set rd (ror s.x[rs1] count) }.afterOk 0) := by
  rw [finish_rorBody h, lowBits_64, zext64_64]

end Rotates

/-- Settles O28: the count passes its check, and the body completes. -/
theorem rotatesComplete : Obligations.RotatesComplete := by
  intro s rd rs1 rs2 n
  refine ⟨?_, ?_, fun h => ⟨finish_rolBody h .., finish_rorBody h ..⟩, fun h => ⟨finish_rolBody_64 h .., finish_rorBody_64 h ..⟩⟩
  · rintro h rfl
    exact ⟨finish_rolBody h .., finish_rorBody h ..⟩
  · rintro h rfl
    exact ⟨finish_rolBody_64 h .., finish_rorBody_64 h ..⟩

/-! ## Reset (R36, R270) -/

/-- A step at which reset comes: the command that would be executing is abandoned, and the state is that after reset. -/
theorem step_of_reset {s : State} (h : s.rstNow = .between ∨ s.rstNow = .during) :
    step s = .next (State.afterReset { s with
      rstIn := s.rstIn.tail
      cmdIn := if s.rstNow = .during ∧ s.hung = false then s.cmdIn.tail else s.cmdIn }) := by
  obtain h | h := h
  · simp [step, State.plan, h]
  · cases hhung : s.hung <;> simp [step, State.plan, h, hhung]

/-- Settles O8: every field of the state after a reset event. -/
theorem resetEvent : Obligations.ResetEvent := by
  intro s h
  exact ⟨_, step_of_reset h, rfl, rfl, rfl, rfl, rfl, rfl, rfl, rfl, rfl, rfl, rfl, rfl, rfl, rfl⟩

/-- Settles O9: the array is evaluated, and `SEED` with operand 0 writes the generator that reset does. -/
theorem resetStateValues : Obligations.ResetStateValues := by
  refine ⟨?_, rfl, fun r => ?_, fun r => ?_, rfl, rfl, rfl, fun s rs1 hfill hx => ⟨_, rfl, ?_⟩⟩
  · exact (seedGen_words _ _).trans (by decide +kernel)
  · exact Vector.getElem_replicate r.isLt
  · exact Vector.getElem_replicate r.isLt
  · change seedGen s.params.fillStoreFirst s.x[rs1] = seedGen State.reset.params.fillStoreFirst 0
    rw [hfill, hx]

/-! ## Invalid vector registers (R37) -/

section Invalid

variable {s : State} {r1 r2 vd vr : VReg} {mask : BitVec 16}

theorem vecsOfOneFormat_invalid (h : s.getV r1 = none ∨ s.getV r2 = none) : s.vecsOfOneFormat r1 r2 = raise .vinvalid := by
  cases h1 : s.getV r1 with
  | none => simp [State.vecsOfOneFormat, vecOperand_none h1]
  | some a =>
    have h2 : s.getV r2 = none := by simpa [h1] using h
    simp [State.vecsOfOneFormat, vecOperand_some h1, vecOperand_none h2]

theorem compatibleVecs_invalid (h : s.getV r1 = none ∨ s.getV r2 = none) : s.compatibleVecs r1 r2 = raise .vinvalid := by
  rw [State.compatibleVecs, vecsOfOneFormat_invalid h, bind_raise_eq]

/-- A mask with a member is not 0. -/
theorem mask_ne_zero_of_mem (h : mask.getLsbD vr.val = true) : mask ≠ 0 := by
  rintro rfl
  simp at h

theorem collection_invalid (hmem : mask.getLsbD vr.val = true) (h : s.getV vr = none) : s.collection mask = raise .vinvalid := by
  rw [State.collection, if_neg (mask_ne_zero_of_mem hmem), vecsOf_invalid ⟨vr, mem_members.2 hmem, h⟩, bind_raise_eq]

/-- `vd` is read before the members (R220). -/
theorem collectionFor_invalid (hmask : mask ≠ 0) (hself : mask.getLsbD vd.val = false)
    (h : s.getV vd = none ∨ ∃ r ∈ members mask, s.getV r = none) : s.collectionFor vd mask = raise .vinvalid := by
  rw [State.collectionFor, if_neg hmask, if_neg (Bool.eq_false_iff.1 hself)]
  cases hd : s.getV vd with
  | none => rw [vecOperand_none hd, bind_raise_eq]
  | some a =>
    have hmem : ∃ r ∈ members mask, s.getV r = none := by simpa [hd] using h
    rw [vecOperand_some hd, bind_ok_eq, vecsOf_invalid hmem, bind_raise_eq]

end Invalid

/-- Settles O45: in every command the check of its vector operands raises the fault. -/
theorem invalidRegisterFaults : Obligations.InvalidRegisterFaults := by
  intro s rd rs1 rs2 vr other vd mask h
  have h : s.getV vr = none := h
  have hread := vecOperand_none h
  refine ⟨finish_bind_raise hread .., finish_bind_raise hread .., finish_bind_raise hread .., finish_bind_raise hread ..,
    finish_bind_raise hread .., finish_bind_raise hread .., ?_, fun hmem => finish_bind_raise (collection_invalid hmem h) ..,
    fun hmem hself => ?_, fun hmask hself => ?_, ?_⟩
  · have hfirst := compatibleVecs_invalid (r2 := other) (.inl h)
    have hsecond := compatibleVecs_invalid (r1 := other) (.inr h)
    simp only [List.forall_mem_cons]
    exact ⟨finish_bind_raise hfirst .., finish_bind_raise hsecond .., finish_bind_raise hfirst .., finish_bind_raise hsecond ..,
      finish_bind_raise hfirst .., finish_bind_raise hsecond .., finish_bind_raise (vecsOfOneFormat_invalid (.inl h)) ..,
      finish_bind_raise (vecsOfOneFormat_invalid (.inr h)) .., nofun⟩
  · exact finish_bind_raise (collectionFor_invalid (mask_ne_zero_of_mem hmem) hself (.inr ⟨vr, mem_members.2 hmem, h⟩)) ..
  · exact finish_bind_raise (collectionFor_invalid hmask hself (.inl h)) ..
  · change finish (.vinfo rd vr) s (done (s.setX rd (infoWord (s.getV vr)))) = _
    rw [h]
    rfl

end Sys2Proof.Machine

/-! # Commands whose checks pass, and the statements of family 20_memory

`finish_bind_ok` and `finish_bind_raise` run a command along its checks, one lemma application per check. -/

namespace Sys2Proof.Machine

/-! ## Settled results and elementwise products (R176, R214) -/

/-- A settled result is the value a primitive gives, or a NaN of the format where that is "a NaN". -/
theorem holdsResult_settle (f : Fmt) (r : Option Word) (k : Nat) : holdsResult f r (settle f r k).1 := by
  cases r with
  | none => exact ⟨f.isNaN_nanOf _, f.nanOf_lt _⟩
  | some w => rfl

/-- However many NaNs have been drawn before it, an element is one product of the sources' elements. -/
theorem mulElems_getD (p : Primitives) (f : Fmt) {as bs : List Word} (hlen : as.length = bs.length) (k : Nat) :
    ∀ j < as.length, holdsResult f (p.fmul f (as.getD j 0) (bs.getD j 0)) ((mulElems p f as bs k).1.getD j 0) := by
  induction as generalizing bs k with
  | nil => simp
  | cons a as ih =>
    cases bs with
    | nil => simp at hlen
    | cons b bs =>
      intro j hj
      cases j with
      | zero => exact holdsResult_settle f (p.fmul f a b) k
      | succ j => exact ih (Nat.succ.inj hlen) _ j (Nat.lt_of_succ_lt_succ hj)

/-! ## Checks that pass (R10) -/

/-- A command whose first check answers goes on with the answer. -/
theorem finish_bind_ok {s : State} {α : Type} {m : Except Stop α} {x : α} (h : m = .ok x) {i : Instr} {k : α → Body}
    {o : Host.Outcome State Fault Refusal} (hk : finish i s (k x) = o) : finish i s (m >>= k) = o := by
  rw [h, bind_ok_eq, hk]

/-- Settles O48: the operand checks pass, and the elements are made of the sources as they were, since `vd` is written last. -/
theorem multiplyCompletes : Obligations.MultiplyCompletes := by
  intro s vd vs1 vs2 a b ha hb hfmt hlen
  have hread := compatibleVecs_eq_ok.2 ⟨ha, hb, hfmt, hlen⟩
  exact ⟨_, _, finish_bind_ok hread rfl, mulElems_length _ _ _ _ _ hlen, mulElems_getD _ _ hlen _⟩

/-! ## Vector access (R53, R194 to R196) -/

section Access

variable {s : State} {a : VecReg} {r : SReg}

theorem indexOperand_lt (h : s.x[r].toNat < a.elems.length) : s.indexOperand a r = .ok s.x[r].toNat :=
  indexOperand_eq_ok.2 ⟨rfl, h⟩

theorem indexOperand_ge (h : a.elems.length ≤ s.x[r].toNat) : s.indexOperand a r = raise .index :=
  if_pos h

/-- The fields of what `VINFO` reports of a vector (R194). -/
theorem infoWord_some (h : a.len < 2 ^ 31) :
    infoWord (some a) = (1#1 ++ 0#29 ++ BitVec.ofNat 2 a.fmt.code ++ 0#1 ++ BitVec.ofNat 31 a.len : BitVec 64) := by
  have hupper : (1#64 <<< 63) ||| (BitVec.ofNat 64 a.fmt.code <<< 32) =
      (1#1 ++ 0#29 ++ BitVec.ofNat 2 a.fmt.code ++ 0#1 : BitVec 33).setWidth 64 <<< 31 := by
    cases a.fmt <;> rfl
  have hlow : (BitVec.ofNat 31 a.len).setWidth 64 = BitVec.ofNat 64 a.len :=
    BitVec.setWidth_ofNat_of_le_of_lt (by decide) h
  rw [infoWord, hupper, ← hlow, BitVec.append_def _ (BitVec.ofNat 31 a.len), BitVec.shiftLeftZeroExtend_eq,
    BitVec.setWidth'_eq]

theorem exec_vinfo {vs1 : VReg} {o : Option VecReg} (h : s.v[vs1] = o) (rd : SReg) :
    exec (.vinfo rd vs1) s = .next ({ s with x := s.x.set rd (infoWord o) }.afterOk 0) := by
  rw [← h]
  rfl

end Access

/-- Settles O44, command by command: the read of the register answers, and the index passes its check or raises the fault. -/
theorem vectorAccessCompletes : Obligations.VectorAccessCompletes := by
  intro s rd rs1 rs2 vd vs1
  refine ⟨fun h => exec_vinfo h rd, fun a ha => ?_⟩
  have hread := vecOperand_some ha
  refine ⟨finish_bind_ok hread rfl, fun hlen => infoWord_some hlen ▸ exec_vinfo ha rd, fun h => ?_,
    fun h => finish_bind_ok hread (finish_bind_ok (indexOperand_lt h) rfl),
    fun h => finish_bind_ok hread (finish_bind_raise (indexOperand_ge h) ..),
    fun h => finish_bind_ok hread (finish_bind_raise (indexOperand_ge h) ..)⟩
  rw [← List.getD_eq_getElem _ 0 h]
  exact finish_bind_ok hread (finish_bind_ok (indexOperand_lt h) rfl)

end Sys2Proof.Machine


/-! # Words and instructions, and the statements of family 30_encoding

`decode_decoding` says once what the decoder can answer for a word, row by row of the table of R70; `decode_encodeWord` is the
other direction, instruction by instruction. The faults of the decoder follow from the first. -/

namespace Sys2Proof

/-! ## Fields of a word (R67, R68) -/

theorem bitField_lt (w : CmdWord) (hi lo : Nat) : bitField w hi lo < 2 ^ (hi - lo + 1) :=
  Nat.mod_lt _ (Nat.two_pow_pos _)

theorem toNat_extractLsb_eq_bitField (w : CmdWord) (hi lo : Nat) : (w.extractLsb hi lo).toNat = bitField w hi lo := by
  rw [BitVec.extractLsb_toNat, Nat.shiftRight_eq_div_pow, bitField]

theorem extractLsb_beq_zero (w : CmdWord) (hi lo : Nat) : (w.extractLsb hi lo == 0) = (bitField w hi lo == 0) := by
  rw [Bool.eq_iff_iff, beq_iff_eq, beq_iff_eq, ← toNat_extractLsb_eq_bitField, ← BitVec.toNat_inj]
  rfl

theorem regField_beq_zero (w : CmdWord) (lo : Nat) : (regField w lo == 0) = (bitField w (lo + 3) lo == 0) := by
  have h : bitField w (lo + 3) lo < 16 := by simpa using bitField_lt w (lo + 3) lo
  rw [Bool.eq_iff_iff, beq_iff_eq, beq_iff_eq, regField, Fin.ext_iff, Fin.ofNat_eq_cast, Fin.val_natCast, Nat.mod_eq_of_lt h]
  rfl

/-- `imm10[9:6]`, the must-be-zero field of an immediate rotate (R69). -/
theorem imm10_div_64 (w : CmdWord) : bitField w 9 0 / 64 = bitField w 9 6 := by
  simp only [bitField]
  omega

/-- A word is the format R word of its fields. -/
theorem packR_bitFields (w : CmdWord) :
    packR (bitField w 31 24) (bitField w 23 22) (regField w 18) (regField w 14) (regField w 10) (bitField w 9 0) = w := by
  rw [packR, ← word_toNat_eq, BitVec.ofNat_toNat, BitVec.setWidth_eq]

/-- A word with the must-be-zero fields of format M zero is the format M word of its fields. -/
theorem packM_bitFields {w : CmdWord} (hfmt : bitField w 23 22 = 0) (hzero : bitField w 17 16 = 0) :
    packM (bitField w 31 24) (regField w 18) (BitVec.ofNat 16 (bitField w 15 0)) = w := by
  have hw := w.isLt
  refine BitVec.eq_of_toNat_eq ?_
  rw [packM_toNat _ _ (bitField_lt w 31 24)]
  simp only [regField, bitField, Fin.ofNat, BitVec.toNat_ofNat] at *
  omega

/-! `packR_fields` and `packM_fields` one field at a time, to rewrite with. -/

section PackedFields

variable {op fmt imm : Nat} {d a b : Fin 16} {mask : BitVec 16}

section FormatR

variable (h : op < 256 ∧ fmt < 4 ∧ imm < 1024)
include h

theorem opcode_packR : bitField (packR op fmt d a b imm) 31 24 = op := by
  obtain ⟨hop, hfmt, himm⟩ := h
  obtain ⟨hfield, -⟩ := packR_fields d a b hop hfmt himm
  exact hfield

theorem fmt_packR : bitField (packR op fmt d a b imm) 23 22 = fmt := by
  obtain ⟨hop, hfmt, himm⟩ := h
  obtain ⟨-, hfield, -⟩ := packR_fields d a b hop hfmt himm
  exact hfield

theorem d_packR : regField (packR op fmt d a b imm) 18 = d := by
  obtain ⟨hop, hfmt, himm⟩ := h
  obtain ⟨-, -, hfield, -⟩ := packR_fields d a b hop hfmt himm
  exact hfield

theorem a_packR : regField (packR op fmt d a b imm) 14 = a := by
  obtain ⟨hop, hfmt, himm⟩ := h
  obtain ⟨-, -, -, hfield, -⟩ := packR_fields d a b hop hfmt himm
  exact hfield

theorem b_packR : regField (packR op fmt d a b imm) 10 = b := by
  obtain ⟨hop, hfmt, himm⟩ := h
  obtain ⟨-, -, -, -, hfield, -⟩ := packR_fields d a b hop hfmt himm
  exact hfield

theorem imm_packR : bitField (packR op fmt d a b imm) 9 0 = imm := by
  obtain ⟨hop, hfmt, himm⟩ := h
  obtain ⟨-, -, -, -, -, hfield⟩ := packR_fields d a b hop hfmt himm
  exact hfield

end FormatR

section FormatM

variable (hop : op < 256)
include hop

theorem opcode_packM : bitField (packM op d mask) 31 24 = op := by
  obtain ⟨hfield, -⟩ := packM_fields d mask hop
  exact hfield

theorem fmt_packM : bitField (packM op d mask) 23 22 = 0 := by
  obtain ⟨-, hfield, -⟩ := packM_fields d mask hop
  exact hfield

theorem d_packM : regField (packM op d mask) 18 = d := by
  obtain ⟨-, -, hfield, -⟩ := packM_fields d mask hop
  exact hfield

theorem zero_packM : bitField (packM op d mask) 17 16 = 0 := by
  obtain ⟨-, -, -, hfield, -⟩ := packM_fields d mask hop
  exact hfield

theorem mask_packM : BitVec.ofNat 16 (bitField (packM op d mask) 15 0) = mask := by
  obtain ⟨-, -, -, -, hfield⟩ := packM_fields d mask hop
  rw [hfield, BitVec.ofNat_toNat, BitVec.setWidth_eq]

end FormatM

end PackedFields

/-! ## Decoding an encoding (R65 to R71) -/

/-- The fields of the word select the row, and its must-be-zero fields are zero: by the format of the row, and by what its `imm10`
holds. -/
theorem decode_encodeWord {i : Instr} (hwf : i.wellFormed = true) {wdata : Word} (hdata : ∀ rd d, i = .mts rd d → d = wdata) :
    decode (encodeWord i) wdata = .ok i := by
  cases i with
  | mts rd d =>
    obtain rfl := hdata rd d rfl
    rw [encodeWord, decode, opcode_packR, fmt_packR, d_packR, a_packR, b_packR, imm_packR]
    · rfl
    all_goals decide
  | rdcsr rd csr =>
    have hcsr : csr < 1024 := of_decide_eq_true hwf
    rw [encodeWord, decode, opcode_packR, fmt_packR, d_packR, a_packR, b_packR, imm_packR]
    · rfl
    all_goals exact ⟨by decide, by decide, hcsr⟩
  | rol32i rd rs1 sh | ror32i rd rs1 sh | rol64i rd rs1 sh | ror64i rd rs1 sh =>
    have hsh : sh < 64 := of_decide_eq_true hwf
    have himm : sh < 1024 := by omega
    rw [encodeWord, decode, opcode_packR, fmt_packR, d_packR, a_packR, b_packR, imm_packR]
    · exact need_eq_ok.2 ⟨by simpa using hsh, rfl⟩
    all_goals exact ⟨by decide, by decide, himm⟩
  | vagg vd mask | vaggi vd mask =>
    rw [encodeWord, decode, opcode_packM, fmt_packM, d_packM, zero_packM, mask_packM]
    · rfl
    all_goals decide
  | _ =>
    rw [encodeWord, decode, opcode_packR, fmt_packR, d_packR, a_packR, b_packR, imm_packR]
    · rfl
    all_goals decide

/-- Settles O1: of the write data only the operand of `MTS` matters. -/
theorem decodeOfEncode : Obligations.DecodeOfEncode := by
  intro i hwf
  refine ⟨decode_encodeWord hwf ?_, fun wdata hmts => decode_encodeWord hwf fun rd d h => absurd h (hmts rd d)⟩
  rintro rd d rfl
  rfl

end Sys2Proof

namespace Sys2Proof.Machine

/-! ## The table of R70 -/

/-- In a table with one row per key, a row with the key and `p` is what `lookup` finds, with `p`. -/
theorem any_eq_any_lookup {α : Type} {l : List (Nat × α)} (h : (l.map Prod.fst).Nodup) (k : Nat) (p : α → Bool) :
    (l.any fun row => k == row.1 && p row.2) = (l.lookup k).any p := by
  induction l with
  | nil => rfl
  | cons row l ih =>
    obtain ⟨key, x⟩ := row
    obtain ⟨hkey, hl⟩ := List.nodup_cons.1 h
    rw [List.any_cons, List.lookup_cons]
    by_cases hk : k = key
    · have hrest : ∀ row ∈ l, k ≠ row.1 := by
        rintro row hrow rfl
        exact hkey (List.mem_map.2 ⟨row, hrow, hk⟩)
      have hnone : (l.any fun row => k == row.1 && p row.2) = false := by
        simp only [List.any_eq_false, Bool.and_eq_true, beq_iff_eq, not_and]
        exact fun row hrow e => absurd e (hrest row hrow)
      rw [hnone, beq_iff_eq.2 hk, Bool.true_and, Bool.or_false]
      rfl
    · rw [ih hl, beq_eq_false_iff_ne.2 hk, Bool.false_and, Bool.false_or]

/-- A word is legal when its opcode has a row in the table and the fields of that row are zero. -/
theorem legalWord_eq_lookup (w : CmdWord) : legalWord w =
    (encodingTable.lookup (bitField w 31 24)).any fun zeros => zeros.all fun z => bitField w z.1 z.2 == 0 := by
  rw [← any_eq_any_lookup (by decide), legalWord]
  simp only [toNat_extractLsb_eq_bitField, extractLsb_beq_zero]

/-! ## What the decoder can answer (R73, R74) -/

/-- The word `w` and, for `MTS`, the write data are those of the well-formed instruction `i`. -/
def IsEncoding (i : Instr) (w : CmdWord) (wdata : Word) : Prop :=
  i.wellFormed = true ∧ encodeWord i = w ∧ ∀ rd d, i = .mts rd d → d = wdata

/-- What decoding `w` may answer: an error if the word is illegal, else an instruction of which it is the encoding. -/
inductive Decoding (w : CmdWord) (wdata : Word) : Except DecodeError Instr → Prop
  | illegal (h : legalWord w = false) (e : DecodeError) : Decoding w wdata (.error e)
  | instr (h : legalWord w = true) {i : Instr} (hi : IsEncoding i w wdata) : Decoding w wdata (.ok i)

section Rows

variable {w : CmdWord} {wdata : Word} {op : Nat} {zeros : List (Nat × Nat)} {z : Bool} {i : Instr}

/-- A row of the decoder whose check is that of the table. -/
theorem Decoding.row (hop : bitField w 31 24 = op) (hrow : encodingTable.lookup op = some zeros)
    (hz : z = zeros.all fun r => bitField w r.1 r.2 == 0) (hi : z = true → IsEncoding i w wdata) :
    Decoding w wdata (need z i) := by
  have hlegal : legalWord w = z := by
    rw [legalWord_eq_lookup, hop, hrow, hz]
    rfl
  cases z with
  | false => exact .illegal hlegal .nonzeroField
  | true => exact .instr hlegal (hi rfl)

/-- A row of format R. -/
theorem Decoding.rowR (hop : bitField w 31 24 = op) (hrow : encodingTable.lookup op = some zeros)
    (hz : z = zeros.all fun r => bitField w r.1 r.2 == 0)
    (hi : z = true → IsEncoding i
      (packR op (bitField w 23 22) (regField w 18) (regField w 14) (regField w 10) (bitField w 9 0)) wdata) :
    Decoding w wdata (need z i) :=
  .row hop hrow hz (by rwa [← hop, packR_bitFields] at hi)

/-- What holds of the instruction of each value of `fmt` holds of `byFmt`. -/
theorem byFmt_cases {P : Nat → Instr → Prop} {fmt : Nat} {h s d reserved : Instr} (hfmt : fmt < 4) (hh : P 0 h) (hs : P 1 s)
    (hd : P 2 d) (hreserved : P 3 reserved) : P fmt (byFmt fmt h s d reserved) := by
  match fmt, hfmt with
  | 0, _ => exact hh
  | 1, _ => exact hs
  | 2, _ => exact hd
  | 3, _ => exact hreserved

/-- The decoder, row by row. The rows differ in the fields that are zero, and in what makes their instruction well-formed. -/
theorem decode_decoding (w : CmdWord) (wdata : Word) : Decoding w wdata (decode w wdata) := by
  unfold decode
  split
  case h_2 hop => -- MTS
    refine .rowR hop rfl (by simp [regField_beq_zero, Bool.and_assoc]) fun hz => ?_
    simp only [Bool.and_eq_true, beq_iff_eq] at hz
    simp only [hz]
    exact ⟨rfl, rfl, by rintro _ _ ⟨⟩; rfl⟩
  case h_4 hop => -- RDCSR
    refine .rowR hop rfl (by simp [regField_beq_zero, Bool.and_assoc]) fun hz => ?_
    simp only [Bool.and_eq_true, beq_iff_eq] at hz
    simp only [hz]
    exact ⟨decide_eq_true (bitField_lt w 9 0), rfl, nofun⟩
  case h_13 hop | h_14 hop | h_15 hop | h_16 hop => -- the immediate rotates
    refine .rowR hop rfl (by simp [regField_beq_zero, Bool.and_assoc, imm10_div_64]) fun hz => ?_
    simp only [Bool.and_eq_true, beq_iff_eq] at hz
    obtain ⟨⟨hf, hb⟩, hsh⟩ := hz
    simp only [hf, hb]
    exact ⟨decide_eq_true (by omega), rfl, nofun⟩
  case h_23 hop | h_24 hop | h_25 hop | h_26 hop | h_27 hop | h_28 hop => -- the format-bearing opcodes
    refine .rowR hop rfl (by simp [regField_beq_zero, Bool.and_assoc]) fun hz => ?_
    simp only [Bool.and_eq_true, beq_iff_eq] at hz
    simp only [hz]
    exact byFmt_cases (P := fun fmt i => IsEncoding i (packR _ fmt _ _ _ _) wdata) (bitField_lt w 23 22)
      ⟨rfl, rfl, nofun⟩ ⟨rfl, rfl, nofun⟩ ⟨rfl, rfl, nofun⟩ ⟨rfl, rfl, nofun⟩
  case h_40 hop | h_41 hop => -- format M
    refine .row hop rfl (by simp) fun hz => ?_
    simp only [Bool.and_eq_true, beq_iff_eq] at hz
    obtain ⟨hf, hm⟩ := hz
    have hw := packM_bitFields hf hm
    rw [hop] at hw
    exact ⟨rfl, hw, nofun⟩
  case h_42 => -- no row
    have hnone : encodingTable.lookup (bitField w 31 24) = none := by
      simp only [List.lookup_eq_none_iff, encodingTable, List.cons_append, List.nil_append, List.forall_mem_cons,
        List.not_mem_nil, false_implies, implies_true, and_true, bne_iff_ne]
      and_intros <;> assumption
    refine .illegal ?_ _
    rw [legalWord_eq_lookup, hnone]
    rfl
  all_goals -- the rows whose `imm10` is zero
    next hop =>
    refine .rowR hop rfl (by simp [regField_beq_zero, Bool.and_assoc]) fun hz => ?_
    simp only [Bool.and_eq_true, beq_iff_eq] at hz
    simp only [hz]
    exact ⟨rfl, rfl, nofun⟩

theorem isEncoding_of_decode (h : decode w wdata = .ok i) : IsEncoding i w wdata := by
  have hd := decode_decoding w wdata
  rw [h] at hd
  cases hd with
  | instr _ hi => exact hi

theorem decode_of_legalWord (h : legalWord w = true) (wdata : Word) : ∃ i, decode w wdata = .ok i := by
  match decode w wdata, decode_decoding w wdata with
  | .ok i, _ => exact ⟨i, rfl⟩
  | .error _, .illegal hno _ => exact absurd h (Bool.eq_false_iff.1 hno)

theorem decode_of_not_legalWord (h : legalWord w = false) (wdata : Word) : ∃ e, decode w wdata = .error e := by
  match decode w wdata, decode_decoding w wdata with
  | .error e, _ => exact ⟨e, rfl⟩
  | .ok _, .instr hyes _ => exact absurd hyes (Bool.eq_false_iff.1 h)

end Rows

/-- Settles O2, by what the decoder can answer. -/
theorem encodeOfDecode : Obligations.EncodeOfDecode :=
  fun _ _ _ h => isEncoding_of_decode h

/-! ## The faults of a word (R73, R75) -/

section Words

variable {s t : State} {c : Command} {w : CmdWord} {wdata : Word} {i : Instr}

/-- A taken word that does not decode raises `ERR_ILLEGAL`. -/
theorem step_of_decode_error {e : DecodeError} (ht : s.Takes c t) (he : decode c.word c.wdata = .error e) :
    step s = .next (t.afterFault c.word 1) := by
  obtain ⟨hhung, hrst, cs, hcmd, rfl⟩ := ht
  simp only [step, plan_of_low hrst hhung hcmd, runCommand, he, takeFault_eq_afterFault]
  rfl

theorem step_of_not_legalWord (ht : s.Takes c t) (h : legalWord c.word = false) : step s = .next (t.afterFault c.word 1) := by
  obtain ⟨e, he⟩ := decode_of_not_legalWord h c.wdata
  exact step_of_decode_error ht he

/-- The opcodes whose `fmt` field is a format (R71). -/
def formatOpcodes : List Nat := [0x28, 0x29, 0x2A, 0x2B, 0x30, 0x31]

/-- In the table every other opcode has `fmt` among its must-be-zero fields. -/
theorem fmt_eq_zero_of_legalWord (h : legalWord w = true) (hop : (w.extractLsb 31 24).toNat ∉ formatOpcodes) :
    w.extractLsb 23 22 = 0#2 := by
  have htable : ∀ row ∈ encodingTable, row.1 ∈ formatOpcodes ∨ (23, 22) ∈ row.2 := by decide
  obtain ⟨row, hrow, hmatch⟩ := List.any_eq_true.1 h
  rw [Bool.and_eq_true, beq_iff_eq, List.all_eq_true] at hmatch
  obtain ⟨hopcode, hzero⟩ := hmatch
  obtain hformat | hfmt := htable row hrow
  · exact absurd (hopcode ▸ hformat) hop
  · exact beq_iff_eq.1 (hzero _ hfmt)

/-- The instruction of a reserved-format row: it raises `ERR_FMT` (R75). -/
def ReservedFormat (i : Instr) : Prop := ∀ s, exec i s = .next (s.afterFault (encodeWord i) 2)

theorem reservedFormat_of_exec (h : ∀ s, exec i s = finish i s (raise .fmt)) : ReservedFormat i :=
  fun s => (h s).trans (finish_raise_eq_afterFault i s .fmt)

theorem reservedFormat_of_decode (hop : bitField w 31 24 ∈ formatOpcodes) (hfmt : bitField w 23 22 = 3)
    (h : decode w wdata = .ok i) : ReservedFormat i := by
  simp only [formatOpcodes, List.mem_cons, List.not_mem_nil, or_false] at hop
  rw [decode, hfmt] at h
  rcases hop with hop | hop | hop | hop | hop | hop <;>
  · rw [hop] at h
    obtain ⟨-, rfl⟩ := need_eq_ok.1 h
    exact reservedFormat_of_exec fun _ => rfl

end Words

/-- Settles O4: by the table a word is illegal exactly when it does not decode. -/
theorem illegalWordsFault : Obligations.IllegalWordsFault :=
  ⟨fun _ _ _ _ ht h => step_of_not_legalWord ht h, fun _ wdata h => decode_of_legalWord h wdata⟩

/-- Settles O5: `fmt` 3 decodes to the reserved row of its opcode; elsewhere the table wants `fmt` zero. -/
theorem reservedFormatFaults : Obligations.ReservedFormatFaults := by
  refine ⟨fun s t w wdata ht hlegal hop hfmt => ?_, fun s t w wdata ht hop hfmt => ?_, fun s rd rs1 rs2 vd => ?_⟩
  · obtain ⟨i, hi⟩ := decode_of_legalWord hlegal wdata
    obtain ⟨-, hword, -⟩ := isEncoding_of_decode hi
    rw [toNat_extractLsb_eq_bitField] at hop
    have hfmt : bitField w 23 22 = 3 := by rw [← toNat_extractLsb_eq_bitField, hfmt]; rfl
    rw [stepRunsDecodedCommand s t _ i ht hi, reservedFormat_of_decode hop hfmt hi t, hword]
  · refine step_of_not_legalWord ht (Bool.eq_false_iff.2 fun hlegal => ?_)
    exact hfmt (fmt_eq_zero_of_legalWord hlegal hop)
  · have hreserved {i : Instr} (h : ∀ s, exec i s = finish i s (raise .fmt)) := reservedFormat_of_exec h s
    exact ⟨hreserved fun _ => rfl, hreserved fun _ => rfl, hreserved fun _ => rfl, hreserved fun _ => rfl,
      hreserved fun _ => rfl, hreserved fun _ => rfl⟩

/-- Settles O3: the decoder is evaluated on each word; the reserved format is a case of O5. -/
theorem workedEncodings : Obligations.WorkedEncodings := by
  refine ⟨rfl, fun d => ⟨rfl, rfl, rfl, rfl, rfl, rfl, rfl, rfl, rfl, rfl, rfl, rfl, rfl, rfl, rfl, ⟨_, rfl⟩, ⟨_, rfl⟩,
    fun s t ht => ?_⟩⟩
  obtain ⟨hreserved, -⟩ := reservedFormatFaults
  exact hreserved s t _ d ht (by decide) (by decide) (by decide)

/-! ## The response of a command (R66) -/

/-- The read data of a completing command: the register for `MFS`, else 0. -/
def readData (i : Instr) (s : State) : Word :=
  match i with
  | .mfs rs1 => s.getX rs1
  | _ => 0

/-- If the body `b` of `i` completes, it has not responded yet and its read data is that of `i`. -/
def ReadsOk (i : Instr) (s : State) (b : Body) : Prop := ∀ t w, b = .ok (t, w) → t.rspOut = s.rspOut ∧ w = readData i s

section ReadData

variable {i : Instr} {s t : State} {rd rs1 rs2 : SReg} {vd : VReg}

theorem ReadsOk.ok {w : Word} (hrsp : t.rspOut = s.rspOut := by rfl) (hw : w = readData i s := by rfl) :
    ReadsOk i s (.ok (t, w)) := by
  rintro _ _ ⟨⟩
  exact ⟨hrsp, hw⟩

theorem ReadsOk.error (e : Stop) : ReadsOk i s (.error e) := nofun

theorem ReadsOk.bind {α : Type} {m : Except Stop α} {k : α → Body} (hk : ∀ a, ReadsOk i s (k a)) :
    ReadsOk i s (m >>= k) := by
  cases m with
  | error e => exact .error e
  | ok a => exact hk a

theorem nextvecBody_reads (hi : 0 = readData i s) (f : Fmt) : ReadsOk i s (nextvecBody f rd rs1 s) := by
  refine .bind fun e => ?_
  cases nextVec s.params.primitives f e s.gen with
  | none => exact .error .hang
  | some r => exact .ok (hw := hi)

theorem vgenBody_reads (hi : 0 = readData i s) (f : Fmt) : ReadsOk i s (vgenBody f vd rs1 rs2 s) := by
  refine .bind fun n => .bind fun e => ?_
  cases genElements s.params.primitives f e n s.gen with
  | none => exact .error .hang
  | some r => exact .ok (hw := hi)

end ReadData

/-- Every instruction is `finish` of a body that is as `ReadsOk` says. -/
theorem exec_readBody (i : Instr) (s : State) : ∃ b, exec i s = finish i s b ∧ ReadsOk i s b := by
  cases i with
  | next12Fmt3 _ | next01Fmt3 _ | nextunitFmt3 _ | nextvecFmt3 _ _ | vnewFmt3 _ _ | vgenFmt3 _ _ _ =>
    exact ⟨raise .fmt, rfl, .error _⟩
  | rdcsr rd csr =>
    refine ⟨_, rfl, ?_⟩
    cases s.readCsr csr with
    | none => exact .error _
    | some w => exact .ok
  | nextvecH _ _ | nextvecS _ _ | nextvecD _ _ => exact ⟨_, rfl, nextvecBody_reads rfl _⟩
  | vgenH _ _ _ | vgenS _ _ _ | vgenD _ _ _ => exact ⟨_, rfl, vgenBody_reads rfl _⟩
  | rol32 _ _ _ | ror32 _ _ _ | rol64 _ _ _ | ror64 _ _ _ | rol32i _ _ _ | ror32i _ _ _ | rol64i _ _ _ | ror64i _ _ _
  | vnewH _ _ | vnewS _ _ | vnewD _ _ | vcopy _ _ | vnorm _ _ | vdot _ _ _ | vcos _ _ _ | vmul _ _ _ | veq _ _ _
  | vrotl _ _ | vrotr _ _ | vagg _ _ | vaggi _ _ =>
    exact ⟨_, rfl, .bind fun _ => .ok⟩
  | vgete _ _ _ | vsete _ _ _ => exact ⟨_, rfl, .bind fun _ => .bind fun _ => .ok⟩
  | _ => exact ⟨_, rfl, .ok⟩

/-- What the host sees of an instruction: one `OK` response with its read data, a fault, or a hang. -/
theorem exec_response (i : Instr) (s : State) : ∃ u, exec i s = .next u ∧
    (u.rspOut = s.rspOut ++ [⟨0, readData i s⟩] ∨ (∃ c, u = s.takeFault (encodeWord i) c) ∨ u.hung = true) := by
  obtain ⟨b, hexec, hb⟩ := exec_readBody i s
  obtain ⟨u, w, hok, hu⟩ | ⟨c, -, hu⟩ | ⟨-, hu⟩ := finish_cases i s b <;> refine ⟨_, hexec.trans hu, ?_⟩
  · obtain ⟨hrsp, rfl⟩ := hb u w hok
    exact .inl (by rw [State.respond_rspOut, hrsp])
  · exact .inr (.inl ⟨c, rfl⟩)
  · exact .inr (.inr rfl)

/-- A fault has one of the 13 codes (R241). -/
theorem takeFault_eq_afterFault_code (s : State) (w : CmdWord) (c : FaultCode) :
    ∃ code : BitVec 8, 1 ≤ code.toNat ∧ code.toNat ≤ 13 ∧ s.takeFault w c = s.afterFault w code := by
  have hpos : c.code.toNat ≠ 0 := fun h => c.code_ne_zero (BitVec.eq_of_toNat_eq h)
  exact ⟨c.code, Nat.one_le_iff_ne_zero.2 hpos, c.code_le, takeFault_eq_afterFault s w c⟩

/-- Settles O12: an illegal word faults; any other is an instruction, and its word is the one a fault records. -/
theorem responseOfEveryCommand : Obligations.ResponseOfEveryCommand := by
  intro s t c ht
  cases hd : decode c.word c.wdata with
  | error e => exact ⟨_, step_of_decode_error ht hd, fun _ => .inr ⟨1, by decide, by decide, rfl⟩⟩
  | ok i =>
    obtain ⟨-, hword, -⟩ := isEncoding_of_decode hd
    obtain ⟨u, hexec, hu⟩ := exec_response i t
    refine ⟨u, (stepRunsDecodedCommand s t c i ht hd).trans hexec, fun hready => ?_⟩
    obtain ⟨-, -, cs, -, rfl⟩ := ht
    obtain hrsp | ⟨code, rfl⟩ | hhung := hu
    · left
      rw [hrsp]
      cases i <;> rfl
    · exact .inr (hword ▸ takeFault_eq_afterFault_code _ _ code)
    · simp [State.cmdReady, hhung] at hready

end Sys2Proof.Machine


/-! # Commands without a check, and the statement of family 40_system

`exec_nop`, `exec_mts` and `exec_mfs` say which body each command finishes; `finish_ok_eq_afterOk` says what finishing it does. -/

namespace Sys2Proof.Machine

/-- A body that answers with `t` and `rdata` completes: one more in the count, and the response `(OK, rdata)` (R31, R66). -/
theorem finish_ok_eq_afterOk (i : Instr) (s t : State) (rdata : Word) : finish i s (.ok (t, rdata)) = .next (t.afterOk rdata) :=
  finish_ok i s t rdata

/-- `NOP` has no effect of its own (R90). -/
theorem exec_nop (s : State) : exec .nop s = finish .nop s (.ok (s, 0)) := rfl

/-- `MTS` writes all of the write data to its register (R91). -/
theorem exec_mts (rd : SReg) (wdata : Word) (s : State) :
    exec (.mts rd wdata) s = finish (.mts rd wdata) s (.ok ({ s with x := s.x.set rd wdata }, 0)) := rfl

/-- `MFS` answers with its register and has no effect of its own (R92). -/
theorem exec_mfs (rs1 : SReg) (s : State) : exec (.mfs rs1) s = finish (.mfs rs1) s (.ok (s, s.x[rs1])) := rfl

/-- Settles O21: none of the three bodies has a check that could fail. -/
theorem nopMtsMfsComplete : Obligations.NopMtsMfsComplete := by
  intro s r wdata
  refine ⟨?nop, ?mts, ?mfs⟩
  case nop => rw [exec_nop, finish_ok_eq_afterOk]
  case mts => rw [exec_mts, finish_ok_eq_afterOk]
  case mfs => rw [exec_mfs, finish_ok_eq_afterOk]

end Sys2Proof.Machine

/-! # Composition and rotation laws, and the statements of family 41_bitcounter

A population count over a field of bits counts the source over that range, so the composition law is a range cut in two. The
single-bit right rotations move the bits by their number; the left rotations undo them. -/

namespace Sys2Proof

/-! ## Population counts of parts (R100) -/

section Popcount

variable {N hi lo : Nat}

theorem popcount_eq_countP (v : BitVec N) : popcount v = (List.range N).countP fun i => v.getLsbD i :=
  onesBelow_eq_countP v N

theorem popcount_extractLsb (v : BitVec N) (hi lo : Nat) :
    popcount (v.extractLsb hi lo) = (List.range (hi - lo + 1)).countP fun i => v.getLsbD (lo + i) := by
  rw [popcount_eq_countP]
  refine List.countP_congr fun i hmem => ?_
  simp [List.mem_range.1 hmem]

/-- A word may be cut between any two of its bits. -/
theorem popcount_split (v : BitVec N) (hN : N = hi + 1) (hcut : lo < hi) :
    popcount v = popcount (v.extractLsb hi (lo + 1)) + popcount (v.extractLsb lo 0) := by
  have hrange : List.range N = List.range (lo + 1) ++ (List.range (hi - (lo + 1) + 1)).map (lo + 1 + ·) := by
    rw [← List.range_add]
    congr 1
    omega
  calc popcount v
      = (List.range (lo + 1)).countP (fun i => v.getLsbD i)
          + (List.range (hi - (lo + 1) + 1)).countP (fun i => v.getLsbD (lo + 1 + i)) := by
        rw [popcount_eq_countP, hrange, List.countP_append, List.countP_map]
        rfl
    _ = popcount (v.extractLsb hi (lo + 1)) + popcount (v.extractLsb lo 0) := by
        simp only [popcount_extractLsb, Nat.sub_zero, Nat.zero_add]
        exact Nat.add_comm ..

theorem popcount_zero (n : Nat) : popcount (0#n) = 0 := by
  rw [popcount_eq_countP, List.countP_eq_zero]
  simp

theorem popcount_allOnes (n : Nat) : popcount (BitVec.allOnes n) = n := by
  have hones : ∀ i ∈ List.range n, (BitVec.allOnes n).getLsbD i = true := by simp
  rw [popcount_eq_countP, List.countP_eq_length.2 hones, List.length_range]

end Popcount

/-- Settles O25: each width is cut in the middle. -/
theorem popcountComposition : Obligations.PopcountComposition :=
  ⟨fun v => popcount_split v rfl (by decide), fun v => popcount_split v rfl (by decide),
    fun v => popcount_split v rfl (by decide), fun n => ⟨popcount_zero n, popcount_allOnes n⟩⟩

/-! ## Rotations that undo each other (R101) -/

section Rotations

variable {N n i : Nat}

/-- A right rotation undoes a left rotation by the same count. -/
theorem ror_rol (v : BitVec N) (hn : n < N) : ror (rol v n) n = v := by
  refine BitVec.eq_of_getLsbD_eq fun i hi => ?_
  have hback : ((i + n) % N + N - n) % N = i % N := by
    refine Nat.ModEq.add_right_cancel' n ?_
    rw [Nat.sub_add_cancel (by omega)]
    simp [Nat.ModEq]
  rw [getLsbD_ror _ hn hi, getLsbD_rol v hn (Nat.mod_lt _ (by omega)), hback, Nat.mod_eq_of_lt hi]

theorem getLsbD_iterate_ror_one (v : BitVec N) (hN : 1 < N) (k : Nat) (hi : i < N) :
    ((fun w => ror w 1)^[k] v).getLsbD i = v.getLsbD ((i + k) % N) := by
  induction k generalizing i with
  | zero => rw [Function.iterate_zero_apply, Nat.add_zero, Nat.mod_eq_of_lt hi]
  | succ k ih =>
    rw [Function.iterate_succ_apply', getLsbD_ror _ hN hi, ih (Nat.mod_lt _ (by omega)), Nat.mod_add_mod,
      Nat.add_assoc, Nat.add_comm 1 k]

theorem iterate_ror_one_width (v : BitVec N) (hN : 1 < N) : (fun w => ror w 1)^[N] v = v := by
  refine BitVec.eq_of_getLsbD_eq fun i hi => ?_
  rw [getLsbD_iterate_ror_one v hN N hi, Nat.add_mod_right, Nat.mod_eq_of_lt hi]

/-- The left rotations undo as many right rotations, which were the identity already. -/
theorem iterate_rol_one_width (v : BitVec N) (hN : 1 < N) : (fun w => rol w 1)^[N] v = v := by
  have hundo : Function.LeftInverse (fun w : BitVec N => rol w 1) (fun w => ror w 1) := fun w => rol_ror w hN
  calc (fun w => rol w 1)^[N] v
      = (fun w => rol w 1)^[N] ((fun w => ror w 1)^[N] v) := by rw [iterate_ror_one_width v hN]
    _ = v := hundo.iterate N v

end Rotations

/-- Settles O27: the laws hold for every width above 1. -/
theorem rotationLaws : Obligations.RotationLaws := by
  intro N hwidth v
  have hN : 1 < N := by omega
  exact ⟨rol_zero v (by omega), iterate_rol_one_width v hN, iterate_ror_one_width v hN,
    fun n hn => ⟨rol_ror v hn, ror_rol v hn⟩⟩

end Sys2Proof

namespace Sys2Proof.Machine

/-! ## Rotate counts out of range (R102) -/

section Rotates

variable {n count : Nat}

theorem rotateCount_of_le (h : n ≤ count) : rotateCount n count = raise .shift := if_pos h

theorem finish_rolBody_raise (h : n ≤ count) (i : Instr) (s : State) (rd rs1 : SReg) :
    finish i s (rolBody n rd rs1 count s) = .next (s.afterFault (encodeWord i) FaultCode.shift.code) :=
  finish_bind_raise (rotateCount_of_le h) ..

theorem finish_rorBody_raise (h : n ≤ count) (i : Instr) (s : State) (rd rs1 : SReg) :
    finish i s (rorBody n rd rs1 count s) = .next (s.afterFault (encodeWord i) FaultCode.shift.code) :=
  finish_bind_raise (rotateCount_of_le h) ..

end Rotates

/-- Settles O29: the count is the only check, and the shift field of the 64-bit immediate forms passes it. -/
theorem rotateCountFaults : Obligations.RotateCountFaults := by
  intro s rd rs1 rs2 sh
  refine ⟨?register32, ?register64, ?immediate32, ?immediate64⟩
  case register32 => exact fun h => ⟨finish_rolBody_raise h .., finish_rorBody_raise h ..⟩
  case register64 => exact fun h => ⟨finish_rolBody_raise h .., finish_rorBody_raise h ..⟩
  case immediate32 => exact fun h _ => ⟨finish_rolBody_raise h .., finish_rorBody_raise h ..⟩
  case immediate64 => exact fun h => ⟨⟨_, finish_rolBody_64 h ..⟩, ⟨_, finish_rorBody_64 h ..⟩⟩

end Sys2Proof.Machine

/-! # The generator, and the statements of family 42_prbs

A step leaves every word but the one at the cursor, so it can be undone, and the words come out in order. The update of the seed
expansion is linear over exclusive or, so `2^k` updates are one with a longer rotation. From the zero array the first sample of the
rejection loop decides. -/

namespace Sys2Proof

/-! ## The words and the cursor after a step (R122) -/

theorem nextCur_val (c : Fin 37) : (nextCur c).val = (c.val + 1) % 37 := rfl

theorem nextCur_ne (c : Fin 37) : nextCur c ≠ c := by
  rw [Ne, Fin.ext_iff, nextCur_val]
  omega

theorem step64_output {g : Gen} {i : Fin 37} (hi : g.cur = i) : g.step64.1 = g.words[i] := by
  subst hi
  rfl

/-- The word at the cursor `i` takes in its neighbour, the word at `nxt`. -/
theorem advance_getElem_cur {g : Gen} {i nxt : Fin 37} (hi : g.cur = i) (hnxt : nextCur i = nxt) :
    g.advance.words[i] = g.words[i] ^^^ ror g.words[nxt] 1 := by
  subst hi hnxt
  simp [Gen.advance]

theorem advance_getElem_nextCur (g : Gen) : g.advance.words[nextCur g.cur] = g.words[nextCur g.cur] :=
  g.advance_getElem_other (nextCur_ne g.cur)

theorem iterate_advance_cur (k : Nat) (g : Gen) : (Gen.advance^[k] g).cur.val = (g.cur.val + k) % 37 := by
  induction k with
  | zero => exact (Nat.mod_eq_of_lt g.cur.isLt).symm
  | succ k ih => rw [Function.iterate_succ_apply', Gen.advance_cur, nextCur_val, ih, Nat.mod_add_mod, Nat.add_assoc]

/-- A word stays as it is while the cursor is elsewhere. -/
theorem iterate_advance_getElem_other {g : Gen} {i : Fin 37} {k : Nat} (h : ∀ j < k, (g.cur.val + j) % 37 ≠ i.val) :
    (Gen.advance^[k] g).words[i] = g.words[i] := by
  induction k with
  | zero => rfl
  | succ k ih =>
    have hne : i ≠ (Gen.advance^[k] g).cur := fun e => h k k.lt_succ_self (by rw [e, iterate_advance_cur])
    rw [Function.iterate_succ_apply', Gen.advance_getElem_other _ hne, ih fun j hj => h j (hj.trans k.lt_succ_self)]

/-- From cursor 0 the outputs of the first round are the words in order. -/
theorem iterate_advance_output {g : Gen} (hcur : g.cur = 0) (k : Fin 37) :
    (Gen.advance^[k.val] g).step64.1 = g.words[k] := by
  have hk : (Gen.advance^[k.val] g).cur = k := by
    rw [Fin.ext_iff, iterate_advance_cur, hcur, Fin.val_zero, Nat.zero_add, Nat.mod_eq_of_lt k.isLt]
  rw [step64_output hk]
  refine iterate_advance_getElem_other fun j hj => ?_
  rw [hcur, Fin.val_zero]
  omega

/-- The word that the first step changed stays so until the cursor is back. -/
theorem iterate_advance_getElem_cur {g : Gen} {i nxt : Fin 37} (hi : g.cur = i) (hnxt : nextCur i = nxt) {k : Nat} (hk : k < 37) :
    (Gen.advance^[k + 1] g).words[i] = g.words[i] ^^^ ror g.words[nxt] 1 := by
  rw [Function.iterate_succ_apply, iterate_advance_getElem_other, advance_getElem_cur hi hnxt]
  intro j hj
  rw [Gen.advance_cur, nextCur_val, hi]
  omega

/-- The second round begins with that word. -/
theorem iterate_advance_output_37 {g : Gen} (hcur : g.cur = 0) :
    (Gen.advance^[37] g).step64.1 = g.words[(0 : Fin 37)] ^^^ ror g.words[(1 : Fin 37)] 1 := by
  have hback : (Gen.advance^[37] g).cur = 0 := by
    rw [Fin.ext_iff, iterate_advance_cur, hcur]
    rfl
  rw [step64_output hback]
  exact iterate_advance_getElem_cur hcur rfl (by decide : 36 < 37)

/-- The first words after reset, R122's example. -/
theorem reset_words : Machine.State.reset.gen.words[(0 : Fin 37)] = 0x6E1AB72CCC0C37A3#64 ∧
    Machine.State.reset.gen.words[(0 : Fin 37)] ^^^ ror Machine.State.reset.gen.words[(1 : Fin 37)] 1 =
      0xD5204FD4B0BD00BE#64 := by
  decide

/-- Settles O31: one word changes at a time, so each comes out as it was put in, and then as it was changed. -/
theorem generatorStep : Obligations.GeneratorStep := by
  obtain ⟨hfirst, hchanged⟩ := reset_words
  refine ⟨fun g => ⟨rfl, rfl, fun nxt hnxt => ?_, fun i => g.advance_getElem_other⟩, fun g hcur =>
    ⟨iterate_advance_output hcur, iterate_advance_output_37 hcur⟩, hfirst, ?_, rfl, ?_⟩
  · exact advance_getElem_cur rfl (Fin.ext hnxt.symm)
  · exact (advance_getElem_cur rfl rfl).trans hchanged
  · exact (iterate_advance_output_37 rfl).trans hchanged

/-! ## Undoing a step (R129) -/

/-- The index before, wrapping to the last. -/
def prevCur (c : Fin 37) : Fin 37 := ⟨(c.val + 36) % 37, Nat.mod_lt _ (by decide)⟩

theorem prevCur_val (c : Fin 37) : (prevCur c).val = (c.val + 36) % 37 := rfl

theorem prevCur_nextCur (c : Fin 37) : prevCur (nextCur c) = c := by
  rw [Fin.ext_iff, prevCur_val, nextCur_val]
  omega

theorem nextCur_prevCur (c : Fin 37) : nextCur (prevCur c) = c := by
  rw [Fin.ext_iff, nextCur_val, prevCur_val]
  omega

/-- The step back: the cursor retreats, and the word there gives up what it took in of its neighbour, which is as it was then. -/
def Gen.retreat (g : Gen) : Gen where
  words := g.words.set (prevCur g.cur) (g.words[prevCur g.cur] ^^^ ror g.words[g.cur] 1)
  cur := prevCur g.cur

theorem Gen.retreat_cur (g : Gen) : g.retreat.cur = prevCur g.cur := rfl

theorem retreat_getElem_prevCur {g : Gen} {i nxt : Fin 37} (hi : prevCur g.cur = i) (hnxt : g.cur = nxt) :
    g.retreat.words[i] = g.words[i] ^^^ ror g.words[nxt] 1 := by
  subst hi hnxt
  simp [Gen.retreat]

theorem retreat_getElem_other {g : Gen} {i : Fin 37} (h : prevCur g.cur ≠ i) : g.retreat.words[i] = g.words[i] := by
  have hval : (prevCur g.cur).val ≠ i.val := fun e => h (Fin.ext e)
  simp [Gen.retreat, hval]

theorem Gen.ext_words {g g' : Gen} (hcur : g.cur = g'.cur) (hwords : ∀ i : Fin 37, g.words[i] = g'.words[i]) : g = g' := by
  cases g
  cases g'
  obtain rfl := hcur
  congr 1
  exact Vector.ext fun i hi => hwords ⟨i, hi⟩

theorem retreat_advance (g : Gen) : g.advance.retreat = g := by
  have hcur : prevCur g.advance.cur = g.cur := prevCur_nextCur g.cur
  refine Gen.ext_words hcur fun i => ?_
  by_cases hi : g.cur = i
  · rw [retreat_getElem_prevCur (hcur.trans hi) g.advance_cur, advance_getElem_nextCur,
      advance_getElem_cur hi (congrArg nextCur hi.symm), xor_cancel_right]
  · rw [retreat_getElem_other (hcur ▸ hi), Gen.advance_getElem_other _ (Ne.symm hi)]

theorem advance_retreat (g : Gen) : g.retreat.advance = g := by
  have hcur : nextCur (prevCur g.cur) = g.cur := nextCur_prevCur g.cur
  refine Gen.ext_words hcur fun i => ?_
  by_cases hi : prevCur g.cur = i
  · have hne : prevCur g.cur ≠ g.cur := fun e => nextCur_ne (prevCur g.cur) (hcur.trans e.symm)
    rw [advance_getElem_cur hi (hi ▸ hcur), retreat_getElem_other hne, retreat_getElem_prevCur hi rfl, xor_cancel_right]
  · rw [Gen.advance_getElem_other _ (Ne.symm hi), retreat_getElem_other hi]

theorem advance_bijective : Function.Bijective Gen.advance :=
  Function.bijective_iff_has_inverse.2 ⟨Gen.retreat, retreat_advance, advance_retreat⟩

/-! ## The all-zero array (R129) -/

theorem ror_one_of_zero : ror (0 : Word) 1 = 0 := rfl

/-- `S[0..36]` is all zero, the cursor anywhere. -/
def Gen.AllZero (g : Gen) : Prop := ∀ i : Fin 37, g.words[i] = 0

theorem Gen.allZero_iff_all {g : Gen} : g.AllZero ↔ g.words.toList.all (fun w => w == 0) = true := by
  simp [Gen.AllZero, Fin.forall_iff]

theorem advance_allZero_iff {g : Gen} : g.advance.AllZero ↔ g.AllZero := by
  constructor
  · intro h i
    by_cases hi : i = g.cur
    · subst hi
      have hnext := advance_getElem_nextCur g ▸ h (nextCur g.cur)
      have hword := advance_getElem_cur rfl rfl ▸ h g.cur
      rwa [hnext, ror_one_of_zero, xor_zero] at hword
    · exact g.advance_getElem_other hi ▸ h i
  · intro h
    rw [Gen.allZero_iff_all] at h ⊢
    exact (advance_allZero h).2

/-- Settles O33, by the step back. -/
theorem generatorStepBijective : Obligations.GeneratorStepBijective :=
  ⟨advance_bijective, fun _ => advance_allZero_iff⟩

/-! ## The seed expansion, linear over exclusive or (R129) -/

section Linear

variable {N : Nat}

theorem ror_xor (v w : BitVec N) {n : Nat} (hn : n < N) : ror (v ^^^ w) n = ror v n ^^^ ror w n := by
  refine BitVec.eq_of_getLsbD_eq fun i hi => ?_
  simp only [BitVec.getLsbD_xor, getLsbD_ror _ hn hi]

theorem ror_ror (v : BitVec N) {m n : Nat} (hm : m < N) (hn : n < N) : ror (ror v m) n = ror v ((m + n) % N) := by
  have hN : 0 < N := by omega
  refine BitVec.eq_of_getLsbD_eq fun i hi => ?_
  rw [getLsbD_ror _ hn hi, getLsbD_ror _ hm (Nat.mod_lt _ hN), getLsbD_ror _ (Nat.mod_lt _ hN) hi, Nat.mod_add_mod,
    Nat.add_mod_mod, Nat.add_assoc, Nat.add_comm m n]

/-- In `(1 + R)^2 = 1 + R^2` the mixed terms cancel. -/
theorem xor_ror_twice (v : BitVec N) {n : Nat} (hn : n < N) :
    (v ^^^ ror v n) ^^^ ror (v ^^^ ror v n) n = v ^^^ ror v ((n + n) % N) := by
  rw [ror_xor _ _ hn, ror_ror _ hn hn, xor_assoc, xor_cancel_left]

end Linear

theorem iterate_seedMix_two_pow (v : Word) (k : Nat) : seedMix^[2 ^ k] v = v ^^^ ror v (23 * 2 ^ k % 64) := by
  induction k generalizing v with
  | zero => rfl
  | succ k ih =>
    have hlt : 23 * 2 ^ k % 64 < 64 := Nat.mod_lt _ (by decide)
    have hsum : (23 * 2 ^ k % 64 + 23 * 2 ^ k % 64) % 64 = 23 * (2 ^ k + 2 ^ k) % 64 := by
      rw [← Nat.add_mod, Nat.mul_add]
    rw [pow_succ, Nat.mul_two, Function.iterate_add_apply, ih, ih, xor_ror_twice v hlt, hsum]

theorem iterate_seedMix_32 (v : Word) : seedMix^[32] v = v ^^^ ror v 32 :=
  iterate_seedMix_two_pow v 5

theorem halves_eq_of_xor_ror_32 (v : Word) :
    (v ^^^ ror v 32).extractLsb 63 32 = (v ^^^ ror v 32).extractLsb 31 0 := by
  refine BitVec.eq_of_getLsbD_eq fun i hi => ?_
  have hhigh : (32 + i + 32) % 64 = i := by omega
  have hlow : (i + 32) % 64 = 32 + i := by omega
  have hxor (j : Nat) (hj : j < 64) : (v ^^^ ror v 32).getLsbD j = (v.getLsbD j ^^ v.getLsbD ((j + 32) % 64)) := by
    rw [BitVec.getLsbD_xor, getLsbD_ror v (by decide) hj]
  rw [BitVec.getLsbD_extractLsb, BitVec.getLsbD_extractLsb, hxor _ (by omega), hxor _ (by omega), hhigh, Nat.zero_add, hlow,
    Bool.xor_comm]

/-- Settles O34: the words in question have had 32 updates and more. -/
theorem seededHalvesEqual : Obligations.SeededHalvesEqual := by
  refine ⟨iterate_seedMix_32, fun storeFirst seed i hi => ?_⟩
  obtain ⟨n, hn⟩ : ∃ n, (if storeFirst then i.val else i.val + 1) = 32 + n :=
    Nat.exists_eq_add_of_le (by cases storeFirst <;> simp at hi ⊢ <;> omega)
  rw [getElem_seedGen_words, hn, Function.iterate_add_apply, iterate_seedMix_32]
  exact halves_eq_of_xor_ror_32 _

/-! ## Seeds of the all-zero array (R129, R280) -/

/-- 23 is a unit modulo 64, so steps of 23 reach every bit. -/
theorem ror_23_eq_self_iff {v : Word} : ror v 23 = v ↔ v = 0 ∨ v = BitVec.allOnes 64 := by
  constructor
  · intro h
    have hstep (k : Nat) : v.getLsbD (23 * k % 64) = v.getLsbD 0 := by
      induction k with
      | zero => rfl
      | succ k ih =>
        have hk : 23 * (k + 1) % 64 = (23 * k % 64 + 23) % 64 := by omega
        rw [hk, ← getLsbD_ror v (by decide) (Nat.mod_lt _ (by decide)), h, ih]
    have hbit (i : Nat) (hi : i < 64) : v.getLsbD i = v.getLsbD 0 := by
      have hi' : 23 * (39 * i) % 64 = i := by omega
      rw [← hstep (39 * i), hi']
    cases h0 : v.getLsbD 0 with
    | false => exact .inl (BitVec.eq_of_getLsbD_eq fun i hi => ((hbit i hi).trans h0).trans BitVec.getLsbD_zero.symm)
    | true => exact .inr (BitVec.eq_of_getLsbD_eq fun i hi => by rw [hbit i hi, h0, BitVec.getLsbD_allOnes, decide_eq_true hi])
  · rintro (rfl | rfl) <;> decide

theorem seedMix_eq_zero_iff {v : Word} : seedMix v = 0 ↔ v = 0 ∨ v = BitVec.allOnes 64 := by
  rw [← ror_23_eq_self_iff, seedMix, eq_comm (a := ror v 23)]
  exact xor_eq_zero_iff

theorem seedStart_eq_iff {seed w : Word} : seedStart seed = w ↔ seed = ror seedConst (seed.toNat % 64) ^^^ w :=
  xor_eq_iff_right_eq ..

/-- A seed is fixed by its low six bits when the start is; of the 64 candidates two have the low bits they came from. -/
theorem seedStart_eq_zero_iff {seed : Word} :
    seedStart seed = 0 ↔ seed = 0xD232C3910BDEBA0F#64 ∨ seed = 0x217BD741FA465872#64 := by
  have hcandidates : ∀ n < 64, (ror seedConst n).toNat % 64 = n → n = 15 ∨ n = 50 := by decide
  constructor
  · intro h
    have hseed : seed = ror seedConst (seed.toNat % 64) := by simpa using seedStart_eq_iff.1 h
    obtain hn | hn := hcandidates _ (Nat.mod_lt _ (by decide)) (congrArg (·.toNat % 64) hseed).symm <;> rw [hn] at hseed
    · exact .inl hseed
    · exact .inr hseed
  · rintro (rfl | rfl) <;> decide

theorem seedStart_ne_allOnes (seed : Word) : seedStart seed ≠ BitVec.allOnes 64 := by
  have hcandidates : ∀ n < 64, (ror seedConst n ^^^ BitVec.allOnes 64).toNat % 64 ≠ n := by decide
  exact fun h => hcandidates _ (Nat.mod_lt _ (by decide)) (congrArg (·.toNat % 64) (seedStart_eq_iff.1 h)).symm

theorem iterate_seedMix_zero (k : Nat) : seedMix^[k] 0 = 0 :=
  Function.iterate_fixed (by decide) k

/-- Word 0 alone tells: it is the start, or its first update, which is 0 for no other start since none is all ones. -/
theorem seedGen_allZero_iff {storeFirst : Bool} {seed : Word} : (seedGen storeFirst seed).AllZero ↔ seedStart seed = 0 := by
  constructor
  · intro h
    have h0 := (getElem_seedGen_words storeFirst seed 0).symm.trans (h 0)
    cases storeFirst with
    | true => exact h0
    | false => exact (seedMix_eq_zero_iff.1 h0).resolve_right (seedStart_ne_allOnes seed)
  · intro h i
    rw [getElem_seedGen_words, h, iterate_seedMix_zero]

/-- Settles O35, by the start of the fill. -/
theorem degenerateSeeds : Obligations.DegenerateSeeds :=
  ⟨fun _ => seedMix_eq_zero_iff, fun _ _ => seedGen_allZero_iff.trans seedStart_eq_zero_iff⟩

/-! ## The rejection loop on the all-zero array (R129, R160) -/

section ZeroArray

variable {p : Primitives} {f : Fmt} {e : Word} {g : Gen}

theorem nextVec_of_accepted {r : Word} (h : accepted f e (nextUnitOf p f g.step64.1) = some r) :
    nextVec p f e g = some (r, g.advance) := by
  obtain ⟨n, hn⟩ : ∃ n, genStates = n + 1 := Nat.exists_eq_add_one_of_ne_zero (by simp [genStates])
  rw [nextVec_eq_within, hn, nextVecWithin_succ, h]

theorem nextVec_of_zero_rejected (hzero : g.AllZero) (h : accepted f e (nextUnitOf p f 0) = none) : nextVec p f e g = none :=
  if_pos (by rw [rejectsForEver, Gen.allZero_iff_all.1 hzero, h]; rfl)

/-- Every sample is the first one again. -/
theorem nextVec_of_allZero (hzero : g.AllZero) :
    nextVec p f e g = (accepted f e (nextUnitOf p f 0)).map fun r => (r, g.advance) := by
  cases h : accepted f e (nextUnitOf p f 0) with
  | none => exact nextVec_of_zero_rejected hzero h
  | some r =>
    have hout : g.step64.1 = 0 := hzero g.cur
    exact nextVec_of_accepted (hout ▸ h)

theorem genElements_isSome_of_zero_accepted (h : (accepted f e (nextUnitOf p f 0)).isSome) (n : Nat) (hzero : g.AllZero) :
    (genElements p f e n g).isSome := by
  obtain ⟨r, hr⟩ := Option.isSome_iff_exists.1 h
  induction n generalizing g with
  | zero => rfl
  | succ n ih =>
    obtain ⟨⟨rs, g'⟩, hrs⟩ := Option.isSome_iff_exists.1 (ih (advance_allZero_iff.2 hzero))
    simp only [genElements, nextVec_of_allZero hzero, hr, Option.map_some, hrs, Option.isSome_some]

theorem genElements_of_allZero (hzero : g.AllZero) (n : Nat) :
    (genElements p f e (n + 1) g).isSome = (accepted f e (nextUnitOf p f 0)).isSome := by
  cases h : accepted f e (nextUnitOf p f 0) with
  | none => simp only [genElements, nextVec_of_allZero hzero, h, Option.map_none, Option.isSome_none]
  | some r => exact genElements_isSome_of_zero_accepted (h ▸ rfl) (n + 1) hzero

end ZeroArray

/-! ## Magnitudes (R171, R178) -/

theorem Fmt.unitsOf_lt_of_frac_lt (f : Fmt) (ef : Nat) {fr fr' : Nat} (h : fr < fr') : f.unitsOf ef fr < f.unitsOf ef fr' := by
  unfold Fmt.unitsOf
  split
  · exact h
  · exact Nat.mul_lt_mul_of_pos_right (Nat.add_lt_add_left h _) (by positivity)

/-- A binade ends below the next one. -/
theorem Fmt.unitsOf_lt_next (f : Fmt) (ef : Nat) {fr : Nat} (h : fr < 2 ^ f.fracBits) : f.unitsOf ef fr < f.unitsOf (ef + 1) 0 := by
  cases ef with
  | zero => simpa [Fmt.unitsOf] using h
  | succ ef =>
    have hpos : 0 < 2 ^ ef := by positivity
    simp only [Fmt.unitsOf, Nat.succ_ne_zero, if_false, Nat.add_sub_cancel, Nat.add_zero, pow_succ, ← Nat.mul_assoc]
    calc (2 ^ f.fracBits + fr) * 2 ^ ef
        < (2 ^ f.fracBits + 2 ^ f.fracBits) * 2 ^ ef := Nat.mul_lt_mul_of_pos_right (Nat.add_lt_add_left h _) hpos
      _ = 2 ^ f.fracBits * 2 ^ ef * 2 := by ring

theorem Fmt.unitsOfBits_mul_add (f : Fmt) (ef : Nat) {fr : Nat} (h : fr < 2 ^ f.fracBits) :
    f.unitsOfBits (2 ^ f.fracBits * ef + fr) = f.unitsOf ef fr := by
  rw [Fmt.unitsOfBits, Nat.mul_add_div (by positivity), Nat.mul_add_mod, Nat.div_eq_of_lt h, Nat.mod_eq_of_lt h, Nat.add_zero]

/-- Magnitude bits are in the order of the magnitudes they stand for. -/
theorem Fmt.unitsOfBits_strictMono (f : Fmt) : StrictMono f.unitsOfBits := by
  refine strictMono_nat_of_lt_succ fun b => ?_
  have hpos : 0 < 2 ^ f.fracBits := by positivity
  obtain ⟨ef, fr, hfr, rfl⟩ : ∃ ef fr, fr < 2 ^ f.fracBits ∧ b = 2 ^ f.fracBits * ef + fr :=
    ⟨_, _, Nat.mod_lt b hpos, (Nat.div_add_mod b _).symm⟩
  rw [f.unitsOfBits_mul_add ef hfr, Nat.add_assoc]
  obtain hin | hout : fr + 1 < 2 ^ f.fracBits ∨ fr + 1 = 2 ^ f.fracBits := by omega
  · rw [f.unitsOfBits_mul_add ef hin]
    exact f.unitsOf_lt_of_frac_lt ef fr.lt_succ_self
  · rw [hout, ← Nat.mul_succ, ← Nat.add_zero (_ * _), f.unitsOfBits_mul_add _ hpos]
    exact f.unitsOf_lt_next ef hfr

/-- The magnitude of a pattern is that of its bits below the sign. -/
theorem Fmt.units_eq_unitsOfBits (f : Fmt) (v : Word) : f.units v = f.unitsOfBits (v.toNat % 2 ^ (f.width - 1)) := by
  have hwidth : 2 ^ (f.width - 1) = 2 ^ f.fracBits * 2 ^ f.expBits := by rw [f.width_eq, Nat.add_sub_cancel, pow_add]
  rw [Fmt.units, Fmt.unitsOfBits, Fmt.expField, Fmt.fracField, hwidth, Nat.mod_mul_right_div_self, Nat.mod_mul_right_mod]

theorem Fmt.value_of_sign_false {f : Fmt} {v : Word} (h : f.sign v = false) : f.value v = f.units v :=
  if_neg (h ▸ Bool.false_ne_true)

theorem Fmt.value_fabs (f : Fmt) (v : Word) : f.value (fabs f v) = f.unitsOfBits (v.toNat % 2 ^ (f.width - 1)) := by
  have hsign : f.sign (fabs f v) = false := by simp [Fmt.sign, fabs_getLsbD]
  rw [Fmt.value_of_sign_false hsign, Fmt.units, f.expField_fabs, f.fracField_fabs, ← Fmt.units, f.units_eq_unitsOfBits]

/-! Below the bits of infinity a pattern is a number that is not negative. -/

section Finite

variable {f : Fmt} {v w : Word}

theorem Fmt.value_of_lt_infBits (h : v.toNat < f.infBits) : f.value v = f.unitsOfBits v.toNat := by
  have hlt := f.lt_of_le_infBits h.le
  have hsign : f.sign v = false := Nat.testBit_lt_two_pow hlt
  rw [Fmt.value_of_sign_false hsign, f.units_eq_unitsOfBits, Nat.mod_eq_of_lt hlt]

theorem Fmt.isNaN_of_lt_infBits (h : v.toNat < f.infBits) : f.isNaN v = false := by
  have hexp : f.expField v < f.emax := by
    refine (Nat.mod_le _ _).trans_lt (Nat.div_lt_of_lt_mul ?_)
    rwa [Nat.mul_comm]
  rw [Fmt.isNaN, beq_false_of_ne hexp.ne, Bool.false_and]

theorem fle_of_lt_infBits (hv : v.toNat < f.infBits) (hw : w.toNat < f.infBits) : fle f v w = decide (v.toNat ≤ w.toNat) := by
  simp [fle, Fmt.isNaN_of_lt_infBits, Fmt.value_of_lt_infBits, hv, hw, f.unitsOfBits_strictMono.le_iff_le]

theorem flt_fabs_of_lt_infBits (hv : v.toNat < f.infBits) :
    flt f v (fabs f w) = (!f.isNaN w && decide (v.toNat < w.toNat % 2 ^ (f.width - 1))) := by
  simp [flt, Fmt.isNaN_of_lt_infBits hv, Fmt.value_of_lt_infBits hv, f.value_fabs, f.unitsOfBits_strictMono.lt_iff_lt]

end Finite

end Sys2Proof

namespace Sys2Proof.Machine

/-! ## The integer outputs (R123 to R128) -/

theorem zext64_lowBits (n : Nat) (u : Word) : zext64 (lowBits n u) = BitVec.ofNat 64 (u.toNat % 2 ^ n) :=
  BitVec.eq_of_toNat_eq (by simp [zext64, lowBits])

theorem finish_nextUBody (n : Nat) (i : Instr) (rd : SReg) (s : State) : finish i s (nextUBody n rd s) = .next ({ s with
    gen := s.gen.advance, x := s.x.set rd (BitVec.ofNat 64 (s.gen.words[s.gen.cur].toNat % 2 ^ n)) }.afterOk 0) := by
  rw [← zext64_lowBits]
  rfl

/-- Settles O32: the body of each has no check. -/
theorem integerOutputsComplete : Obligations.IntegerOutputsComplete := by
  intro s rd u after
  refine ⟨?_, finish_nextUBody 32 (.nextu32 rd) .., finish_nextUBody 16 (.nextu16 rd) .., finish_nextUBody 8 (.nextu8 rd) ..,
    finish_nextUBody 1 (.nextbool rd) ..⟩
  refine (finish_nextUBody 64 (.nextu64 rd) ..).trans ?_
  rw [Nat.mod_eq_of_lt (BitVec.isLt _), BitVec.ofNat_toNat, BitVec.setWidth_eq]

/-! ## Accepted samples (R153, R160) -/

section Epsilon

variable {f : Fmt} {e : Word}

theorem lt_infBits_of_epsilonInRange (h : epsilonInRange f e) : e.toNat < f.infBits := by
  obtain ⟨-, hhi⟩ := h
  have hfinite : f.epsHi.toNat < f.infBits := by cases f <;> decide
  exact hhi.trans_lt hfinite

theorem epsilonValid_of_inRange (h : epsilonInRange f e) : epsilonValid f e = true := by
  have he := lt_infBits_of_epsilonInRange h
  obtain ⟨hlo, hhi⟩ := h
  have hloFinite : f.epsLo.toNat < f.infBits := by cases f <;> decide
  have hhiFinite : f.epsHi.toNat < f.infBits := by cases f <;> decide
  rw [epsilonValid, fle_of_lt_infBits hloFinite he, fle_of_lt_infBits he hhiFinite, decide_eq_true hlo, decide_eq_true hhi]
  rfl

theorem epsilonOperand_of_inRange {s : State} {r : SReg} (h : epsilonInRange f (f.pattern s.x[r])) :
    s.epsilonOperand f r = .ok (f.pattern s.x[r]) :=
  epsilonOperand_eq_ok.2 ⟨rfl, epsilonValid_of_inRange h⟩

/-- The loop accepts a sample by comparing values, the claims by comparing patterns. -/
theorem isSome_accepted_loopSample (h : epsilonInRange f e) (p : Primitives) (g : Gen) (k : Nat) :
    (accepted f e (loopSample p f g k)).isSome = sampleAccepted p f e g k := by
  have he := lt_infBits_of_epsilonInRange h
  rw [accepted, Option.isSome_filter, sampleAccepted]
  cases loopSample p f g k with
  | none => rfl
  | some r => exact flt_fabs_of_lt_infBits he

end Epsilon

theorem sizeOperand_of_inRange {s : State} {r : SReg} (hpos : 1 ≤ s.x[r].toInt) (hmax : s.x[r].toInt ≤ s.params.vlmax) :
    ∃ n, s.sizeOperand r = .ok (n + 1) := by
  obtain ⟨n, hn⟩ : ∃ n : Nat, s.x[r].toInt = (n + 1 : Nat) := ⟨s.x[r].toInt.toNat - 1, by omega⟩
  exact ⟨n, sizeOperand_eq_ok.2 ⟨hn, by omega, by omega⟩⟩

/-! ## The first sample on the all-zero array (R129) -/

/-- The two ways to write the sum of `NEXTUNIT` agree on the word 0. -/
theorem nextUnitOf_zero (p : Primitives) (f : Fmt) : nextUnitOf p f 0 = unitValue p f 0 := by
  cases f <;> rfl

/-- In the default primitives it is 0 (R129). -/
theorem unitValue_ieee_zero (f : Fmt) : unitValue .ieee f 0 = some 0 := by
  cases f <;> decide +kernel

theorem loopSample_of_allZero {g : Gen} (hzero : g.AllZero) (p : Primitives) (f : Fmt) : loopSample p f g 0 = nextUnitOf p f 0 := by
  have hword : g.words[g.cur] = 0 := hzero g.cur
  exact (congrArg (unitValue p f) hword).trans (nextUnitOf_zero p f).symm

theorem sampleAccepted_ieee_of_allZero {g : Gen} (hzero : g.AllZero) (f : Fmt) (e : Word) : sampleAccepted .ieee f e g 0 = false := by
  rw [sampleAccepted, loopSample_of_allZero hzero, nextUnitOf_zero, unitValue_ieee_zero]
  simp

/-! ## Commands that hang (R160, R278) -/

section Hangs

variable {f : Fmt} {i : Instr} {s : State} {rd rs1 rs2 : SReg} {vd : VReg}

/-- A response tells a command that ends from one that hangs. -/
theorem finish_eq_hangUp_iff {b : Body} (hb : ReadsOk i s b) : finish i s b = .next s.hangUp ↔ b = .error .hang := by
  constructor
  · intro h
    obtain ⟨t, w, hok, hfin⟩ | ⟨c, -, hfin⟩ | ⟨hhang, -⟩ := finish_cases i s b
    · obtain ⟨hrsp, -⟩ := hb t w hok
      have heq := congrArg State.rspOut (Host.Outcome.next.inj (hfin.symm.trans h))
      simp [hrsp] at heq
    · have heq := congrArg State.rspOut (Host.Outcome.next.inj (hfin.symm.trans h))
      simp [State.takeFault_rspOut] at heq
    · exact hhang
  · rintro rfl
    rfl

theorem exec_nextvec (f : Fmt) (rd rs1 : SReg) (s : State) :
    exec (f.nextvec rd rs1) s = finish (f.nextvec rd rs1) s (nextvecBody f rd rs1 s) := by
  cases f <;> rfl

theorem exec_vgen (f : Fmt) (vd : VReg) (rs1 rs2 : SReg) (s : State) :
    exec (f.vgen vd rs1 rs2) s = finish (f.vgen vd rs1 rs2) s (vgenBody f vd rs1 rs2 s) := by
  cases f <;> rfl

theorem exec_nextvec_hangs_iff {e : Word} (he : s.epsilonOperand f rs1 = .ok e) :
    exec (f.nextvec rd rs1) s = .next s.hangUp ↔ nextVec s.params.primitives f e s.gen = none := by
  have hread : 0 = readData (f.nextvec rd rs1) s := by cases f <;> rfl
  rw [exec_nextvec, finish_eq_hangUp_iff (nextvecBody_reads hread f), nextvecBody, he, bind_ok_eq]
  cases nextVec s.params.primitives f e s.gen <;> simp [done]

theorem exec_vgen_hangs_iff {e : Word} {n : Nat} (hn : s.sizeOperand rs1 = .ok n) (he : s.epsilonOperand f rs2 = .ok e) :
    exec (f.vgen vd rs1 rs2) s = .next s.hangUp ↔ genElements s.params.primitives f e n s.gen = none := by
  have hread : 0 = readData (f.vgen vd rs1 rs2) s := by cases f <;> rfl
  rw [exec_vgen, finish_eq_hangUp_iff (vgenBody_reads hread f), vgenBody, hn, bind_ok_eq, he, bind_ok_eq]
  cases genElements s.params.primitives f e n s.gen <;> simp [done]

/-- On the all-zero array the first sample of the loop decides, for one element and for all of `VGEN`. -/
theorem exec_nextvec_hangs_of_allZero (hzero : s.gen.AllZero) (he : epsilonInRange f (f.pattern s.x[rs1])) :
    exec (f.nextvec rd rs1) s = .next s.hangUp ↔
      sampleAccepted s.params.primitives f (f.pattern s.x[rs1]) s.gen 0 = false := by
  rw [exec_nextvec_hangs_iff (epsilonOperand_of_inRange he), nextVec_of_allZero hzero, ← isSome_accepted_loopSample he,
    loopSample_of_allZero hzero, Option.map_eq_none_iff, Option.isSome_eq_false_iff, Option.isNone_iff_eq_none]

theorem exec_vgen_hangs_of_allZero (hzero : s.gen.AllZero) (he : epsilonInRange f (f.pattern s.x[rs2]))
    (hpos : 1 ≤ s.x[rs1].toInt) (hmax : s.x[rs1].toInt ≤ s.params.vlmax) :
    exec (f.vgen vd rs1 rs2) s = .next s.hangUp ↔
      sampleAccepted s.params.primitives f (f.pattern s.x[rs2]) s.gen 0 = false := by
  obtain ⟨n, hn⟩ := sizeOperand_of_inRange hpos hmax
  rw [exec_vgen_hangs_iff hn (epsilonOperand_of_inRange he), ← isSome_accepted_loopSample he, loopSample_of_allZero hzero,
    ← genElements_of_allZero hzero n, Option.isSome_eq_false_iff, Option.isNone_iff_eq_none]

end Hangs

/-- Settles O36: in the default primitives that first sample is 0, which no epsilon accepts. -/
theorem zeroGeneratorHangs : Obligations.ZeroGeneratorHangs := by
  intro f s rd rs1 rs2 vd hzero he
  have hvec := exec_nextvec_hangs_of_allZero (rd := rd) hzero he
  have hgen := exec_vgen_hangs_of_allZero (vd := vd) (rs1 := rs1) hzero he
  refine ⟨fun hieee => ?_, hvec.symm, fun hpos hmax => (hgen hpos hmax).symm⟩
  have hreject : sampleAccepted s.params.primitives f (f.pattern s.x[rs2]) s.gen 0 = false :=
    hieee ▸ sampleAccepted_ieee_of_allZero hzero f _
  exact ⟨hvec.2 hreject, fun hpos hmax => (hgen hpos hmax).2 hreject⟩

end Sys2Proof.Machine

/-! # The bit-pattern assembler, and the statements of family 43_fpgen

The patterns that the masks of R141 assemble are packed ones, and the sums that take 1.0 off them are exact: rounding leaves a
magnitude of the format as it is. The rejection loop obeys an equation per sample, because its bound is a whole round of the
generator; both loops are then followed one sample at a time. -/

namespace Sys2Proof

/-! ## Field sizes and packed patterns (R140, R171) -/

theorem Fmt.bias_ne_zero (f : Fmt) : f.bias ≠ 0 := by cases f <;> decide

theorem Fmt.bias_lt_emax (f : Fmt) : f.bias < f.emax := by cases f <;> decide

theorem Fmt.fracBits_lt_bias (f : Fmt) : f.fracBits < f.bias := by cases f <;> decide

theorem Fmt.lt_infBits (f : Fmt) {ef fr : Nat} (hef : ef < f.emax) (hfr : fr < 2 ^ f.fracBits) :
    2 ^ f.fracBits * ef + fr < f.infBits := by
  calc 2 ^ f.fracBits * ef + fr < 2 ^ f.fracBits * ef + 2 ^ f.fracBits := Nat.add_lt_add_left hfr _
    _ = 2 ^ f.fracBits * (ef + 1) := (Nat.mul_succ ..).symm
    _ ≤ 2 ^ f.fracBits * f.emax := Nat.mul_le_mul_left _ hef
    _ = f.infBits := Nat.mul_comm ..

theorem Fmt.unitsOfBits_zero (f : Fmt) : f.unitsOfBits 0 = 0 := by simp [Fmt.unitsOfBits, Fmt.unitsOf]

theorem Fmt.pack_false_eq (f : Fmt) (mag : Nat) : f.pack false mag = BitVec.ofNat 64 mag := by
  rw [Fmt.pack, if_neg Bool.false_ne_true, Nat.zero_add]

theorem Fmt.zero_false (f : Fmt) : f.zero false = 0 := f.pack_false_eq 0

theorem Fmt.one_eq_pack (f : Fmt) : f.one = f.pack false (2 ^ f.fracBits * f.bias) := by
  rw [f.pack_false_eq, Nat.mul_comm]
  rfl

section Packed

variable {f : Fmt} {neg : Bool} {mag : Nat}

/-- Setting the sign bit of a positive pattern makes it negative. -/
theorem Fmt.pack_false_or_signMask (h : mag < 2 ^ (f.width - 1)) : f.pack false mag ||| f.signMask = f.pack true mag := by
  have hor := Nat.two_pow_add_eq_or_of_lt h 1
  rw [Nat.mul_one] at hor
  rw [f.pack_false_eq, Fmt.signMask, ← BitVec.ofNat_or, Nat.or_comm, ← hor]
  rfl

theorem Fmt.negOne_eq_pack (f : Fmt) : f.negOne = f.pack true (2 ^ f.fracBits * f.bias) := by
  have hlt : 2 ^ f.fracBits * f.bias < 2 ^ (f.width - 1) :=
    f.lt_of_le_infBits (f.lt_infBits f.bias_lt_emax (Nat.two_pow_pos _)).le
  rw [← Fmt.pack_false_or_signMask hlt, ← f.one_eq_pack]
  rfl

theorem Fmt.value_pack (h : mag < f.infBits) :
    f.value (f.pack neg mag) = if neg then -(f.unitsOfBits mag : Int) else (f.unitsOfBits mag : Int) := by
  have hlt := f.lt_of_le_infBits h.le
  rw [Fmt.value, f.sign_pack neg hlt, Fmt.units, f.expField_pack neg hlt, f.fracField_pack neg hlt]
  rfl

theorem Fmt.expField_pack_lt (h : mag < f.infBits) : f.expField (f.pack neg mag) < f.emax := by
  rw [f.expField_pack neg (f.lt_of_le_infBits h.le)]
  exact Nat.div_lt_of_lt_mul (Nat.mul_comm .. ▸ h)

theorem Fmt.value_of_isZero {v : Word} (h : f.isZero v = true) : f.value v = 0 := by
  obtain ⟨hexp, hfrac⟩ : f.expField v = 0 ∧ f.fracField v = 0 := by simpa [Fmt.isZero] using h
  simp [Fmt.value, Fmt.units, Fmt.unitsOf, hexp, hfrac]

end Packed

/-! ## Rounding and sums that are exact (R172, R173) -/

theorem nearestEven_mul (q : Nat) {d : Nat} (hd : 0 < d) : nearestEven (q * d) d = q := by
  simp [nearestEven, Nat.mul_div_cancel q hd, hd.ne]

/-- `p + 1` significant bits are in the binade of their exponent. -/
theorem Fmt.binade_mul_two_pow {f : Fmt} {q : Nat} (hlow : 2 ^ f.fracBits ≤ q) (hhigh : q < 2 ^ (f.fracBits + 1)) (e : Nat) :
    f.binade (q * 2 ^ e) = e := by
  have hpos : 0 < 2 ^ e := Nat.two_pow_pos e
  have hne : q * 2 ^ e ≠ 0 := Nat.mul_ne_zero (Nat.ne_of_gt ((Nat.two_pow_pos _).trans_le hlow)) hpos.ne'
  have hlog : Nat.log2 (q * 2 ^ e) = f.fracBits + e := by
    rw [Nat.log2_eq_iff hne, Nat.add_right_comm, pow_add, pow_add]
    exact ⟨Nat.mul_le_mul_right _ hlow, Nat.mul_lt_mul_of_pos_right hhigh hpos⟩
  rw [Fmt.binade, hlog, Nat.add_sub_cancel_left]

theorem Fmt.binade_of_lt {f : Fmt} {n : Nat} (h : n < 2 ^ f.fracBits) : f.binade n = 0 := by
  rcases Nat.eq_zero_or_pos n with rfl | hpos
  · simp [Fmt.binade]
  · exact Nat.sub_eq_zero_of_le ((Nat.log2_lt hpos.ne').2 h).le

/-- Rounding gives back the magnitude bits of a number of the format. -/
theorem Fmt.roundRatio_unitsOfBits {f : Fmt} {mag : Nat} (h : mag ≤ f.infBits) : f.roundRatio (f.unitsOfBits mag) 1 = mag := by
  have hfr : mag % 2 ^ f.fracBits < 2 ^ f.fracBits := Nat.mod_lt _ (Nat.two_pow_pos _)
  have hsplit := Nat.div_add_mod mag (2 ^ f.fracBits)
  rw [Fmt.roundRatio, Nat.div_one, Nat.one_mul, Fmt.unitsOfBits]
  generalize mag % 2 ^ f.fracBits = fr at hfr hsplit ⊢
  cases hef : mag / 2 ^ f.fracBits with
  | zero =>
    rw [hef, Nat.mul_zero, Nat.zero_add] at hsplit
    have hone := nearestEven_mul fr Nat.one_pos
    rw [Nat.mul_one] at hone
    rw [Fmt.unitsOf, if_pos rfl, Fmt.binade_of_lt hfr, pow_zero, hone, Fmt.binadeBits, Nat.zero_mul, Nat.zero_add, hsplit,
      Nat.min_eq_left h]
  | succ e =>
    have hbits : e * 2 ^ f.fracBits + (2 ^ f.fracBits + fr) = mag := by
      rw [← hsplit, hef]
      ring
    have hhigh : 2 ^ f.fracBits + fr < 2 ^ (f.fracBits + 1) := by
      rw [pow_succ]
      omega
    rw [Fmt.unitsOf, if_neg e.succ_ne_zero, Nat.add_sub_cancel, Fmt.binade_mul_two_pow (Nat.le_add_right ..) hhigh,
      nearestEven_mul _ (Nat.two_pow_pos e), Fmt.binadeBits, hbits, Nat.min_eq_left h]

section Sums

variable {f : Fmt} {a b : Word}

theorem faddVal_of_finite (ha : f.expField a < f.emax) (hb : f.expField b < f.emax) (hzero : f.isZero a = false) :
    faddVal f a b = if f.value a + f.value b = 0 then some 0 else
      some (f.pack (decide (f.value a + f.value b < 0)) (f.roundRatio (f.value a + f.value b).natAbs 1)) := by
  simp [faddVal, Fmt.isNaN, Fmt.isInf, ha.ne, hb.ne, hzero, f.zero_false]

/-- A sum that is a number of the format is not rounded. -/
theorem faddVal_of_exact (ha : f.expField a < f.emax) (hb : f.expField b < f.emax) (hzero : f.isZero a = false) {neg : Bool}
    {mag : Nat} (hmag : mag < f.infBits) (hpos : 0 < mag) (hsum : f.value a + f.value b = f.value (f.pack neg mag)) :
    faddVal f a b = some (f.pack neg mag) := by
  have hunits : 0 < f.unitsOfBits mag := f.unitsOfBits_zero ▸ f.unitsOfBits_strictMono hpos
  have hnonneg : ¬ (f.unitsOfBits mag : Int) < 0 := by omega
  rw [faddVal_of_finite ha hb hzero, hsum, Fmt.value_pack hmag]
  cases neg <;> simp [hunits, hunits.ne', hnonneg, Fmt.roundRatio_unitsOfBits hmag.le]

/-- A sum that cancels is +0. -/
theorem faddVal_of_cancel (ha : f.expField a < f.emax) (hb : f.expField b < f.emax) (hzero : f.isZero a = false)
    (hsum : f.value a + f.value b = 0) : faddVal f a b = some 0 := by
  rw [faddVal_of_finite ha hb hzero, if_pos hsum]

end Sums

/-! ## The assembled patterns (R142, R144 to R152) -/

/-- Under the masks of R141 a bit is the mask's 1, or the operand's. -/
theorem or_and_masks (a o m s : Word) : (a ||| o) &&& (o ||| m ||| s) = o ||| (a &&& m) ||| (a &&& s) := by
  refine BitVec.eq_of_getLsbD_eq fun i _ => ?_
  simp only [BitVec.getLsbD_and, BitVec.getLsbD_or]
  cases o.getLsbD i <;> simp [Bool.and_or_distrib_left]

theorem pattern_and_mantMask (f : Fmt) (u : Word) : f.pattern u &&& f.mantMask = BitVec.ofNat 64 (u.toNat % 2 ^ f.fracBits) := by
  have hdvd : 2 ^ f.fracBits ∣ 2 ^ f.width := Nat.pow_dvd_pow 2 (by rw [f.width_eq]; omega)
  rw [Fmt.pattern, Fmt.mantMask, ← BitVec.ofNat_and, Nat.and_two_pow_sub_one_eq_mod, Nat.mod_mod_of_dvd _ hdvd]

theorem pattern_and_signMask (f : Fmt) (u : Word) :
    f.pattern u &&& f.signMask = if u.getLsbD (f.width - 1) then f.signMask else 0 := by
  have hlt : f.width - 1 < f.width := by rw [f.width_eq]; omega
  have hbit : (u.toNat % 2 ^ f.width).testBit (f.width - 1) = u.getLsbD (f.width - 1) := by
    rw [Nat.testBit_mod_two_pow, decide_eq_true hlt, Bool.true_and, BitVec.testBit_toNat]
  rw [Fmt.pattern, Fmt.signMask, ← BitVec.ofNat_and, Nat.and_two_pow, hbit]
  cases u.getLsbD (f.width - 1) <;> simp

/-- A number of the binade of 1.0: the exponent field is the bias, the fraction `m` (R143). -/
def Fmt.unitBinade (f : Fmt) (neg : Bool) (m : Nat) : Word := f.pack neg (2 ^ f.fracBits * f.bias + m)

section UnitBinade

variable {f : Fmt} {neg : Bool} {m : Nat}

theorem Fmt.one_eq_unitBinade (f : Fmt) : f.one = f.unitBinade false 0 := f.one_eq_pack

theorem Fmt.negOne_eq_unitBinade (f : Fmt) : f.negOne = f.unitBinade true 0 := f.negOne_eq_pack

theorem unitBinade_lt_infBits (hm : m < 2 ^ f.fracBits) : 2 ^ f.fracBits * f.bias + m < f.infBits :=
  f.lt_infBits f.bias_lt_emax hm

theorem orMask_or_ofNat (hm : m < 2 ^ f.fracBits) : f.orMask ||| BitVec.ofNat 64 m = f.unitBinade false m := by
  rw [Fmt.orMask, Nat.mul_comm, ← BitVec.ofNat_or, ← Nat.two_pow_add_eq_or_of_lt hm, Fmt.unitBinade, f.pack_false_eq]

theorem unitBinade_or_signMask (hm : m < 2 ^ f.fracBits) : f.unitBinade false m ||| f.signMask = f.unitBinade true m :=
  Fmt.pack_false_or_signMask (f.lt_of_le_infBits (unitBinade_lt_infBits hm).le)

theorem expField_unitBinade (hm : m < 2 ^ f.fracBits) : f.expField (f.unitBinade neg m) = f.bias := by
  rw [Fmt.unitBinade, f.expField_pack neg (f.lt_of_le_infBits (unitBinade_lt_infBits hm).le), Nat.mul_add_div (Nat.two_pow_pos _),
    Nat.div_eq_of_lt hm, Nat.add_zero]

theorem sign_unitBinade (hm : m < 2 ^ f.fracBits) : f.sign (f.unitBinade neg m) = neg :=
  f.sign_pack neg (f.lt_of_le_infBits (unitBinade_lt_infBits hm).le)

theorem isZero_unitBinade (hm : m < 2 ^ f.fracBits) : f.isZero (f.unitBinade neg m) = false := by
  rw [Fmt.isZero, expField_unitBinade hm, beq_false_of_ne f.bias_ne_zero, Bool.false_and]

/-- Its value is `1 + m * 2^-p`, or the negative of it (R143, R171). -/
theorem value_unitBinade (hm : m < 2 ^ f.fracBits) : f.value (f.unitBinade neg m) =
    (if neg then -1 else 1) * ((2 ^ f.fracBits + m : Nat) * 2 ^ (f.bias - 1)) := by
  rw [Fmt.unitBinade, Fmt.value_pack (unitBinade_lt_infBits hm), f.unitsOfBits_mul_add _ hm, Fmt.unitsOf, if_neg f.bias_ne_zero]
  cases neg <;> simp

end UnitBinade

section Assembled

variable (f : Fmt) (u : Word)

theorem mod_fracBits_lt : u.toNat % 2 ^ f.fracBits < 2 ^ f.fracBits := Nat.mod_lt _ (Nat.two_pow_pos _)

theorem next12Of_eq : next12Of f u = f.unitBinade false (u.toNat % 2 ^ f.fracBits) := by
  rw [← orMask_or_ofNat (mod_fracBits_lt f u), ← pattern_and_mantMask]
  have hmasks := or_and_masks (f.pattern u) f.orMask f.mantMask 0#64
  rwa [BitVec.or_zero, BitVec.and_zero, BitVec.or_zero] at hmasks

/-- The operand of the sum of `NEXTUNIT`. -/
theorem signed_pattern_eq : (randPattern f u ||| f.orMask) &&& (f.andMask ||| f.signMask) =
    f.unitBinade (u.getLsbD (f.width - 1)) (u.toNat % 2 ^ f.fracBits) := by
  have hm := mod_fracBits_lt f u
  rw [randPattern, Fmt.andMask, or_and_masks, pattern_and_mantMask, orMask_or_ofNat hm, pattern_and_signMask]
  cases u.getLsbD (f.width - 1) with
  | false => exact BitVec.or_zero
  | true => exact unitBinade_or_signMask hm

/-- The sum of `NEXTUNIT` has 1.0 of the other sign for its second operand. -/
theorem nextUnitOf_eq (p : Primitives) : nextUnitOf p f u =
    p.fadd f (f.unitBinade (u.getLsbD (f.width - 1)) (u.toNat % 2 ^ f.fracBits))
      (f.unitBinade (!u.getLsbD (f.width - 1)) 0) := by
  rw [nextUnitOf, signed_pattern_eq, sign_unitBinade (mod_fracBits_lt f u), f.one_eq_unitBinade, f.negOne_eq_unitBinade]
  cases u.getLsbD (f.width - 1) <;> rfl

end Assembled

theorem ofNat_eq_unitBinade (f : Fmt) (m : Nat) : BitVec.ofNat 64 (f.bias * 2 ^ f.fracBits + m) = f.unitBinade false m := by
  rw [Fmt.unitBinade, f.pack_false_eq, Nat.mul_comm]

end Sys2Proof

namespace Sys2Proof.Machine

/-- The two ways to write the sum of `NEXTUNIT` agree. -/
theorem nextUnitOf_eq_unitValue (p : Primitives) (f : Fmt) (u : Word) : nextUnitOf p f u = unitValue p f u := by
  rw [nextUnitOf_eq, unitValue, ofNat_eq_unitBinade, f.one_eq_unitBinade, f.negOne_eq_unitBinade]
  cases u.getLsbD (f.width - 1) with
  | false => rfl
  | true => rw [if_pos rfl, Nat.add_assoc, Nat.mul_comm f.bias]; rfl

/-! ## The closed forms (R143) -/

/-- The magnitude bits of `m * 2^-p` (R143). -/
def fracMagnitude (f : Fmt) (m : Nat) : Nat :=
  if m = 0 then 0
  else 2 ^ f.fracBits * (f.bias - f.fracBits + Nat.log2 m) + (m - 2 ^ Nat.log2 m) * 2 ^ (f.fracBits - Nat.log2 m)

theorem fracMagnitude_zero (f : Fmt) : fracMagnitude f 0 = 0 := if_pos rfl

theorem fracPattern_eq_pack (f : Fmt) (m : Nat) : fracPattern f m = f.pack false (fracMagnitude f m) := by
  rw [fracPattern, fracMagnitude, f.pack_false_eq]
  split
  · rfl
  · rw [Nat.mul_comm (2 ^ f.fracBits)]

section Magnitude

variable {f : Fmt} {m : Nat}

/-- Of a fraction that is not 0: the exponent field, and what is below it. -/
theorem fracMagnitude_fields (hm : m < 2 ^ f.fracBits) (hpos : m ≠ 0) : ∃ ef fr,
    fracMagnitude f m = 2 ^ f.fracBits * ef + fr ∧ fr < 2 ^ f.fracBits ∧
    0 < ef ∧ ef < f.emax ∧ (2 ^ f.fracBits + fr) * 2 ^ (ef - 1) = m * 2 ^ (f.bias - 1) := by
  have hlog : Nat.log2 m < f.fracBits := (Nat.log2_lt hpos).2 hm
  have hle : 2 ^ Nat.log2 m ≤ m := Nat.log2_self_le hpos
  have hlt : m < 2 ^ (Nat.log2 m + 1) := Nat.lt_log2_self
  have hbias := f.fracBits_lt_bias
  have hemax := f.bias_lt_emax
  have hpow : 2 ^ Nat.log2 m * 2 ^ (f.fracBits - Nat.log2 m) = 2 ^ f.fracBits := by
    rw [← pow_add, Nat.add_sub_cancel' hlog.le]
  refine ⟨_, _, if_neg hpos, ?_, by omega, by omega, ?_⟩
  · refine (Nat.mul_lt_mul_of_pos_right ?_ (Nat.two_pow_pos _)).trans_eq hpow
    rw [pow_succ] at hlt
    omega
  · have hexp : f.fracBits - Nat.log2 m + (f.bias - f.fracBits + Nat.log2 m - 1) = f.bias - 1 := by omega
    calc (2 ^ f.fracBits + (m - 2 ^ Nat.log2 m) * 2 ^ (f.fracBits - Nat.log2 m)) * 2 ^ (f.bias - f.fracBits + Nat.log2 m - 1)
        = (2 ^ Nat.log2 m + (m - 2 ^ Nat.log2 m)) * 2 ^ (f.fracBits - Nat.log2 m + (f.bias - f.fracBits + Nat.log2 m - 1)) := by
          rw [← hpow, ← Nat.add_mul, Nat.mul_assoc, ← pow_add]
      _ = m * 2 ^ (f.bias - 1) := by rw [Nat.add_sub_cancel' hle, hexp]

theorem fracMagnitude_lt (hm : m < 2 ^ f.fracBits) : fracMagnitude f m < f.infBits := by
  by_cases hpos : m = 0
  · subst hpos
    exact fracMagnitude_zero f ▸ (Nat.zero_le _).trans_lt (unitBinade_lt_infBits hm)
  · obtain ⟨ef, fr, heq, hfr, -, hef, -⟩ := fracMagnitude_fields hm hpos
    exact heq ▸ f.lt_infBits hef hfr

theorem fracMagnitude_pos (hm : m < 2 ^ f.fracBits) (hpos : m ≠ 0) : 0 < fracMagnitude f m := by
  obtain ⟨ef, fr, heq, -, hef, -⟩ := fracMagnitude_fields hm hpos
  exact heq ▸ Nat.add_pos_left (Nat.mul_pos (Nat.two_pow_pos _) hef) fr

theorem unitsOfBits_fracMagnitude (hm : m < 2 ^ f.fracBits) : f.unitsOfBits (fracMagnitude f m) = m * 2 ^ (f.bias - 1) := by
  by_cases hpos : m = 0
  · subst hpos
    rw [fracMagnitude_zero, f.unitsOfBits_zero, Nat.zero_mul]
  · obtain ⟨ef, fr, heq, hfr, hef, -, hunits⟩ := fracMagnitude_fields hm hpos
    rw [heq, f.unitsOfBits_mul_add ef hfr, Fmt.unitsOf, if_neg hef.ne', hunits]

theorem expField_pack_fracMagnitude_pos (hm : m < 2 ^ f.fracBits) (hpos : m ≠ 0) (neg : Bool) :
    0 < f.expField (f.pack neg (fracMagnitude f m)) := by
  obtain ⟨ef, fr, heq, hfr, hef, -⟩ := fracMagnitude_fields hm hpos
  rw [f.expField_pack neg (f.lt_of_le_infBits (fracMagnitude_lt hm).le), heq, Nat.mul_add_div (Nat.two_pow_pos _),
    Nat.div_eq_of_lt hfr]
  exact hef

theorem value_pack_fracMagnitude (hm : m < 2 ^ f.fracBits) (neg : Bool) :
    f.value (f.pack neg (fracMagnitude f m)) = (if neg then -1 else 1) * ((m : Int) * 2 ^ (f.bias - 1)) := by
  rw [Fmt.value_pack (fracMagnitude_lt hm), unitsOfBits_fracMagnitude hm]
  cases neg <;> simp

/-- The closed form with a sign is a normal number (R143). -/
theorem pack_fracMagnitude_normal (hm : m < 2 ^ f.fracBits) (hpos : m ≠ 0) (neg : Bool) :
    let w := f.pack neg (fracMagnitude f m)
    0 < f.expField w ∧ f.expField w < f.emax ∧ w.toNat < 2 ^ f.width :=
  ⟨expField_pack_fracMagnitude_pos hm hpos neg, Fmt.expField_pack_lt (fracMagnitude_lt hm),
    f.pack_lt neg (f.lt_of_le_infBits (fracMagnitude_lt hm).le)⟩

/-- 1.0 taken off a number of its binade, of either sign: exact, and +0 when nothing is left (R143, R173). -/
theorem faddVal_unitBinade (hm : m < 2 ^ f.fracBits) (neg : Bool) : faddVal f (f.unitBinade neg m) (f.unitBinade (!neg) 0) =
    some (if m = 0 then 0 else f.pack neg (fracMagnitude f m)) := by
  have hone : 0 < 2 ^ f.fracBits := Nat.two_pow_pos _
  have ha : f.expField (f.unitBinade neg m) < f.emax := expField_unitBinade hm ▸ f.bias_lt_emax
  have hb : f.expField (f.unitBinade (!neg) 0) < f.emax := expField_unitBinade hone ▸ f.bias_lt_emax
  have hsum : f.value (f.unitBinade neg m) + f.value (f.unitBinade (!neg) 0) = f.value (f.pack neg (fracMagnitude f m)) := by
    rw [value_unitBinade hm, value_unitBinade hone, value_pack_fracMagnitude hm]
    cases neg <;> push_cast <;> simp <;> ring
  by_cases hpos : m = 0
  · rw [if_pos hpos]
    refine faddVal_of_cancel ha hb (isZero_unitBinade hm) (hsum.trans ?_)
    rw [value_pack_fracMagnitude hm, hpos]
    simp
  · rw [if_neg hpos]
    exact faddVal_of_exact ha hb (isZero_unitBinade hm) (fracMagnitude_lt hm) (fracMagnitude_pos hm hpos) hsum

theorem fracPattern_eq_ite (f : Fmt) (m : Nat) : fracPattern f m = if m = 0 then 0 else f.pack false (fracMagnitude f m) := by
  split
  · subst m
    rfl
  · exact fracPattern_eq_pack f m

end Magnitude

section ClosedForms

variable (f : Fmt) (u : Word)

theorem unitPattern_eq_ite : unitPattern f u = if u.toNat % 2 ^ f.fracBits = 0 then 0 else
    f.pack (u.getLsbD (f.width - 1)) (fracMagnitude f (u.toNat % 2 ^ f.fracBits)) := by
  have hlt := f.lt_of_le_infBits (fracMagnitude_lt (mod_fracBits_lt f u)).le
  rw [unitPattern, fracPattern_eq_pack]
  cases u.getLsbD (f.width - 1) with
  | false => rfl
  | true => rw [if_pos rfl, ← Fmt.pack_false_or_signMask hlt]; rfl

theorem fadd_ieee_next01 {m : Nat} (hm : m < 2 ^ f.fracBits) :
    Primitives.ieee.fadd f (f.unitBinade false m) f.negOne = some (fracPattern f m) := by
  rw [f.negOne_eq_unitBinade, fracPattern_eq_ite]
  exact faddVal_unitBinade hm false

theorem unitValue_ieee : unitValue .ieee f u = some (unitPattern f u) := by
  rw [← nextUnitOf_eq_unitValue, nextUnitOf_eq, unitPattern_eq_ite]
  exact faddVal_unitBinade (mod_fracBits_lt f u) _

theorem value_unitPattern : f.value (unitPattern f u) =
    (if u.getLsbD (f.width - 1) then -1 else 1) * (((u.toNat % 2 ^ f.fracBits : Nat) : Int) * 2 ^ (f.bias - 1)) := by
  have hm := mod_fracBits_lt f u
  rw [unitPattern_eq_ite]
  split
  · next h =>
    rw [h, Int.natCast_zero, Int.zero_mul, Int.mul_zero]
    exact Fmt.value_of_isZero (by cases f <;> rfl)
  · exact value_pack_fracMagnitude hm _

end ClosedForms

/-- Settles O38: a binade's distance from 1.0 is a number of the format, so the sums are exact. -/
theorem assembledValuesExact : Obligations.AssembledValuesExact := by
  intro f u m b
  have hm : m < 2 ^ f.fracBits := mod_fracBits_lt f u
  have hb : b = f.unitBinade false m := ofNat_eq_unitBinade f m
  rw [hb]
  refine ⟨fadd_ieee_next01 f hm, unitValue_ieee f u, expField_unitBinade hm, ?_, ?_, value_unitPattern f u, ?_, ?_⟩
  · exact (value_unitBinade hm).trans (Int.one_mul _)
  · exact fracPattern_eq_pack f m ▸ (value_pack_fracMagnitude hm false).trans (Int.one_mul _)
  · intro h0
    exact ⟨fracPattern_eq_ite f m ▸ if_pos h0, unitPattern_eq_ite f u ▸ if_pos h0⟩
  · intro hpos
    rw [fracPattern_eq_ite, if_neg hpos, unitPattern_eq_ite, if_neg hpos]
    simp only [List.forall_mem_cons, List.not_mem_nil, false_implies, implies_true, and_true]
    exact ⟨pack_fracMagnitude_normal hm hpos _, pack_fracMagnitude_normal hm hpos _⟩

/-! ## `NEXT12`, `NEXT01`, `NEXTUNIT` (R142 to R152) -/

/-- One generator step, and a settled result in `rd`. -/
theorem finish_assembleBody (i : Instr) (f : Fmt) (value : Word → Option Word) (rd : SReg) (s : State) :
    finish i s (assembleBody f value rd s) = .next ({ s with
      gen := s.gen.advance, x := s.x.set rd (settle f (value s.gen.words[s.gen.cur]) s.nanDraws).1,
      nanDraws := (settle f (value s.gen.words[s.gen.cur]) s.nanDraws).2 }.afterOk 0) := rfl

/-- A command that is `finish` of the assembler's body completes with some result of its sum (R176). -/
theorem exists_assembled {i : Instr} {f : Fmt} {value : Word → Option Word} {rd : SReg} {s : State}
    (h : exec i s = finish i s (assembleBody f value rd s)) :
    ∃ (w : Word) (d : Nat), exec i s = .next ({ s with gen := s.gen.advance, x := s.x.set rd w, nanDraws := d }.afterOk 0) ∧
      holdsResult f (value s.gen.words[s.gen.cur]) w :=
  ⟨_, _, h.trans (finish_assembleBody ..), holdsResult_settle ..⟩

/-- When the sum is no NaN, that result is the sum, and nothing is drawn. -/
theorem exec_assembled {i : Instr} {f : Fmt} {value : Word → Option Word} {rd : SReg} {s : State}
    (h : exec i s = finish i s (assembleBody f value rd s)) {w : Word} (hw : value s.gen.words[s.gen.cur] = some w) :
    exec i s = .next ({ s with gen := s.gen.advance, x := s.x.set rd w, nanDraws := s.nanDraws }.afterOk 0) := by
  rw [h, finish_assembleBody, hw, settle_some]

section Assembler

variable (f : Fmt) (rd : SReg) (s : State)

theorem exec_next12 : exec (f.next12 rd) s = finish (f.next12 rd) s (assembleBody f (fun u => some (next12Of f u)) rd s) := by
  cases f <;> rfl

theorem exec_next01 : exec (f.next01 rd) s = finish (f.next01 rd) s (assembleBody f (next01Of s.params.primitives f) rd s) := by
  cases f <;> rfl

theorem exec_nextunit :
    exec (f.nextunit rd) s = finish (f.nextunit rd) s (assembleBody f (nextUnitOf s.params.primitives f) rd s) := by
  cases f <;> rfl

end Assembler

/-- Settles O37: the assembled operands are the packed ones, and the sums of the default primitives are those of O38. -/
theorem assembledValuesComplete : Obligations.AssembledValuesComplete := by
  intro f s rd u m b after
  have hm : m < 2 ^ f.fracBits := mod_fracBits_lt f u
  have hb : next12Of f u = b := (next12Of_eq f u).trans (ofNat_eq_unitBinade f m).symm
  have h01 (p : Primitives) : next01Of p f u = p.fadd f b f.negOne := by rw [next01Of, hb]
  have hunit (p : Primitives) : nextUnitOf p f u = unitValue p f u := nextUnitOf_eq_unitValue p f u
  refine ⟨?next12, ?next01, ?nextunit, fun hieee => ⟨?ieee01, ?ieeeUnit⟩⟩
  case next12 => exact exec_assembled (exec_next12 f rd s) (congrArg some hb)
  case next01 => exact h01 s.params.primitives ▸ exists_assembled (exec_next01 f rd s)
  case nextunit => exact hunit s.params.primitives ▸ exists_assembled (exec_nextunit f rd s)
  case ieee01 =>
    refine exec_assembled (exec_next01 f rd s) ((h01 _).trans ?_)
    rw [hieee, ← fadd_ieee_next01 f hm, ← ofNat_eq_unitBinade]
  case ieeeUnit =>
    refine exec_assembled (exec_nextunit f rd s) ((hunit _).trans ?_)
    rw [hieee, unitValue_ieee]

/-! ## The range of epsilon (R153) -/

/-- The two bounds are 0.1 and 0.5, rounded. -/
theorem epsilonBounds_eq_roundRatio (f : Fmt) :
    f.epsLo.toNat = f.roundRatio (2 ^ f.unitExp) 10 ∧ f.epsHi.toNat = f.roundRatio (2 ^ f.unitExp) 2 := by
  cases f <;> decide +kernel

theorem epsLo_pos (f : Fmt) : 0 < f.epsLo.toNat := by cases f <;> decide

theorem epsLo_le_epsHi (f : Fmt) : f.epsLo.toNat ≤ f.epsHi.toNat := by cases f <;> decide

theorem epsHi_lt_infBits (f : Fmt) : f.epsHi.toNat < f.infBits := by cases f <;> decide

section Range

variable {f : Fmt} {e : Word}

/-- A negative pattern is not above a positive number, whatever its magnitude. -/
theorem fle_of_sign_true {v : Word} (hpos : 0 < v.toNat) (hv : v.toNat < f.infBits) (he : f.sign e = true) : fle f v e = false := by
  have hunits : 0 < f.unitsOfBits v.toNat := f.unitsOfBits_zero ▸ f.unitsOfBits_strictMono hpos
  have hneg : f.value e = -(f.units e : Int) := if_pos he
  have hlt : ¬ f.value v ≤ f.value e := by
    rw [Fmt.value_of_lt_infBits hv, hneg]
    omega
  rw [fle, decide_eq_false hlt, Bool.and_false]

/-- A pattern that is neither negative nor a NaN is compared by its bits, infinity included. -/
theorem toNat_le_of_fle {v : Word} (he : e.toNat < 2 ^ (f.width - 1)) (hv : v.toNat < f.infBits) (h : fle f e v = true) :
    e.toNat ≤ v.toNat := by
  have hsign : f.sign e = false := Nat.testBit_lt_two_pow he
  have hvalue : f.value e ≤ f.value v := by
    simp only [fle, Bool.and_eq_true, decide_eq_true_eq] at h
    exact h.2
  rw [Fmt.value_of_sign_false hsign, f.units_eq_unitsOfBits, Nat.mod_eq_of_lt he, Fmt.value_of_lt_infBits hv] at hvalue
  exact f.unitsOfBits_strictMono.le_iff_le.1 (Int.ofNat_le.1 hvalue)

theorem toNat_lt_of_sign_false (hw : e.toNat < 2 ^ f.width) (h : f.sign e = false) : e.toNat < 2 ^ (f.width - 1) := by
  have hsucc : 2 ^ f.width = 2 ^ (f.width - 1) + 2 ^ (f.width - 1) := by cases f <;> rfl
  rw [Fmt.sign, ← BitVec.testBit_toNat, Nat.testBit_eq_decide_div_mod_eq] at h
  by_contra hge
  have hdiv : e.toNat / 2 ^ (f.width - 1) = 1 := Nat.div_eq_of_lt_le (by omega) (by omega)
  simp [hdiv] at h

/-- The two tests of epsilon are a comparison of the patterns (R153). -/
theorem epsilonValid_iff (hw : e.toNat < 2 ^ f.width) : epsilonValid f e = true ↔ epsilonInRange f e := by
  refine ⟨fun h => ?_, epsilonValid_of_inRange⟩
  obtain ⟨hlo, hhi⟩ : fle f f.epsLo e = true ∧ fle f e f.epsHi = true := by simpa [epsilonValid] using h
  have hloFinite := (epsLo_le_epsHi f).trans_lt (epsHi_lt_infBits f)
  cases hsign : f.sign e with
  | true =>
    rw [fle_of_sign_true (epsLo_pos f) hloFinite hsign] at hlo
    cases hlo
  | false =>
    have hle := toNat_le_of_fle (toNat_lt_of_sign_false hw hsign) (epsHi_lt_infBits f) hhi
    rw [fle_of_lt_infBits hloFinite (hle.trans_lt (epsHi_lt_infBits f))] at hlo
    exact ⟨of_decide_eq_true hlo, hle⟩

theorem epsilonOperand_of_not_inRange {s : State} {r : SReg} (h : ¬ epsilonInRange f (f.pattern s.x[r])) :
    s.epsilonOperand f r = raise .epsilon :=
  if_neg fun hvalid => h ((epsilonValid_iff (f.pattern_lt _)).1 hvalid)

end Range

/-- Settles O39: the epsilon is checked before the loop, in `VGEN` after the size. -/
theorem epsilonRange : Obligations.EpsilonRange := by
  refine ⟨rfl, rfl, fun f => ?_⟩
  obtain ⟨hlo, hhi⟩ := epsilonBounds_eq_roundRatio f
  refine ⟨hlo, hhi, fun e he => ?_, fun s rd rs1 rs2 vd hout => ⟨?_, fun hpos hmax => ?_⟩⟩
  · rw [← epsilonValid_iff he, epsilonValid, Bool.and_eq_true]
  · exact (exec_nextvec f rd rs2 s).trans (finish_bind_raise (epsilonOperand_of_not_inRange hout) ..)
  · obtain ⟨n, hn⟩ := sizeOperand_of_inRange hpos hmax
    exact (exec_vgen f vd rs1 rs2 s).trans (finish_bind_ok hn (finish_bind_raise (epsilonOperand_of_not_inRange hout) ..))

end Sys2Proof.Machine

namespace Sys2Proof

/-! ## The rounds of the generator (R129, R160; log 2) -/

/-- A generator state as numbers in range: what `genStates` counts. -/
def Gen.digits (g : Gen) : Fin 37 × (Fin 37 → Fin (2 ^ 64)) := (g.cur, fun i => g.words[i].toFin)

theorem Gen.digits_injective : Function.Injective Gen.digits := by
  intro g g' h
  obtain ⟨hcur, hwords⟩ := Prod.mk.inj h
  exact Gen.ext_words hcur fun i => BitVec.eq_of_toFin_eq (congrFun hwords i)

/-- A step is a bijection, so every state the generator comes to it has come to within `genStates` steps. -/
theorem iterate_advance_within (g : Gen) (k : Nat) : ∃ j < genStates, Gen.advance^[k] g = Gen.advance^[j] g := by
  have hfinite : Fintype Gen := Fintype.ofInjective _ Gen.digits_injective
  have hcard : Fintype.card Gen ≤ genStates := by
    refine (Fintype.card_le_of_injective _ Gen.digits_injective).trans_eq ?_
    rw [Fintype.card_prod, Fintype.card_fun, Fintype.card_fin, Fintype.card_fin, genStates]
  have hperiodic : g ∈ Function.periodicPts Gen.advance := advance_bijective.injective.mem_periodicPts g
  have hpos := Function.minimalPeriod_pos_of_mem_periodicPts hperiodic
  exact ⟨_, ((Nat.mod_lt k hpos).trans_le Function.minimalPeriod_le_card).trans_le hcard,
    Function.iterate_mod_minimalPeriod_eq.symm⟩

end Sys2Proof

namespace Sys2Proof.Machine

/-! ## The rejection loop, sample by sample (R160) -/

section Loop

variable {p : Primitives} {f : Fmt} {e r : Word} {g : Gen}

theorem loopSample_zero : loopSample p f g 0 = nextUnitOf p f g.step64.1 := (nextUnitOf_eq_unitValue ..).symm

/-- Sample `k + 1` is sample `k` of the loop that starts one step on. -/
theorem loopSample_succ (k : Nat) : loopSample p f g (k + 1) = loopSample p f g.advance k := rfl

theorem nextVecWithin_eq_none_iff {n : Nat} :
    nextVecWithin p f e n g = none ↔ ∀ k < n, accepted f e (loopSample p f g k) = none := by
  induction n generalizing g with
  | zero => simp [nextVecWithin]
  | succ n ih =>
    rw [nextVecWithin_succ, Nat.forall_lt_succ_left, loopSample_zero]
    cases accepted f e (nextUnitOf p f g.step64.1) with
    | none => simpa [loopSample_succ] using ih
    | some r => simp

/-- The loop never ends exactly when no sample is ever accepted: the cut after `genStates` samples is a whole round. -/
theorem nextVec_eq_none_iff : nextVec p f e g = none ↔ ∀ k, accepted f e (loopSample p f g k) = none := by
  rw [nextVec_eq_within, nextVecWithin_eq_none_iff]
  refine ⟨fun h k => ?_, fun h k _ => h k⟩
  obtain ⟨j, hj, hround⟩ := iterate_advance_within g k
  have hsample : loopSample p f g k = loopSample p f g j := by simp only [loopSample, hround]
  exact hsample ▸ h j hj

/-- The loop goes on after a sample that is rejected. -/
theorem nextVec_of_rejected (h : accepted f e (loopSample p f g 0) = none) : nextVec p f e g = nextVec p f e g.advance := by
  obtain ⟨n, hn⟩ : ∃ n, genStates = n + 1 := Nat.exists_eq_add_one_of_ne_zero (by simp [genStates])
  have hshort : nextVec p f e g = nextVecWithin p f e n g.advance := by
    rw [nextVec_eq_within, hn, nextVecWithin_succ, ← loopSample_zero, h]
  cases hres : nextVec p f e g with
  | none =>
    rw [nextVec_eq_none_iff] at hres
    exact (nextVec_eq_none_iff.2 fun k => hres (k + 1)).symm
  | some r =>
    rw [nextVec_eq_within]
    exact (nextVecWithin_mono (hshort ▸ hres) (hn ▸ n.le_succ)).symm

/-- The loop ends with the first accepted sample. -/
theorem nextVec_of_first_accepted {k : Nat} (hk : accepted f e (loopSample p f g k) = some r)
    (hfirst : ∀ j < k, accepted f e (loopSample p f g j) = none) : nextVec p f e g = some (r, Gen.advance^[k + 1] g) := by
  induction k generalizing g with
  | zero => exact nextVec_of_accepted (loopSample_zero ▸ hk)
  | succ k ih =>
    rw [nextVec_of_rejected (hfirst 0 k.succ_pos)]
    exact ih hk fun j hj => hfirst (j + 1) (Nat.succ_lt_succ hj)

/-- A loop that ends has a first accepted sample. -/
theorem exists_first_accepted (h : nextVec p f e g ≠ none) : ∃ k r, accepted f e (loopSample p f g k) = some r ∧
    nextVec p f e g = some (r, Gen.advance^[k + 1] g) := by
  have hexists : ∃ k, accepted f e (loopSample p f g k) ≠ none := not_forall.1 (mt nextVec_eq_none_iff.2 h)
  obtain ⟨r, hr⟩ := Option.ne_none_iff_exists'.1 (Nat.find_spec hexists)
  exact ⟨_, r, hr, nextVec_of_first_accepted hr fun j hj => not_not.1 (Nat.find_min hexists hj)⟩

theorem accepted_eq_none_iff (he : epsilonInRange f e) {k : Nat} :
    accepted f e (loopSample p f g k) = none ↔ sampleAccepted p f e g k = false := by
  rw [← isSome_accepted_loopSample he, Option.isSome_eq_false_iff, Option.isNone_iff_eq_none]

/-- What an accepted sample is, is the sample. -/
theorem accepted_of_sampleAccepted (he : epsilonInRange f e) {k : Nat} (h : sampleAccepted p f e g k = true) :
    accepted f e (loopSample p f g k) = loopSample p f g k := by
  rw [← isSome_accepted_loopSample he] at h
  obtain ⟨r, hr⟩ := Option.isSome_iff_exists.1 h
  exact hr.trans (accepted_eq_some.1 hr).1.symm

/-! ## The elements of `VGEN`, sample by sample (R198) -/

theorem genElements_of_accepted (h : accepted f e (loopSample p f g 0) = some r) (n : Nat) :
    genElements p f e (n + 1) g = (genElements p f e n g.advance).map fun rest => (r :: rest.1, rest.2) := by
  simp only [genElements, nextVec_of_accepted (loopSample_zero ▸ h)]
  cases genElements p f e n g.advance <;> rfl

theorem genElements_of_rejected (h : accepted f e (loopSample p f g 0) = none) (n : Nat) :
    genElements p f e (n + 1) g = genElements p f e (n + 1) g.advance := by
  rw [genElements, nextVec_of_rejected h, genElements]

/-- The accepted ones of the first `count` samples. -/
def acceptedBelow (p : Primitives) (f : Fmt) (e : Word) (g : Gen) (count : Nat) : List Nat :=
  (List.range count).filter (sampleAccepted p f e g)

theorem mem_acceptedBelow {count k : Nat} :
    k ∈ acceptedBelow p f e g count ↔ k < count ∧ sampleAccepted p f e g k = true := by
  rw [acceptedBelow, List.mem_filter, List.mem_range]

/-- After the first `a` samples the loop is the one that starts there. -/
theorem loopSample_add (a k : Nat) : loopSample p f g (a + k) = loopSample p f (Gen.advance^[a] g) k := by
  simp only [loopSample, Nat.add_comm a, Function.iterate_add_apply]

theorem acceptedBelow_add (a b : Nat) : acceptedBelow p f e g (a + b) =
    acceptedBelow p f e g a ++ (acceptedBelow p f e (Gen.advance^[a] g) b).map (a + ·) := by
  have hshift : sampleAccepted p f e g ∘ (a + ·) = sampleAccepted p f e (Gen.advance^[a] g) :=
    funext fun k => by simp only [Function.comp_apply, sampleAccepted, loopSample_add]
  rw [acceptedBelow, List.range_add, List.filter_append, List.filter_map, hshift]
  rfl

theorem acceptedBelow_succ_of_accepted (h : sampleAccepted p f e g 0 = true) (count : Nat) :
    acceptedBelow p f e g (count + 1) = 0 :: (acceptedBelow p f e g.advance count).map (1 + ·) := by
  rw [Nat.add_comm, acceptedBelow_add, acceptedBelow, List.range_one, List.filter_singleton, h]
  rfl

theorem acceptedBelow_succ_of_rejected (h : sampleAccepted p f e g 0 = false) (count : Nat) :
    acceptedBelow p f e g (count + 1) = (acceptedBelow p f e g.advance count).map (1 + ·) := by
  rw [Nat.add_comm, acceptedBelow_add, acceptedBelow, List.range_one, List.filter_singleton, h]
  rfl

/-- The samples of the loop one step on. -/
theorem map_loopSample_shift (ks : List Nat) :
    (ks.map (1 + ·)).map (loopSample p f g) = ks.map (loopSample p f g.advance) := by
  rw [List.map_map]
  exact List.map_congr_left fun k _ => loopSample_add 1 k

/-- The elements are the accepted samples in order, the last of them the last sample taken (R198). -/
theorem genElements_of_acceptedBelow (he : epsilonInRange f e) {k : Nat} {es : List Word} (hk : sampleAccepted p f e g k = true)
    (hes : (acceptedBelow p f e g (k + 1)).map (loopSample p f g) = es.map some) :
    genElements p f e es.length g = some (es, Gen.advance^[k + 1] g) := by
  induction k generalizing g es with
  | zero =>
    rw [acceptedBelow_succ_of_accepted hk] at hes
    obtain ⟨r, rfl, hr⟩ : ∃ r, es = [r] ∧ some r = loopSample p f g 0 := by
      simpa [acceptedBelow, List.map_eq_singleton_iff] using hes.symm
    rw [List.length_singleton, genElements_of_accepted ((accepted_of_sampleAccepted he hk).trans hr.symm)]
    rfl
  | succ k ih =>
    cases h0 : sampleAccepted p f e g 0 with
    | true =>
      rw [acceptedBelow_succ_of_accepted h0, List.map_cons, map_loopSample_shift] at hes
      obtain ⟨r, rest, rfl, hr, hrest⟩ := List.map_eq_cons_iff.1 hes.symm
      rw [List.length_cons, genElements_of_accepted ((accepted_of_sampleAccepted he h0).trans hr.symm), ih hk hrest.symm]
      rfl
    | false =>
      have hpos : es.length ≠ 0 := by
        have hmem : k + 1 ∈ acceptedBelow p f e g (k + 1 + 1) := mem_acceptedBelow.2 ⟨(k + 1).lt_succ_self, hk⟩
        rw [← List.length_map (f := some), ← hes, List.length_map]
        exact (List.length_pos_of_mem hmem).ne'
      obtain ⟨n, hn⟩ := Nat.exists_eq_add_one_of_ne_zero hpos
      rw [acceptedBelow_succ_of_rejected h0, map_loopSample_shift] at hes
      rw [hn, genElements_of_rejected ((accepted_eq_none_iff he).2 h0), ← hn]
      exact ih hk hes

/-- When the samples never hold `n` accepted ones, some element's loop never ends. -/
theorem genElements_eq_none (he : epsilonInRange f e) {n : Nat} (h : ∀ count, (acceptedBelow p f e g count).length < n) :
    genElements p f e n g = none := by
  induction n generalizing g with
  | zero => exact absurd (h 0) (Nat.not_lt_zero _)
  | succ n ih =>
    by_cases hnext : nextVec p f e g = none
    · rw [genElements, hnext]
    · obtain ⟨k, r, hk, hr⟩ := exists_first_accepted hnext
      have hrest : genElements p f e n (Gen.advance^[k + 1] g) = none := by
        refine ih fun count => ?_
        have hmem : k ∈ acceptedBelow p f e g (k + 1) := by
          rw [mem_acceptedBelow, ← isSome_accepted_loopSample he, hk]
          exact ⟨k.lt_succ_self, rfl⟩
        have hpos := List.length_pos_of_mem hmem
        have hlt := h (k + 1 + count)
        rw [acceptedBelow_add, List.length_append, List.length_map] at hlt
        omega
      rw [genElements, hr]
      simp only [hrest]

end Loop

/-- Settles O40: the loop ends with the first accepted sample, or there is none. -/
theorem nextvecCompletes : Obligations.NextvecCompletes := by
  intro f s rd rs1 he sample isAccepted
  have hcheck := epsilonOperand_of_inRange he
  refine ⟨fun k r hsample hk hfirst => ?_, ?_⟩
  · have hnext := nextVec_of_first_accepted ((accepted_of_sampleAccepted he hk).trans hsample)
      fun j hj => (accepted_eq_none_iff he).2 (hfirst j hj)
    refine (exec_nextvec f rd rs1 s).trans (finish_bind_ok hcheck ?_)
    rw [hnext]
    rfl
  · refine Iff.trans ?_ (exec_nextvec_hangs_iff hcheck).symm
    rw [nextVec_eq_none_iff]
    exact forall_congr' fun k => (accepted_eq_none_iff he).symm

/-- Settles O43: the loops of the elements, one after the other, take the samples in order. -/
theorem vgenCompletes : Obligations.VgenCompletes := by
  intro f s vd rs1 rs2 n hn hpos hmax he sample isAccepted acceptedOf
  have hsize : s.sizeOperand rs1 = .ok n := sizeOperand_eq_ok.2 ⟨hn, hpos, hmax⟩
  have hcheck := epsilonOperand_of_inRange he
  refine ⟨fun k es hk hlen hes => ?_, fun hfew => ?_⟩
  · have hcount : es.length = n := by rw [← hlen, ← List.length_map sample, hes, List.length_map]
    have helems := hcount ▸ genElements_of_acceptedBelow he hk hes
    refine (exec_vgen f vd rs1 rs2 s).trans (finish_bind_ok hsize (finish_bind_ok hcheck ?_))
    rw [helems]
    rfl
  · exact (exec_vgen_hangs_iff hsize hcheck).2 (genElements_eq_none he hfew)

end Sys2Proof.Machine

/-! # Rounding to nearest even, and the statements of family 44_fparith

A number is a real number of units. Both roundings find the binade of its integer part and the integer nearest to its significand
there, which `isRounded_of_floor` shows to be the nearest magnitude: the two rounding statements are this lemma, read without the
division and without the root. -/

namespace Sys2Proof

/-! ## Rounding to nearest even, in the real numbers (R172) -/

/-- `q` is the integer nearest to `r`, the even one of two equally near ones. -/
structure IsNearestEven (r : ℝ) (q : ℕ) : Prop where
  low : 2 * (q : ℝ) ≤ 2 * r + 1
  high : 2 * r ≤ 2 * q + 1
  tie : 2 * (q : ℝ) = 2 * r + 1 ∨ 2 * r = 2 * q + 1 → q % 2 = 0

/-- The magnitude with bits `b` is nearest to `r` units, an equally near one leaving the even bits: `r` lies on the side of `b`
of its middle with any other magnitude. -/
structure Fmt.IsRounded (f : Fmt) (r : ℝ) (b : ℕ) : Prop where
  low : ∀ c < b, (f.unitsOfBits b + f.unitsOfBits c : ℝ) ≤ 2 * r
  high : ∀ c, b < c → 2 * r ≤ (f.unitsOfBits b + f.unitsOfBits c : ℝ)
  tie : ∀ c ≠ b, (f.unitsOfBits b + f.unitsOfBits c : ℝ) = 2 * r → b % 2 = 0

/-- Rounding up exactly above the middle, and at the middle from an odd integer. -/
theorem isNearestEven_of_floor {r : ℝ} {q : ℕ} (hlow : q ≤ r) (hhigh : r < q + 1) {up : Prop} [Decidable up]
    (hup : up ↔ 2 * (q : ℝ) + 1 < 2 * r ∨ (2 * (q : ℝ) + 1 = 2 * r ∧ q % 2 = 1)) : IsNearestEven r (if up then q + 1 else q) := by
  split
  · next h =>
    have hmid : 2 * (q : ℝ) + 1 ≤ 2 * r := (hup.1 h).elim le_of_lt fun h => h.1.le
    refine ⟨by push_cast; linarith, by push_cast; linarith, fun htie => ?_⟩
    have hodd : q % 2 = 1 := by
      refine ((hup.1 h).resolve_left fun hlt => ?_).2
      push_cast at htie
      rcases htie with htie | htie <;> linarith
    omega
  · next h =>
    obtain ⟨hmid, hodd⟩ : 2 * r ≤ 2 * (q : ℝ) + 1 ∧ (2 * (q : ℝ) + 1 = 2 * r → ¬ q % 2 = 1) := by
      simpa [hup, not_or] using h
    refine ⟨by linarith, hmid, fun htie => ?_⟩
    have heq : 2 * (q : ℝ) + 1 = 2 * r := by rcases htie with htie | htie <;> linarith
    have := hodd heq
    omega

theorem Fmt.fracBits_pos (f : Fmt) : 0 < f.fracBits := by cases f <;> decide

section Binade

variable {f : Fmt} {s : ℝ} {k q : ℕ}

/-- The magnitude of `q * 2^k` units has the bits `k * 2^p + q`, also where `q` is the carry `2^(p+1)`. -/
theorem Fmt.unitsOfBits_binade (hlow : k = 0 ∨ 2 ^ f.fracBits ≤ q) (hhigh : q ≤ 2 ^ (f.fracBits + 1)) :
    f.unitsOfBits (k * 2 ^ f.fracBits + q) = q * 2 ^ k := by
  have hpos := Nat.two_pow_pos f.fracBits
  have hdouble : 2 ^ (f.fracBits + 1) = 2 ^ f.fracBits + 2 ^ f.fracBits := by omega
  obtain hsub | ⟨fr, rfl⟩ : q < 2 ^ f.fracBits ∨ ∃ fr, q = 2 ^ f.fracBits + fr :=
    (lt_or_ge q _).imp_right Nat.exists_eq_add_of_le
  · obtain rfl := hlow.resolve_right (by omega)
    have h := f.unitsOfBits_mul_add 0 hsub
    simpa [unitsOf] using h
  · obtain hfr | rfl : fr < 2 ^ f.fracBits ∨ fr = 2 ^ f.fracBits := by omega
    · have h := f.unitsOfBits_mul_add (k + 1) hfr
      simpa [unitsOf, Nat.mul_succ, Nat.mul_comm, Nat.add_assoc] using h
    · have h := f.unitsOfBits_mul_add (k + 2) hpos
      rw [unitsOf, if_neg (by omega)] at h
      calc f.unitsOfBits (k * 2 ^ f.fracBits + (2 ^ f.fracBits + 2 ^ f.fracBits))
          = f.unitsOfBits (2 ^ f.fracBits * (k + 2) + 0) := congrArg _ (by ring)
        _ = (2 ^ f.fracBits + 2 ^ f.fracBits) * 2 ^ k := by rw [h, show k + 2 - 1 = k + 1 from rfl]; ring

/-- A significand of binade `k` is rounded to one of it, or to the carry into the next one. -/
theorem IsNearestEven.significand (hq : IsNearestEven s q) (hs : s < 2 ^ (f.fracBits + 1)) (hk : k = 0 ∨ 2 ^ f.fracBits ≤ s) :
    (k = 0 ∨ 2 ^ f.fracBits ≤ q) ∧ q ≤ 2 ^ (f.fracBits + 1) := by
  refine ⟨hk.imp_right fun hk => ?_, ?_⟩
  · have h : (2 * 2 ^ f.fracBits : ℝ) ≤ 2 * q + 1 := by linarith [hq.high]
    have : 2 * 2 ^ f.fracBits ≤ 2 * q + 1 := by exact_mod_cast h
    omega
  · have h : (2 * q : ℝ) < 2 * 2 ^ (f.fracBits + 1) + 1 := by linarith [hq.low]
    have : 2 * q < 2 * 2 ^ (f.fracBits + 1) + 1 := by exact_mod_cast h
    omega

/-- The bits of a binade are even where the significand is. -/
theorem Fmt.binadeBits_even (h : q % 2 = 0) (k : ℕ) : (k * 2 ^ f.fracBits + q) % 2 = 0 := by
  have heven : 2 ∣ k * 2 ^ f.fracBits := (dvd_pow_self 2 f.fracBits_pos.ne').mul_left k
  omega

/-! Two neighbours of one binade are one significand apart. -/

theorem Fmt.unitsOfBits_le_of_lt {c : ℕ} (hlow : k = 0 ∨ 2 ^ f.fracBits ≤ q) (hhigh : q ≤ 2 ^ (f.fracBits + 1))
    (hc : c < k * 2 ^ f.fracBits + (q + 1)) : f.unitsOfBits c ≤ q * 2 ^ k :=
  unitsOfBits_binade hlow hhigh ▸ f.unitsOfBits_strictMono.monotone (Nat.le_of_lt_succ hc)

theorem Fmt.le_unitsOfBits_of_lt {c : ℕ} (hlow : k = 0 ∨ 2 ^ f.fracBits ≤ q) (hhigh : q < 2 ^ (f.fracBits + 1))
    (hc : k * 2 ^ f.fracBits + q < c) : (q + 1) * 2 ^ k ≤ f.unitsOfBits c :=
  unitsOfBits_binade (hlow.imp_right Nat.le_succ_of_le) hhigh ▸ f.unitsOfBits_strictMono.monotone hc

/-- A magnitude below a rounded significand has its middle with it below the number, or a whole significand below: one that was
rounded up is not the first of its binade. -/
theorem Fmt.middle_below {c : ℕ} (hpos : 0 ≤ s) (hs : s < 2 ^ (f.fracBits + 1)) (hk : k = 0 ∨ 2 ^ f.fracBits ≤ s)
    (hq : IsNearestEven s q) (hc : c < k * 2 ^ f.fracBits + q) :
    (q * 2 ^ k + f.unitsOfBits c : ℝ) < 2 * (s * 2 ^ k) ∨ (q * 2 ^ k + f.unitsOfBits c : ℝ) ≤ (2 * q - 1) * 2 ^ k := by
  obtain ⟨hlow, hhigh⟩ := hq.significand hs hk
  rcases le_or_gt (q : ℝ) s with hdown | hup
  · left
    have hlt : (f.unitsOfBits c : ℝ) < q * 2 ^ k := by exact_mod_cast unitsOfBits_binade hlow hhigh ▸ f.unitsOfBits_strictMono hc
    have := mul_le_mul_of_nonneg_right hdown (by positivity : (0 : ℝ) ≤ 2 ^ k)
    linarith
  · right
    obtain ⟨q, rfl⟩ : ∃ m, q = m + 1 := Nat.exists_eq_add_one.2 (by exact_mod_cast hpos.trans_lt hup)
    have hprev : k = 0 ∨ 2 ^ f.fracBits ≤ q := hk.imp_right fun hk => Nat.le_of_lt_succ (by exact_mod_cast hk.trans_lt hup)
    have hle : (f.unitsOfBits c : ℝ) ≤ q * 2 ^ k := by exact_mod_cast unitsOfBits_le_of_lt hprev (by omega) hc
    push_cast
    linarith

/-- A magnitude above a rounded significand has its middle with it above the number, or a whole significand above: one that was
rounded down is not the carry. -/
theorem Fmt.middle_above {c : ℕ} (hs : s < 2 ^ (f.fracBits + 1)) (hk : k = 0 ∨ 2 ^ f.fracBits ≤ s)
    (hq : IsNearestEven s q) (hc : k * 2 ^ f.fracBits + q < c) :
    2 * (s * 2 ^ k) < (q * 2 ^ k + f.unitsOfBits c : ℝ) ∨ (2 * q + 1) * 2 ^ k ≤ (q * 2 ^ k + f.unitsOfBits c : ℝ) := by
  obtain ⟨hlow, hhigh⟩ := hq.significand hs hk
  rcases le_or_gt s (q : ℝ) with hup | hdown
  · left
    have hlt : (q * 2 ^ k : ℝ) < f.unitsOfBits c := by exact_mod_cast unitsOfBits_binade hlow hhigh ▸ f.unitsOfBits_strictMono hc
    have := mul_le_mul_of_nonneg_right hup (by positivity : (0 : ℝ) ≤ 2 ^ k)
    linarith
  · right
    have hnext : q < 2 ^ (f.fracBits + 1) := by exact_mod_cast hdown.trans hs
    have hle : ((q + 1) * 2 ^ k : ℝ) ≤ f.unitsOfBits c := by exact_mod_cast le_unitsOfBits_of_lt hlow hnext hc
    linarith

/-- Rounding the significand rounds the number. -/
theorem Fmt.isRounded_binade (hpos : 0 ≤ s) (hs : s < 2 ^ (f.fracBits + 1)) (hk : k = 0 ∨ 2 ^ f.fracBits ≤ s)
    (hq : IsNearestEven s q) : f.IsRounded (s * 2 ^ k) (k * 2 ^ f.fracBits + q) := by
  have hM : (0 : ℝ) < 2 ^ k := by positivity
  obtain ⟨hlow, hhigh⟩ := hq.significand hs hk
  have hself : (f.unitsOfBits (k * 2 ^ f.fracBits + q) : ℝ) = q * 2 ^ k := by exact_mod_cast unitsOfBits_binade hlow hhigh
  have hdown : (2 * q - 1) * 2 ^ k ≤ 2 * (s * 2 ^ k) := by nlinarith [hq.low]
  have hup : 2 * (s * 2 ^ k) ≤ (2 * q + 1) * 2 ^ k := by nlinarith [hq.high]
  refine ⟨fun c hc => ?low, fun c hc => ?high, fun c hc heq => ?tie⟩
  case low =>
    rw [hself]
    exact (middle_below hpos hs hk hq hc).elim le_of_lt hdown.trans'
  case high =>
    rw [hself]
    exact (middle_above hs hk hq hc).elim le_of_lt hup.trans
  case tie =>
    rw [hself] at heq
    refine binadeBits_even (hq.tie ?_) k
    rcases hc.lt_or_gt with hc | hc
    · have hle := (middle_below hpos hs hk hq hc).resolve_left heq.not_lt
      exact .inl (mul_right_cancel₀ hM.ne' (by linarith))
    · have hle := (middle_above hs hk hq hc).resolve_left heq.not_gt
      exact .inr (mul_right_cancel₀ hM.ne' (by linarith))

end Binade

/-- The integer part of a number tells its binade. -/
theorem Fmt.significand_of_floor (f : Fmt) {r : ℝ} {n : ℕ} (hlow : n ≤ r) (hhigh : r < n + 1) :
    r / 2 ^ f.binade n < 2 ^ (f.fracBits + 1) ∧ (f.binade n = 0 ∨ 2 ^ f.fracBits ≤ r / 2 ^ f.binade n) := by
  have hM : (0 : ℝ) < 2 ^ f.binade n := by positivity
  constructor
  · have hlog : n + 1 ≤ 2 ^ (f.fracBits + 1 + f.binade n) :=
      Nat.lt_log2_self.trans_le (Nat.pow_le_pow_right two_pos (by rw [Fmt.binade]; omega))
    rw [div_lt_iff₀ hM, ← pow_add]
    exact hhigh.trans_le (by exact_mod_cast hlog)
  · refine (Nat.eq_zero_or_pos (f.binade n)).imp_right fun hk => ?_
    have hn : n ≠ 0 := by
      rintro rfl
      simp [Fmt.binade] at hk
    have hlog : 2 ^ (f.fracBits + f.binade n) ≤ n :=
      (Nat.pow_le_pow_right two_pos (by rw [Fmt.binade] at hk ⊢; omega)).trans (Nat.log2_self_le hn)
    rw [le_div_iff₀ hM, ← pow_add]
    exact hlow.trans' (by exact_mod_cast hlog)

/-- Rounding the significand in the binade of the integer part rounds the number. -/
theorem Fmt.isRounded_of_floor (f : Fmt) {r : ℝ} {n q : ℕ} (hlow : n ≤ r) (hhigh : r < n + 1)
    (hq : IsNearestEven (r / 2 ^ f.binade n) q) : f.IsRounded r (f.binade n * 2 ^ f.fracBits + q) := by
  have hM : (0 : ℝ) < 2 ^ f.binade n := by positivity
  have hr : 0 ≤ r := n.cast_nonneg.trans hlow
  obtain ⟨hs, hk⟩ := f.significand_of_floor hlow hhigh
  have h := Fmt.isRounded_binade (div_nonneg hr hM.le) hs hk hq
  rwa [div_mul_cancel₀ r hM.ne'] at h

/-- A number is rounded above odd magnitude bits `m` exactly from their middle with the next ones on; with the last bits before
infinity for `m` this is the overflow threshold. -/
theorem Fmt.IsRounded.le_iff {f : Fmt} {r : ℝ} {b m : ℕ} (h : f.IsRounded r b) (hm : m % 2 = 1) :
    m + 1 ≤ b ↔ (f.unitsOfBits m + f.unitsOfBits (m + 1) : ℝ) ≤ 2 * r := by
  have hmono : ∀ {c d : ℕ}, c ≤ d → (f.unitsOfBits c : ℝ) ≤ f.unitsOfBits d := fun hcd => by
    exact_mod_cast f.unitsOfBits_strictMono.monotone hcd
  constructor
  · intro hle
    linarith [h.low m hle, hmono hle]
  · intro hmid
    by_contra hlt
    have hbm : b ≤ m := by omega
    have hhigh := h.high (m + 1) (by omega)
    have hle := hmono hbm
    have hunits : f.unitsOfBits b = f.unitsOfBits m := by
      exact_mod_cast (by linarith : (f.unitsOfBits b : ℝ) = f.unitsOfBits m)
    have heven := h.tie (m + 1) (by omega) (by linarith)
    have := f.unitsOfBits_strictMono.injective hunits
    omega

/-! ## `roundRatio` and `roundSqrt` (R172, R177) -/

section Ratio

variable {num den : ℕ}

theorem isNearestEven_nearestEven (hden : 0 < den) : IsNearestEven (num / den) (nearestEven num den) := by
  have hpos : (0 : ℝ) < den := by exact_mod_cast hden
  have hdiv : (den : ℝ) * (num / den : ℕ) + (num % den : ℕ) = num := by exact_mod_cast Nat.div_add_mod num den
  have hmod : ((num % den : ℕ) : ℝ) < den := by exact_mod_cast Nat.mod_lt num hden
  have hfloor : (num / den : ℝ) = (num / den : ℕ) + (num % den : ℕ) / den := by
    field_simp
    linarith
  have hfrac : (0 : ℝ) ≤ (num % den : ℕ) / den := by positivity
  have hfrac1 : ((num % den : ℕ) : ℝ) / den < 1 := (div_lt_one hpos).2 hmod
  refine isNearestEven_of_floor (by linarith) (by linarith) ?_
  have hlt : den < 2 * (num % den) ↔ (1 : ℝ) < 2 * ((num % den : ℕ) / den) := by
    rw [← mul_div_assoc, lt_div_iff₀ hpos, one_mul]
    exact_mod_cast Iff.rfl
  have heq : 2 * (num % den) = den ↔ (1 : ℝ) = 2 * ((num % den : ℕ) / den) := by
    rw [← mul_div_assoc, eq_div_iff hpos.ne', one_mul, eq_comm]
    exact_mod_cast Iff.rfl
  simp only [Bool.or_eq_true, Bool.and_eq_true, decide_eq_true_eq, beq_iff_eq, hlt, heq, hfloor]
  constructor
  · exact Or.imp (fun h => by linarith) (And.imp_left fun h => by linarith)
  · exact Or.imp (fun h => by linarith) (And.imp_left fun h => by linarith)

/-- `roundRatio` is the nearest magnitude, or the infinity at or beyond it. -/
theorem Fmt.exists_roundRatio (f : Fmt) (num : ℕ) (hden : 0 < den) :
    ∃ b, f.roundRatio num den = min b f.infBits ∧ f.IsRounded (num / den) b := by
  have hpos : (0 : ℝ) < den := by exact_mod_cast hden
  have hq := isNearestEven_nearestEven (num := num) (Nat.mul_pos hden (Nat.two_pow_pos (f.binade (num / den))))
  rw [Nat.cast_mul, Nat.cast_pow, Nat.cast_ofNat, ← div_div] at hq
  refine ⟨_, rfl, f.isRounded_of_floor Nat.cast_div_le ?_ hq⟩
  rw [div_lt_iff₀ hpos]
  exact_mod_cast Nat.lt_mul_of_div_lt (Nat.lt_succ_self _) hden

end Ratio

section Root

variable {m x : ℕ}

theorem natCast_le_sqrt : (m : ℝ) ≤ √x ↔ m * m ≤ x := by
  rw [Real.le_sqrt m.cast_nonneg x.cast_nonneg, sq]
  exact_mod_cast Iff.rfl

theorem sqrt_le_natCast : √x ≤ m ↔ x ≤ m * m := by
  rw [Real.sqrt_le_left m.cast_nonneg, sq]
  exact_mod_cast Iff.rfl

theorem natCast_eq_sqrt : (m : ℝ) = √x ↔ m * m = x := by
  rw [le_antisymm_iff, natCast_le_sqrt, sqrt_le_natCast, le_antisymm_iff]

theorem two_mul_sqrt (x : ℕ) : 2 * √x = √(4 * x : ℕ) := by
  rw [Nat.cast_mul, Real.sqrt_mul (Nat.cast_nonneg 4), show ((4 : ℕ) : ℝ) = 2 ^ 2 by norm_num, Real.sqrt_sq zero_le_two]

/-- Bit by bit, from a lower bound that is less than `2^n` short. -/
theorem isqrtBits_eq_sqrt {n acc : ℕ} (hlow : acc * acc ≤ x) (hhigh : x < (acc + 2 ^ n) * (acc + 2 ^ n)) :
    isqrtBits n x acc = Nat.sqrt x := by
  induction n generalizing acc with
  | zero => exact Nat.eq_sqrt.2 ⟨hlow, hhigh⟩
  | succ n ih =>
    rw [isqrtBits]
    split
    · next h => exact ih h (by rwa [Nat.add_assoc, ← Nat.two_mul, ← Nat.pow_succ'])
    · next h => exact ih hlow (by omega)

theorem log2_sqrt (x : ℕ) : Nat.log2 (Nat.sqrt x) = Nat.log2 x / 2 := by
  rcases Nat.eq_zero_or_pos x with rfl | hx
  · rfl
  · have hlow := Nat.log2_self_le hx.ne'
    have hhigh := Nat.lt_log2_self (n := x)
    rw [Nat.log2_eq_iff (Nat.sqrt_pos.2 hx).ne', Nat.le_sqrt, Nat.sqrt_lt, ← pow_add, ← pow_add]
    exact ⟨hlow.trans' (Nat.pow_le_pow_right two_pos (by omega)), hhigh.trans_le (Nat.pow_le_pow_right two_pos (by omega))⟩

theorem sq_mul_two_pow (m k : ℕ) : m * 2 ^ k * (m * 2 ^ k) = m * m * 4 ^ k := by
  rw [show 4 = 2 * 2 from rfl, mul_pow]
  ring

/-! The root scaled to a binade, compared with an integer. -/

theorem natCast_le_sqrt_div (k : ℕ) : (m : ℝ) ≤ √x / 2 ^ k ↔ m * m * 4 ^ k ≤ x := by
  rw [le_div_iff₀ (by positivity), ← sq_mul_two_pow, ← natCast_le_sqrt]
  push_cast
  exact Iff.rfl

theorem natCast_eq_sqrt_div (k : ℕ) : (m : ℝ) = √x / 2 ^ k ↔ m * m * 4 ^ k = x := by
  rw [eq_div_iff (by positivity), ← sq_mul_two_pow, ← natCast_eq_sqrt]
  push_cast
  exact Iff.rfl

/-- Comparing squares, as `roundSqrt` does, rounds the scaled root to the nearest integer. -/
theorem isNearestEven_sqrt {k q : ℕ} (hq : q = Nat.sqrt (x / 4 ^ k)) : IsNearestEven (√x / 2 ^ k)
    (if (2 * q + 1) * (2 * q + 1) * 4 ^ k < 4 * x ∨ ((2 * q + 1) * (2 * q + 1) * 4 ^ k = 4 * x ∧ q % 2 = 1) then q + 1
      else q) := by
  have hfour : 0 < 4 ^ k := by positivity
  have hmid : 2 * (√x / 2 ^ k) = √(4 * x : ℕ) / 2 ^ k := by rw [← two_mul_sqrt, mul_div_assoc]
  refine isNearestEven_of_floor ?_ ?_ ?_
  · rw [natCast_le_sqrt_div, ← Nat.le_div_iff_mul_le hfour, ← Nat.le_sqrt, hq]
  · have h : ¬ ((q + 1 : ℕ) : ℝ) ≤ √x / 2 ^ k := by
      rw [natCast_le_sqrt_div, ← Nat.le_div_iff_mul_le hfour, ← Nat.le_sqrt, hq]
      omega
    push_cast at h
    exact not_le.1 h
  · rw [hmid, lt_iff_le_and_ne, lt_iff_le_and_ne, ← natCast_le_sqrt_div, ne_eq, ne_eq, ← natCast_eq_sqrt_div]
    push_cast
    exact Iff.rfl

/-- `roundSqrt` is the nearest magnitude to the root, or the infinity at or beyond it. -/
theorem Fmt.exists_roundSqrt (f : Fmt) (x : ℕ) : ∃ b, f.roundSqrt x = min b f.infBits ∧ f.IsRounded √x b := by
  have hbinade : Nat.log2 x / 2 - f.fracBits = f.binade (Nat.sqrt x) := by rw [← log2_sqrt, Fmt.binade]
  have hbits : x / 4 ^ f.binade (Nat.sqrt x) < 2 ^ (Nat.log2 x / 2 - f.binade (Nat.sqrt x) + 1) *
      2 ^ (Nat.log2 x / 2 - f.binade (Nat.sqrt x) + 1) := by
    refine Nat.div_lt_of_lt_mul ((Nat.lt_log2_self (n := x)).trans_le ?_)
    rw [show 4 = 2 ^ 2 from rfl, ← pow_mul, ← pow_add, ← pow_add]
    exact Nat.pow_le_pow_right two_pos (by omega)
  have hq := isqrtBits_eq_sqrt (acc := 0) (Nat.zero_le _) (by rwa [Nat.zero_add])
  have hnear := isNearestEven_sqrt hq
  refine ⟨_, ?_, f.isRounded_of_floor Real.nat_sqrt_le_real_sqrt Real.real_sqrt_lt_nat_sqrt_succ hnear⟩
  rw [Fmt.roundSqrt, hbinade]
  simp only [Bool.or_eq_true, Bool.and_eq_true, decide_eq_true_eq, beq_iff_eq]
  rfl

end Root

/-! ## The two statements about rounding -/

/-- The bits of infinity, and those of the largest finite magnitude before them. -/
theorem Fmt.infBits_eq_succ (f : Fmt) : ∃ m, m % 2 = 1 ∧ f.infBits = m + 1 ∧
    f.unitsOfBits m + f.unitsOfBits (m + 1) = 2 * ((2 ^ (f.fracBits + 2) - 1) * 2 ^ (f.emax - 3)) := by
  refine ⟨f.infBits - 1, ?_⟩
  cases f <;> decide +kernel

section RatioDistance

variable {f : Fmt} {num den b : ℕ}

/-- The middles with other magnitudes, without the division. -/
theorem Fmt.IsRounded.two_mul_num (h : f.IsRounded (num / den) b) (hden : 0 < den) :
    (∀ c < b, den * (f.unitsOfBits b + f.unitsOfBits c) ≤ 2 * num) ∧
    (∀ c, b < c → 2 * num ≤ den * (f.unitsOfBits b + f.unitsOfBits c)) ∧
    ∀ c ≠ b, den * (f.unitsOfBits b + f.unitsOfBits c) = 2 * num → b % 2 = 0 := by
  have hpos : (0 : ℝ) < den := by exact_mod_cast hden
  have hscale : (2 * (num / den) : ℝ) = (2 * num) / den := by ring
  obtain ⟨hlow, hhigh, htie⟩ := h
  simp only [hscale, le_div_iff₀' hpos, div_le_iff₀' hpos, eq_div_iff hpos.ne', mul_comm _ (den : ℝ)] at hlow hhigh htie
  exact ⟨by exact_mod_cast hlow, by exact_mod_cast hhigh, by exact_mod_cast htie⟩

theorem Fmt.IsRounded.distance (h : f.IsRounded (num / den) b) (hden : 0 < den) {c : ℕ} (hc : c ≠ b) :
    ((num : ℤ) - den * f.unitsOfBits b).natAbs < ((num : ℤ) - den * f.unitsOfBits c).natAbs ∨
    ((num : ℤ) - den * f.unitsOfBits b).natAbs = ((num : ℤ) - den * f.unitsOfBits c).natAbs ∧ b % 2 = 0 := by
  obtain ⟨hlow, hhigh, htie⟩ := h.two_mul_num hden
  have htie := htie c hc
  rw [Nat.mul_add] at htie
  rcases hc.lt_or_gt with hlt | hgt
  · have hmid := hlow c hlt
    have hunits := Nat.mul_lt_mul_of_pos_left (f.unitsOfBits_strictMono hlt) hden
    rw [Nat.mul_add] at hmid
    omega
  · have hmid := hhigh c hgt
    have hunits := Nat.mul_lt_mul_of_pos_left (f.unitsOfBits_strictMono hgt) hden
    rw [Nat.mul_add] at hmid
    omega

end RatioDistance

theorem Fmt.units_pack (f : Fmt) (neg : Bool) {m : ℕ} (h : m < 2 ^ (f.width - 1)) : f.units (f.pack neg m) = f.unitsOfBits m := by
  rw [Fmt.units, f.expField_pack neg h, f.fracField_pack neg h, Fmt.unitsOfBits]

theorem Fmt.pack_toNat_mod (f : Fmt) (neg : Bool) {m : ℕ} (h : m < 2 ^ (f.width - 1)) :
    (f.pack neg m).toNat % 2 ^ (f.width - 1) = m := by
  rw [f.pack_toNat neg h]
  cases neg
  · rw [if_neg Bool.false_ne_true, Nat.zero_add, Nat.mod_eq_of_lt h]
  · rw [if_pos rfl, Nat.add_mod_left, Nat.mod_eq_of_lt h]

/-- Settles O54: the overflow threshold is the middle before infinity; below it, the bits are those of the nearest magnitude. -/
theorem rationalRounding : Obligations.RationalRounding := by
  intro f num den _ hden b distance
  obtain ⟨u, hb, hround⟩ := f.exists_roundRatio num hden
  have hlt := f.lt_of_le_infBits (f.roundRatio_le num den)
  refine ⟨f.roundRatio_le num den, ?overflow, fun hfinite c _ hc => ?nearest,
    fun neg => ⟨f.sign_pack neg hlt, f.units_pack neg hlt, f.pack_toNat_mod neg hlt⟩⟩
  case overflow =>
    obtain ⟨m, hodd, hinf, hmid⟩ := f.infBits_eq_succ
    have hpos : (0 : ℝ) < den := by exact_mod_cast hden
    have h := hround.le_iff hodd
    have hmid' : (f.unitsOfBits m + f.unitsOfBits (m + 1) : ℝ) = 2 * ((2 ^ (f.fracBits + 2) - 1) * 2 ^ (f.emax - 3) : ℕ) := by
      exact_mod_cast hmid
    rw [hmid', mul_le_mul_iff_right₀ two_pos, le_div_iff₀ hpos, ← Nat.cast_mul, Nat.cast_le, ← hinf] at h
    exact (show b = min u f.infBits from hb) ▸ min_eq_right_iff.trans h
  case nearest =>
    have hbu : b = u := by
      have : b = min u f.infBits := hb
      omega
    subst hbu
    exact hround.distance hden hc

section RootRange

variable {f : Fmt} {x b : ℕ}

theorem Fmt.IsRounded.four_mul (h : f.IsRounded √x b) :
    (∀ c < b, (f.unitsOfBits b + f.unitsOfBits c) * (f.unitsOfBits b + f.unitsOfBits c) ≤ 4 * x) ∧
    (∀ c, b < c → 4 * x ≤ (f.unitsOfBits b + f.unitsOfBits c) * (f.unitsOfBits b + f.unitsOfBits c)) ∧
    ∀ c ≠ b, (f.unitsOfBits b + f.unitsOfBits c) * (f.unitsOfBits b + f.unitsOfBits c) = 4 * x → b % 2 = 0 := by
  obtain ⟨hlow, hhigh, htie⟩ := h
  simp only [two_mul_sqrt, ← Nat.cast_add, natCast_le_sqrt, sqrt_le_natCast, natCast_eq_sqrt] at hlow hhigh htie
  exact ⟨hlow, hhigh, htie⟩

theorem Fmt.two_pow_le_unitsOfBits_infBits (f : Fmt) : 2 ^ (f.unitExp + 2) ≤ f.unitsOfBits f.infBits := by
  cases f <;> decide +kernel

theorem Fmt.two_mul_fracBits_le (f : Fmt) : 2 * f.fracBits ≤ f.unitExp := by cases f <;> decide

/-- The root of a positive finite number lies far inside the range of normal numbers. -/
theorem Fmt.IsRounded.normal {u : ℕ} (h : f.IsRounded √(u * 2 ^ f.unitExp : ℕ) b) (hpos : 0 < u)
    (hfinite : u < f.unitsOfBits f.infBits) : 2 ^ f.fracBits ≤ b ∧ b < f.infBits := by
  obtain ⟨hlow, hhigh, -⟩ := h.four_mul
  constructor
  · by_contra! hb
    have hunits : f.unitsOfBits (2 ^ f.fracBits) = 2 ^ f.fracBits := by
      have hcarry : 2 ^ f.fracBits ≤ 2 ^ (f.fracBits + 1) := Nat.pow_le_pow_right two_pos (Nat.le_succ _)
      simpa using Fmt.unitsOfBits_binade (k := 0) (.inl rfl) hcarry
    have hlt := f.unitsOfBits_strictMono hb
    have hmid := hhigh _ hb
    have hexp : 2 ^ f.fracBits * 2 ^ f.fracBits ≤ 2 ^ f.unitExp := by
      rw [← pow_add, ← Nat.two_mul]
      exact Nat.pow_le_pow_right two_pos f.two_mul_fracBits_le
    rw [hunits] at hmid hlt
    nlinarith
  · by_contra! hb
    have hinf := f.two_pow_le_unitsOfBits_infBits
    have hmono := f.unitsOfBits_strictMono.monotone hb
    have hb0 : 0 < b := (Nat.zero_lt_of_lt (f.lt_infBits f.bias_lt_emax (Nat.two_pow_pos _))).trans_le hb
    have hmid := hlow 0 hb0
    rw [f.unitsOfBits_zero, Nat.add_zero] at hmid
    rw [pow_add] at hinf
    nlinarith

end RootRange

/-! ## The classes of patterns by their magnitude bits (R171) -/

section Classes

variable (f : Fmt) (v : Word)

/-- Magnitude bits are exponent field and fraction as one number. -/
theorem Fmt.bits_eq : v.toNat % 2 ^ (f.width - 1) = 2 ^ f.fracBits * f.expField v + f.fracField v := by
  have hwidth : 2 ^ (f.width - 1) = 2 ^ f.fracBits * 2 ^ f.expBits := by rw [f.width_eq, Nat.add_sub_cancel, pow_add]
  rw [hwidth, Nat.mod_mul, Nat.add_comm, Fmt.expField, Fmt.fracField]

theorem Fmt.isNaN_iff : f.isNaN v = true ↔ f.infBits < v.toNat % 2 ^ (f.width - 1) := by
  have hfrac := f.fracField_lt v
  rw [Fmt.isNaN, Bool.and_eq_true, beq_iff_eq, bne_iff_ne, f.bits_eq]
  rcases (f.expField_le v).lt_or_eq with hexp | hexp
  · simp [hexp.ne, (f.lt_infBits hexp hfrac).le]
  · simp [hexp, Fmt.infBits, Nat.mul_comm, Nat.pos_iff_ne_zero]

theorem Fmt.isInf_iff : f.isInf v = true ↔ v.toNat % 2 ^ (f.width - 1) = f.infBits := by
  have hfrac := f.fracField_lt v
  rw [Fmt.isInf, Bool.and_eq_true, beq_iff_eq, beq_iff_eq, f.bits_eq]
  rcases (f.expField_le v).lt_or_eq with hexp | hexp
  · simp [hexp.ne, (f.lt_infBits hexp hfrac).ne]
  · simp [hexp, Fmt.infBits, Nat.mul_comm]

theorem Fmt.isZero_iff : f.isZero v = true ↔ v.toNat % 2 ^ (f.width - 1) = 0 := by
  rw [Fmt.isZero, Bool.and_eq_true, beq_iff_eq, beq_iff_eq, f.bits_eq]
  simp

end Classes

/-- A pattern that is neither a NaN nor infinite has a magnitude of the format below infinity. -/
theorem Fmt.bits_lt_infBits {f : Fmt} {v : Word} (hnan : f.isNaN v = false) (hinf : f.isInf v = false) :
    v.toNat % 2 ^ (f.width - 1) < f.infBits := by
  rw [← Bool.not_eq_true, f.isNaN_iff] at hnan
  rw [← Bool.not_eq_true, f.isInf_iff] at hinf
  omega

theorem Fmt.units_lt_of_finite {f : Fmt} {a : Word} (hnan : f.isNaN a = false) (hinf : f.isInf a = false) :
    f.units a < f.unitsOfBits f.infBits :=
  f.units_eq_unitsOfBits a ▸ f.unitsOfBits_strictMono (Fmt.bits_lt_infBits hnan hinf)

/-- Settles O55: the operand is not 0 and below infinity, which keeps its root among the normal numbers. -/
theorem squareRootRounding : Obligations.SquareRootRounding := by
  intro f a hnan hinf hzero hsign
  obtain ⟨b, hb, hround⟩ := f.exists_roundSqrt (f.units a * 2 ^ f.unitExp)
  have hpos : 0 < f.units a := by
    rw [f.units_eq_unitsOfBits, ← f.unitsOfBits_zero]
    refine f.unitsOfBits_strictMono (Nat.pos_of_ne_zero fun h => ?_)
    rw [(f.isZero_iff a).2 h] at hzero
    cases hzero
  obtain ⟨hnormal, hlt⟩ := hround.normal hpos (Fmt.units_lt_of_finite hnan hinf)
  rw [min_eq_left hlt.le] at hb
  refine ⟨b, ?_, hnormal, hlt, fun c _ => ?_⟩
  · simp [fsqrtVal, hnan, hzero, hsign, hinf, hb]
  · obtain ⟨hlow, hhigh, htie⟩ := hround.four_mul
    refine ⟨fun hc => ?_, fun hc => ?_⟩
    · exact (hlow c hc).lt_or_eq.imp_right fun heq => ⟨heq, htie c hc.ne heq⟩
    · exact (hhigh c hc).lt_or_eq.imp_right fun heq => ⟨heq, htie c hc.ne' heq.symm⟩

end Sys2Proof

/-! # Patterns, comparisons and the cases of the primitives

Each class of patterns is a range of magnitude bits; a pattern of the format is its sign and these bits. -/

namespace Sys2Proof

/-! ## Patterns and their fields (R22, R171) -/

section Patterns

variable (f : Fmt) (v : Word)

theorem Fmt.two_pow_width : 2 ^ f.width = 2 * 2 ^ (f.width - 1) := by cases f <;> rfl

theorem Fmt.pattern_of_lt {f : Fmt} {v : Word} (h : v.toNat < 2 ^ f.width) : f.pattern v = v :=
  BitVec.eq_of_toNat_eq (by rw [f.pattern_toNat, Nat.mod_eq_of_lt h])

@[simp] theorem Fmt.pattern_pattern : f.pattern (f.pattern v) = f.pattern v := Fmt.pattern_of_lt (f.pattern_lt v)

@[simp] theorem Fmt.sign_pattern : f.sign (f.pattern v) = f.sign v := by
  have hlt : f.width - 1 < f.width := by have := f.width_eq; omega
  rw [Fmt.sign, Fmt.sign, ← BitVec.testBit_toNat, ← BitVec.testBit_toNat, f.pattern_toNat, Nat.testBit_mod_two_pow,
    decide_eq_true hlt, Bool.true_and]

@[simp] theorem Fmt.fracField_pattern : f.fracField (f.pattern v) = f.fracField v := by
  have hdvd : 2 ^ f.fracBits ∣ 2 ^ f.width := pow_dvd_pow 2 (by have := f.width_eq; omega)
  rw [Fmt.fracField, f.pattern_toNat, Nat.mod_mod_of_dvd _ hdvd, Fmt.fracField]

@[simp] theorem Fmt.expField_pattern : f.expField (f.pattern v) = f.expField v := by
  have hwidth : 2 ^ f.width = 2 ^ f.fracBits * (2 ^ f.expBits * 2) := by rw [f.width_eq, pow_succ, pow_add, mul_assoc]
  rw [Fmt.expField, f.pattern_toNat, hwidth, Nat.mod_mul_right_div_self, Nat.mod_mod_of_dvd _ (Dvd.intro _ rfl), Fmt.expField]

/-! So every reading of a container is one of its pattern. -/

@[simp] theorem Fmt.isNaN_pattern : f.isNaN (f.pattern v) = f.isNaN v := by simp [Fmt.isNaN]

@[simp] theorem Fmt.isInf_pattern : f.isInf (f.pattern v) = f.isInf v := by simp [Fmt.isInf]

@[simp] theorem Fmt.isZero_pattern : f.isZero (f.pattern v) = f.isZero v := by simp [Fmt.isZero]

@[simp] theorem Fmt.units_pattern : f.units (f.pattern v) = f.units v := by simp [Fmt.units]

@[simp] theorem Fmt.value_pattern : f.value (f.pattern v) = f.value v := by simp [Fmt.value]

/-- A pattern of the format is its sign and its magnitude bits. -/
theorem Fmt.pack_sign_bits {f : Fmt} {v : Word} (h : v.toNat < 2 ^ f.width) :
    f.pack (f.sign v) (v.toNat % 2 ^ (f.width - 1)) = v := by
  refine BitVec.eq_of_toNat_eq ?_
  have hsplit := Nat.div_add_mod v.toNat (2 ^ (f.width - 1))
  have hbit : v.toNat / 2 ^ (f.width - 1) < 2 := Nat.div_lt_of_lt_mul (by rw [Nat.mul_comm, ← f.two_pow_width]; exact h)
  rw [f.pack_toNat _ (Nat.mod_lt _ (Nat.two_pow_pos _)), Fmt.sign, ← BitVec.testBit_toNat, Nat.testBit_eq_decide_div_mod_eq,
    Nat.mod_eq_of_lt hbit]
  obtain h0 | h1 := Nat.le_one_iff_eq_zero_or_eq_one.1 (Nat.le_of_lt_succ hbit)
  · simp only [h0] at hsplit ⊢
    simpa using hsplit
  · simp only [h1] at hsplit ⊢
    simpa using hsplit

end Patterns

/-! ## Primitives see patterns and write patterns (R170) -/

/-! The definitions read an operand through its sign and fields only, and another record gets the pattern itself. -/

section Operands

variable (p : Primitives) (f : Fmt) (a b : Word)

theorem Primitives.fadd_pattern : p.fadd f (f.pattern a) (f.pattern b) = p.fadd f a b := by
  cases p <;> simp [Primitives.fadd, faddVal]

theorem Primitives.fmul_pattern : p.fmul f (f.pattern a) (f.pattern b) = p.fmul f a b := by
  cases p <;> simp [Primitives.fmul, fmulVal]

theorem Primitives.fdiv_pattern : p.fdiv f (f.pattern a) (f.pattern b) = p.fdiv f a b := by
  cases p <;> simp [Primitives.fdiv, fdivVal]

theorem Primitives.fsqrt_pattern : p.fsqrt f (f.pattern a) = p.fsqrt f a := by
  cases p <;> simp [Primitives.fsqrt, fsqrtVal]

end Operands

/-- A NaN of the format is what it makes as a draw. -/
theorem Fmt.nanOf_self {f : Fmt} {w : Word} (hw : w.toNat < 2 ^ f.width) (hnan : f.isNaN w = true) : f.nanOf w = w := by
  obtain ⟨hexp, hfrac⟩ : f.expField w = f.emax ∧ f.fracField w ≠ 0 := by simpa [Fmt.isNaN] using hnan
  have hbits := f.bits_eq w
  rw [hexp, Nat.mul_comm] at hbits
  rw [Fmt.nanOf, if_neg hfrac, Fmt.infBits, ← hbits, Fmt.pack_sign_bits hw]

/-- Settles O59: a primitive reads the fields of a pattern only, and a NaN is its own draw. -/
theorem nanResults : Obligations.NanResults := by
  refine ⟨rfl, fun p f a b => ?_, fun f => ⟨fun raw => ⟨f.isNaN_nanOf raw, f.nanOf_lt raw⟩,
    fun w hw hnan => ⟨w, Fmt.nanOf_self hw hnan⟩, fun draws => ⟨rfl, f.isNaN_nanOf _, fun w => settle_some f w draws⟩⟩⟩
  refine ⟨(p.fadd_pattern f a b).symm, (p.fmul_pattern f a b).symm, (p.fdiv_pattern f a b).symm, (p.fsqrt_pattern f a).symm,
    fun w hw => ?_⟩
  simp only [List.mem_cons, List.not_mem_nil, or_false] at hw
  rcases hw with hadd | hmul | hdiv | hsqrt
  · exact Primitives.fadd_lt hadd.symm
  · exact Primitives.fmul_lt hmul.symm
  · exact Primitives.fdiv_lt hdiv.symm
  · exact Primitives.fsqrt_lt hsqrt.symm

/-! ## Comparisons (R178) -/

section Comparisons

variable {f : Fmt} {a b : Word}

/-- `fabs` leaves the magnitude bits. -/
theorem fabs_toNat (h : a.toNat < 2 ^ f.width) : (fabs f a).toNat = a.toNat % 2 ^ (f.width - 1) := by
  refine Nat.eq_of_testBit_eq fun i => ?_
  rw [BitVec.testBit_toNat, fabs_getLsbD, Nat.testBit_mod_two_pow, BitVec.testBit_toNat, Bool.and_comm]
  rcases Nat.lt_trichotomy i (f.width - 1) with hlt | heq | hgt
  · simp [hlt, hlt.ne]
  · simp [heq]
  · have hbit : a.getLsbD i = false :=
      Nat.testBit_lt_two_pow (h.trans_le (Nat.pow_le_pow_right two_pos (Nat.le_of_pred_lt hgt)))
    simp [hbit]

theorem Fmt.value_of_sign_true (h : f.sign a = true) : f.value a = -(f.units a : Int) := if_pos h

theorem Fmt.units_of_isInf (h : f.isInf b = true) : f.units b = f.unitsOfBits f.infBits := by
  rw [f.units_eq_unitsOfBits, (f.isInf_iff b).1 h]

theorem Fmt.unitsOfBits_infBits_pos (f : Fmt) : 0 < f.unitsOfBits f.infBits :=
  (Nat.two_pow_pos _).trans_le f.two_pow_le_unitsOfBits_infBits

/-- What is no NaN is the infinity of a sign, or lies before it on its side. -/
theorem Fmt.value_lt_posInf (hnan : f.isNaN a = false) (hb : f.isInf b = true) (hsign : f.sign b = false) :
    (f.isInf a = true ∧ f.sign a = false) ∨ f.value a < f.value b := by
  have hpos := f.unitsOfBits_infBits_pos
  rw [Fmt.value_of_sign_false hsign, Fmt.units_of_isInf hb]
  cases ha : f.sign a with
  | true => rw [Fmt.value_of_sign_true ha]; omega
  | false =>
    rw [Fmt.value_of_sign_false ha]
    exact (Bool.eq_false_or_eq_true (f.isInf a)).imp (⟨·, rfl⟩) fun hinf => Int.ofNat_lt.2 (Fmt.units_lt_of_finite hnan hinf)

theorem Fmt.negInf_lt_value (hnan : f.isNaN a = false) (hb : f.isInf b = true) (hsign : f.sign b = true) :
    (f.isInf a = true ∧ f.sign a = true) ∨ f.value b < f.value a := by
  have hpos := f.unitsOfBits_infBits_pos
  rw [Fmt.value_of_sign_true hsign, Fmt.units_of_isInf hb]
  cases ha : f.sign a with
  | true =>
    rw [Fmt.value_of_sign_true ha]
    exact (Bool.eq_false_or_eq_true (f.isInf a)).imp (⟨·, rfl⟩) fun hinf =>
      Int.neg_lt_neg (Int.ofNat_lt.2 (Fmt.units_lt_of_finite hnan hinf))
  | false => rw [Fmt.value_of_sign_false ha]; omega

/-- A pattern that is not negative is the number of its magnitude. -/
theorem Fmt.value_of_nonneg (h : a.toNat < 2 ^ f.width) (hsign : f.sign a = false) : f.value a = f.unitsOfBits a.toNat := by
  rw [Fmt.value_of_sign_false hsign, f.units_eq_unitsOfBits, Nat.mod_eq_of_lt (Machine.toNat_lt_of_sign_false h hsign)]

section NotNaN

variable (ha : f.isNaN a = false) (hb : f.isNaN b = false)
include ha hb

theorem feq_iff_of_not_nan : feq f a b = true ↔ (f.isZero a = true ∧ f.isZero b = true) ∨ f.pattern a = f.pattern b := by
  simp [feq, ha, hb]

theorem flt_iff_of_not_nan : flt f a b = true ↔ f.value a < f.value b := by simp [flt, ha, hb]

theorem fle_iff_of_not_nan : fle f a b = true ↔ f.value a ≤ f.value b := by simp [fle, ha, hb]

end NotNaN

theorem comparisons_of_nan (h : f.isNaN a = true ∨ f.isNaN b = true) :
    feq f a b = false ∧ flt f a b = false ∧ fle f a b = false := by
  rcases h with h | h <;> simp [feq, flt, fle, h]

end Comparisons

/-- Settles O60: magnitudes are in the order of their bits, with those of infinity last. -/
theorem comparisons : Obligations.Comparisons := by
  intro f a b ha hb
  refine ⟨fabs_toNat ha, comparisons_of_nan, fun hna hnb => ⟨?_, flt_iff_of_not_nan hna hnb, fle_iff_of_not_nan hna hnb,
    Fmt.value_lt_posInf hna, Fmt.negInf_lt_value hna, fun hsa hsb => ?_⟩⟩
  · rw [feq_iff_of_not_nan hna hnb, Fmt.pattern_of_lt ha, Fmt.pattern_of_lt hb]
  · rw [flt_iff_of_not_nan hna hnb, Fmt.value_of_nonneg ha hsa, Fmt.value_of_nonneg hb hsb, Int.ofNat_lt,
      f.unitsOfBits_strictMono.lt_iff_lt]

/-! ## A NaN operand makes a NaN (R173 to R175, R177) -/

section NaNOperand

variable {f : Fmt} {a : Word} (h : f.isNaN a = true)
include h

theorem faddVal_of_nan_left (b : Word) : faddVal f a b = none := by simp [faddVal, h]

theorem faddVal_of_nan_right (b : Word) : faddVal f b a = none := by simp [faddVal, h]

theorem fmulVal_of_nan_left (b : Word) : fmulVal f a b = none := by simp [fmulVal, h]

theorem fmulVal_of_nan_right (b : Word) : fmulVal f b a = none := by simp [fmulVal, h]

theorem fdivVal_of_nan_left (b : Word) : fdivVal f a b = none := by simp [fdivVal, h]

theorem fdivVal_of_nan_right (b : Word) : fdivVal f b a = none := by simp [fdivVal, h]

theorem fsqrtVal_of_nan : fsqrtVal f a = none := by simp [fsqrtVal, h]

end NaNOperand

/-! ## The cases of the primitives (R173 to R175, R177) -/

section Cases

variable {f : Fmt} {a b : Word}

/-! The classes exclude each other. -/

theorem Fmt.isNaN_of_isInf (h : f.isInf a = true) : f.isNaN a = false := by
  rw [← Bool.not_eq_true, f.isNaN_iff, (f.isInf_iff a).1 h]
  exact lt_irrefl _

theorem Fmt.isInf_of_isZero (h : f.isZero a = true) : f.isInf a = false := by
  have hinf := f.lt_infBits f.bias_lt_emax (Nat.two_pow_pos _)
  rw [← Bool.not_eq_true, f.isInf_iff, (f.isZero_iff a).1 h]
  omega

theorem Fmt.isNaN_of_isZero (h : f.isZero a = true) : f.isNaN a = false := by
  rw [← Bool.not_eq_true, f.isNaN_iff, (f.isZero_iff a).1 h]
  exact Nat.not_lt_zero _

theorem Fmt.isZero_of_isInf (h : f.isInf a = true) : f.isZero a = false :=
  Bool.eq_false_iff.2 fun hzero => Bool.false_ne_true ((Fmt.isInf_of_isZero hzero).symm.trans h)

end Cases

/-- Settles O56: in each case the classes of the operands decide the tests of the definitions, since they exclude each other. -/
theorem primitiveCases : Obligations.PrimitiveCases := by
  intro f a b add mul div sqrt s finite
  simp only [add, mul, div, sqrt, s, finite, Primitives.fadd_ieee, Primitives.fmul_ieee, Primitives.fdiv_ieee,
    Primitives.fsqrt_ieee]
  refine ⟨?nan, ?infInf, ?infFinite, ?finiteInf, ?zeroZero, ?sum, ?zeroOther, ?otherZero, ?otherOther, ?sqrtNaN, ?sqrtZero,
    ?sqrtNegative, ?sqrtInf⟩
  case nan =>
    rintro (h | h)
    · exact ⟨faddVal_of_nan_left h b, fmulVal_of_nan_left h b, fdivVal_of_nan_left h b⟩
    · exact ⟨faddVal_of_nan_right h a, fmulVal_of_nan_right h a, fdivVal_of_nan_right h a⟩
  case infInf =>
    intro ha hb
    simp [faddVal, fmulVal, fdivVal, ha, hb, Fmt.isNaN_of_isInf, Fmt.isZero_of_isInf]
  case infFinite =>
    rintro ha ⟨hnb, hb⟩
    simp [faddVal, fmulVal, fdivVal, ha, hnb, hb, Fmt.isNaN_of_isInf, Fmt.isZero_of_isInf]
  case finiteInf =>
    rintro ⟨hna, ha⟩ hb
    simp [faddVal, fmulVal, fdivVal, ha, hna, hb, Fmt.isNaN_of_isInf, Fmt.isZero_of_isInf]
  case zeroZero =>
    intro ha hb
    simp [faddVal, fmulVal, fdivVal, ha, hb, Fmt.isNaN_of_isZero, Fmt.isInf_of_isZero]
  case sum =>
    rintro ⟨hna, ha⟩ ⟨hnb, hb⟩ hzero
    have hzero : (f.isZero a && f.isZero b) = false := Bool.and_eq_false_iff.2 hzero
    simp [faddVal, hna, ha, hnb, hb, hzero]
  case zeroOther =>
    rintro ha ⟨hnb, hb⟩ hzb
    simp [fmulVal, fdivVal, ha, hnb, hb, hzb, Fmt.isNaN_of_isZero, Fmt.isInf_of_isZero]
  case otherZero =>
    rintro ⟨hna, ha⟩ hza hb
    simp [fmulVal, fdivVal, hna, ha, hza, hb, Fmt.isNaN_of_isZero, Fmt.isInf_of_isZero]
  case otherOther =>
    rintro ⟨hna, ha⟩ ⟨hnb, hb⟩ hza hzb
    simp [fmulVal, fdivVal, hna, ha, hnb, hb, hza, hzb]
  case sqrtNaN => exact fsqrtVal_of_nan
  case sqrtZero => exact fun h => by simp [fsqrtVal, h, Fmt.isNaN_of_isZero]
  case sqrtNegative => exact fun hn hz hs => by simp [fsqrtVal, hn, hz, hs]
  case sqrtInf => exact fun h hs => by simp [fsqrtVal, h, hs, Fmt.isNaN_of_isInf, Fmt.isZero_of_isInf]

/-! ## Small integers (R179) -/

/-- An integer of at most `p + 1` bits is a magnitude of the format: its bits, shifted to `p + 1` of them, in the binade that
makes up for the shift. -/
theorem Fmt.exists_bits_of_integer (f : Fmt) {n : Nat} (hpos : 1 ≤ n) (hn : n < 2 ^ (f.fracBits + 1)) :
    ∃ mag < f.infBits, f.unitsOfBits mag = n * 2 ^ f.unitExp := by
  have hlog : Nat.log2 n ≤ f.fracBits := Nat.lt_succ_iff.1 ((Nat.log2_lt (by omega)).2 hn)
  obtain ⟨shift, hshift⟩ := Nat.exists_eq_add_of_le hlog
  obtain ⟨k, hk⟩ : ∃ k, f.unitExp = shift + k := Nat.exists_eq_add_of_le (by have := f.two_mul_fracBits_le; omega)
  have hlow : 2 ^ f.fracBits ≤ n * 2 ^ shift := by
    rw [hshift, pow_add]
    exact Nat.mul_le_mul_right _ (Nat.log2_self_le (by omega))
  have hhigh : n * 2 ^ shift < 2 ^ (f.fracBits + 1) := by
    rw [hshift, Nat.add_right_comm, pow_add]
    exact Nat.mul_lt_mul_of_pos_right Nat.lt_log2_self (Nat.two_pow_pos _)
  refine ⟨k * 2 ^ f.fracBits + n * 2 ^ shift, ?_, ?_⟩
  · have hexp : k + 2 ≤ f.emax := by
      have : f.unitExp + 2 ≤ f.emax := by cases f <;> decide
      omega
    calc k * 2 ^ f.fracBits + n * 2 ^ shift < k * 2 ^ f.fracBits + 2 ^ (f.fracBits + 1) := Nat.add_lt_add_left hhigh _
      _ = (k + 2) * 2 ^ f.fracBits := by ring
      _ ≤ f.infBits := Nat.mul_le_mul_right _ hexp
  · rw [Fmt.unitsOfBits_binade (.inr hlow) hhigh.le, hk, pow_add, Nat.mul_assoc]

/-- So `cvt` does not round it. -/
theorem value_cvt (f : Fmt) {n : Nat} (hpos : 1 ≤ n) (hn : n < 2 ^ (f.fracBits + 1)) :
    f.value (cvt f n) = (n : Int) * 2 ^ f.unitExp := by
  obtain ⟨mag, hmag, hunits⟩ := f.exists_bits_of_integer hpos hn
  rw [cvt, ← hunits, Fmt.roundRatio_unitsOfBits hmag.le, Fmt.value_pack hmag, if_neg Bool.false_ne_true, hunits]
  push_cast
  rfl

/-- Settles O58: the table by evaluation, its exactness for every integer of that size. -/
theorem reciprocalTable : Obligations.ReciprocalTable := by
  refine ⟨by decide +kernel, by decide +kernel, by decide +kernel, fun f n hpos hn => value_cvt f hpos ?_⟩
  have : 16 < 2 ^ (f.fracBits + 1) := by cases f <;> decide
  omega

end Sys2Proof

/-! # Folds of primitives over vectors

The draws a command uses do not matter to what its result must be: a loop of settled results is a run of the relation that the
claims write out, and in the default primitives a run follows the closed form because a NaN operand makes every result a NaN. -/

namespace Sys2Proof.Machine

section Results

variable {f : Fmt} {o : Option Word} {v w : Word}

/-- A result that is made of a result: where the first is a NaN, so is the second. -/
theorem holdsResult_bind {g : Word → Option Word} (hnan : ∀ a, f.isNaN a = true → g a = none) (hv : holdsResult f o v)
    (hw : holdsResult f (g v) w) : holdsResult f (o >>= g) w := by
  cases o with
  | some a =>
    obtain rfl : v = a := hv
    exact hw
  | none =>
    obtain ⟨hv, -⟩ := hv
    rwa [hnan v hv] at hw

end Results

/-! ## Runs -/

section Runs

variable {α : Type} {R : Word → α → Word → Prop} {l : List α} {acc w : Word}

/-- A running result goes from `acc` to `w` along a list, one step of `R` for each element. -/
inductive Runs (R : Word → α → Word → Prop) : List α → Word → Word → Prop
  | nil (acc : Word) : Runs R [] acc acc
  | cons {a : α} {l : List α} {acc next w : Word} (h : R acc a next) (hl : Runs R l next w) : Runs R (a :: l) acc w

/-- The running results in order, the first being `acc`. -/
theorem Runs.exists_sums (h : Runs R l acc w) : ∃ sums : Nat → Word, sums 0 = acc ∧ sums l.length = w ∧
    ∀ (j : Nat) (hj : j < l.length), R (sums j) l[j] (sums (j + 1)) := by
  induction h with
  | nil acc => exact ⟨fun _ => acc, rfl, rfl, nofun⟩
  | @cons a l acc next w hR hl ih =>
    obtain ⟨sums, rfl, hlast, hstep⟩ := ih
    refine ⟨fun | 0 => acc | j + 1 => sums j, rfl, hlast, fun j hj => ?_⟩
    cases j with
    | zero => exact hR
    | succ j => exact hstep j (Nat.lt_of_succ_lt_succ hj)

/-- A run whose steps are those of a fold of primitives holds the fold's result: a NaN on the way stays one. -/
theorem Runs.holdsResult_foldlM {f : Fmt} {step : Word → α → Option Word} (hnan : ∀ acc a, f.isNaN acc = true → step acc a = none)
    (hstep : ∀ acc a next, R acc a next → holdsResult f (step acc a) next) (h : Runs R l acc w) :
    ∀ o, holdsResult f o acc → holdsResult f (o >>= l.foldlM step) w := by
  induction h with
  | nil acc =>
    intro o ho
    simpa using ho
  | @cons a l acc next w hR hl ih =>
    intro o ho
    have hnext : holdsResult f (o >>= (step · a)) next := holdsResult_bind (hnan · a) ho (hstep acc a next hR)
    simp only [List.foldlM_cons, ← bind_assoc]
    exact ih _ hnext

end Runs

/-! ## Dot products (R212, R215) -/

/-- One term of a dot product: a product, and its sum with the running result. -/
def DotStep (p : Primitives) (f : Fmt) (acc : Word) (ab : Word × Word) (next : Word) : Prop :=
  ∃ product : Word, holdsResult f (p.fmul f ab.1 ab.2) product ∧ holdsResult f (p.fadd f acc product) next

section Dot

variable {p : Primitives} {f : Fmt} {as bs : List Word} {acc w : Word}

theorem dotFrom_runs (p : Primitives) (f : Fmt) (as bs : List Word) (acc : Word) (k : Nat) :
    Runs (DotStep p f) (as.zip bs) acc (dotFrom p f as bs acc k).1 := by
  induction as generalizing bs acc k with
  | nil => exact .nil acc
  | cons a as ih =>
    cases bs with
    | nil => exact .nil acc
    | cons b bs => exact .cons ⟨_, holdsResult_settle .., holdsResult_settle ..⟩ (ih ..)

/-- Such a run is a dot product as the claims say it. -/
theorem Runs.holdsDot (h : Runs (DotStep p f) (as.zip bs) (f.zero false) w) (hlen : as.length = bs.length) :
    holdsDot p f as bs w := by
  obtain ⟨sums, hfirst, hlast, hstep⟩ := h.exists_sums
  rw [List.length_zip, ← hlen, Nat.min_self] at hlast
  refine ⟨sums, hfirst, hlast, fun j hj => ?_⟩
  obtain ⟨product, hproduct, hsum⟩ := hstep j (by rwa [List.length_zip, ← hlen, Nat.min_self])
  rw [List.getElem_zip] at hproduct
  rw [List.getD_eq_getElem _ _ hj, List.getD_eq_getElem _ _ (hlen ▸ hj)]
  exact ⟨product, hproduct, hsum⟩

/-- In the default primitives it holds the closed form. -/
theorem Runs.holdsResult_dotValue (h : Runs (DotStep .ieee f) (as.zip bs) (f.zero false) w) :
    holdsResult f (dotValue f as bs) w := by
  refine h.holdsResult_foldlM (fun acc ab hacc => ?_) (fun acc ab next hstep => ?_) (some _) rfl
  · simp [faddVal_of_nan_left hacc]
  · obtain ⟨product, hproduct, hsum⟩ := hstep
    exact holdsResult_bind (fun _ hnan => faddVal_of_nan_right hnan acc) hproduct hsum

theorem dotOf_holds (p : Primitives) (f : Fmt) (hlen : as.length = bs.length) (k : Nat) :
    holdsDot p f as bs (dotOf p f as bs k).1 :=
  (dotFrom_runs p f as bs _ k).holdsDot hlen

theorem dotOf_holdsResult (hp : p = .ieee) (f : Fmt) (as bs : List Word) (k : Nat) :
    holdsResult f (dotValue f as bs) (dotOf p f as bs k).1 :=
  hp ▸ (dotFrom_runs .ieee f as bs _ k).holdsResult_dotValue

/-! ## Norms and cosines (R211, R213) -/

theorem normOf_holds (p : Primitives) (f : Fmt) (as : List Word) (k : Nat) : holdsNorm p f as (normOf p f as k).1 :=
  ⟨_, dotOf_holds p f rfl k, holdsResult_settle ..⟩

theorem normOf_holdsResult (hp : p = .ieee) (f : Fmt) (as : List Word) (k : Nat) :
    holdsResult f (normValue f as) (normOf p f as k).1 := by
  subst hp
  exact holdsResult_bind (fun _ => fsqrtVal_of_nan) (dotOf_holdsResult rfl f as as k) (holdsResult_settle ..)

theorem cosOf_holds (p : Primitives) (f : Fmt) (hlen : as.length = bs.length) (k : Nat) :
    holdsCos p f as bs (cosOf p f as bs k).1 :=
  ⟨_, _, _, _, dotOf_holds p f hlen k, normOf_holds .., normOf_holds .., holdsResult_settle .., holdsResult_settle ..⟩

theorem cosOf_holdsResult (hp : p = .ieee) (f : Fmt) (as bs : List Word) (k : Nat) :
    holdsResult f (cosValue f as bs) (cosOf p f as bs k).1 := by
  subst hp
  refine holdsResult_bind (fun d hd => ?_) (dotOf_holdsResult rfl f as bs k) <|
    holdsResult_bind (fun na hna => ?_) (normOf_holdsResult rfl ..) <|
    holdsResult_bind (fun nb hnb => ?_) (normOf_holdsResult rfl ..) <|
    holdsResult_bind (fun _ hnan => fdivVal_of_nan_right hnan _) (holdsResult_settle ..) (holdsResult_settle ..)
  · simp [fdivVal_of_nan_left hd]
  · simp [fmulVal_of_nan_left hna]
  · simp [fmulVal_of_nan_right hnb]

end Dot

/-- Settles O47: the operand checks pass, and the loops are runs. -/
theorem normDotCosineComplete : Obligations.NormDotCosineComplete := by
  intro s rd vs1 vs2 a ha p after
  refine ⟨⟨_, _, finish_bind_ok (vecOperand_some ha) rfl, normOf_holds .., (normOf_holdsResult · ..)⟩, fun b hb hfmt hlen => ?_⟩
  have hread := compatibleVecs_eq_ok.2 ⟨ha, hb, hfmt, hlen⟩
  exact ⟨⟨_, _, finish_bind_ok hread rfl, dotOf_holds _ _ hlen _, (dotOf_holdsResult · ..)⟩,
    ⟨_, _, finish_bind_ok hread rfl, cosOf_holds _ _ hlen _, (cosOf_holdsResult · ..)⟩⟩

/-! ## Equality (R216) -/

section Equality

variable {s : State} {rd : SReg} {vs1 vs2 : VReg} {a b : VecReg}

theorem vecsOfOneFormat_fmtmis (ha : s.getV vs1 = some a) (hb : s.getV vs2 = some b) (hfmt : a.fmt ≠ b.fmt) :
    s.vecsOfOneFormat vs1 vs2 = raise .fmtmis := by
  rw [State.vecsOfOneFormat, vecOperand_some ha, bind_ok_eq, vecOperand_some hb, bind_ok_eq, if_pos hfmt]

/-- Elements are equal by `feq` or, under `VEQ_BITWISE`, as patterns. -/
theorem elemEq_iff (bitwise : Bool) (f : Fmt) (v w : Word) :
    elemEq bitwise f v w = true ↔ if bitwise then v = w else feq f v w = true := by
  cases bitwise <;> simp [elemEq]

theorem allElemEq_iff (bitwise : Bool) (f : Fmt) {as bs : List Word} (hlen : as.length = bs.length) :
    allElemEq bitwise f as bs = true ↔ ∀ j < as.length, elemEq bitwise f (as.getD j 0) (bs.getD j 0) = true := by
  induction as generalizing bs with
  | nil => simp [allElemEq]
  | cons a as ih =>
    cases bs with
    | nil => cases hlen
    | cons b bs =>
      rw [allElemEq, Bool.and_eq_true, ih (Nat.succ.inj hlen), List.length_cons, Nat.forall_lt_succ_left]
      exact Iff.rfl

/-- `VEQ` on one format writes whether lengths and elements are equal. -/
theorem exec_veq (ha : s.v[vs1] = some a) (hb : s.v[vs2] = some b) (hfmt : a.fmt = b.fmt) (rd : SReg) :
    exec (.veq rd vs1 vs2) s = .next ({ s with
      x := s.x.set rd (if a.len == b.len && allElemEq s.params.veqBitwise a.fmt a.elems b.elems then 1 else 0) }.afterOk 0) :=
  finish_bind_ok (vecsOfOneFormat_eq_ok.2 ⟨ha, hb, hfmt⟩) rfl

end Equality

/-- Settles O49: the checks are those of validity and format, and the lengths take part in the answer. -/
theorem equalityCompletes : Obligations.EqualityCompletes := by
  intro s rd vs1 vs2
  refine ⟨fun h => finish_bind_raise (vecsOfOneFormat_invalid h) .., fun a b ha hb => ⟨fun hfmt => ?format,
    fun hfmt hlen => ?lengths, fun hfmt hlen => ?elements⟩⟩
  case format => exact finish_bind_raise (vecsOfOneFormat_fmtmis ha hb hfmt) ..
  case lengths => rw [exec_veq ha hb hfmt, beq_false_of_ne hlen, Bool.false_and, if_neg Bool.false_ne_true]
  case elements =>
    refine ⟨_, exec_veq ha hb hfmt rd, ?_⟩
    have hall := allElemEq_iff s.params.veqBitwise a.fmt hlen
    simp only [elemEq_iff] at hall
    rw [beq_iff_eq.2 hlen, Bool.true_and]
    split
    · next h => exact ⟨.inr rfl, iff_of_true rfl (hall.1 h)⟩
    · next h => exact ⟨.inl rfl, iff_of_false (by decide) fun hj => h (hall.2 hj)⟩

/-! ## Means (R221) -/

/-- One term of a mean's sum: a member's element `j` is added to the running result. -/
def SumStep (p : Primitives) (f : Fmt) (j : Nat) (acc : Word) (m : VecReg) (next : Word) : Prop :=
  holdsResult f (p.fadd f acc (m.elems.getD j 0)) next

/-- `w` is `r` times the sum of the members' elements `j`. -/
def ScaledSum (p : Primitives) (f : Fmt) (ms : List VecReg) (r : Word) (j : Nat) (w : Word) : Prop :=
  ∃ sum : Word, Runs (SumStep p f j) ms (f.zero false) sum ∧ holdsResult f (p.fmul f sum r) w

section Means

variable {p : Primitives} {f : Fmt} {ms : List VecReg} {r w : Word} {n : Nat}

theorem sumAt_runs (p : Primitives) (f : Fmt) (j : Nat) (ms : List VecReg) (acc : Word) (k : Nat) :
    Runs (SumStep p f j) ms acc (sumAt p f j (ms.map VecReg.elems) acc k).1 := by
  induction ms generalizing acc k with
  | nil => exact .nil acc
  | cons m ms ih => exact .cons (holdsResult_settle ..) (ih ..)

theorem sumsFrom_getD (p : Primitives) (f : Fmt) (ms : List VecReg) (n j k : Nat) : ∀ i < n,
    Runs (SumStep p f (j + i)) ms (f.zero false) ((sumsFrom p f (ms.map VecReg.elems) n j k).1.getD i 0) := by
  induction n generalizing j k with
  | zero => nofun
  | succ n ih =>
    intro i hi
    cases i with
    | zero => exact sumAt_runs p f j ms _ k
    | succ i =>
      rw [Nat.add_comm i 1, ← Nat.add_assoc, Nat.add_comm 1 i]
      exact ih (j + 1) _ i (Nat.lt_of_succ_lt_succ hi)

theorem scaleElems_getD (p : Primitives) (f : Fmt) (r : Word) (as : List Word) (k : Nat) : ∀ i < as.length,
    holdsResult f (p.fmul f (as.getD i 0) r) ((scaleElems p f r as k).1.getD i 0) := by
  induction as generalizing k with
  | nil => nofun
  | cons a as ih =>
    intro i hi
    cases i with
    | zero => exact holdsResult_settle ..
    | succ i => exact ih _ i (Nat.lt_of_succ_lt_succ hi)

/-- All elements are scaled by one reciprocal. -/
theorem aggregate_getD (p : Primitives) (f : Fmt) (ms : List VecReg) (n k : Nat) :
    ∃ r : Word, holdsResult f (p.fdiv f f.one (cvt f ms.length)) r ∧
      ∀ j < n, ScaledSum p f ms r j ((aggregate p f (ms.map VecReg.elems) n k).1.getD j 0) := by
  rw [aggregate, List.length_map]
  refine ⟨_, holdsResult_settle .., fun j hj => ⟨_, ?_, scaleElems_getD _ _ _ _ _ j ?_⟩⟩
  · have h := sumsFrom_getD p f ms n 0 k j hj
    rwa [Nat.zero_add] at h
  · rwa [sumsFrom_length]

theorem ScaledSum.holdsMean {j : Nat} (h : ScaledSum p f ms r j w) : holdsMean p f ms r j w := by
  obtain ⟨sum, hruns, hw⟩ := h
  obtain ⟨sums, hfirst, rfl, hstep⟩ := hruns.exists_sums
  exact ⟨sums, hfirst, hstep, hw⟩

/-- In the default primitives it holds the closed form. -/
theorem ScaledSum.holdsResult_meanValue {j : Nat} (h : ScaledSum .ieee f ms r j w)
    (hr : holdsResult f (fdivVal f f.one (cvt f ms.length)) r) : holdsResult f (meanValue f ms j) w := by
  obtain ⟨sum, hruns, hw⟩ := h
  have hsum := hruns.holdsResult_foldlM (step := fun acc (m : VecReg) => faddVal f acc (m.elems.getD j 0))
    (fun _ _ hnan => faddVal_of_nan_left hnan _) (fun _ _ _ hstep => hstep) (some _) rfl
  refine holdsResult_bind (fun a hnan => ?_) hsum (holdsResult_bind (fun _ hnan => fmulVal_of_nan_right hnan _) hr hw)
  simp [fmulVal_of_nan_left hnan]

end Means

section Collections

variable {s : State} {vd : VReg} {mask : BitVec 16} {ref : VecReg} {ms : List VecReg}

theorem collectionOf_eq (s : State) (mask : BitVec 16) : s.collectionOf mask = (members mask).map s.getV := by
  have hall : List.finRange 16 = allVRegs := by decide
  rw [State.collectionOf, hall]
  rfl

theorem exec_vagg (h : s.collection mask = .ok (ref, ms)) (vd : VReg) :
    let r := aggregate s.params.primitives ref.fmt (ms.map VecReg.elems) ref.len s.nanDraws
    exec (.vagg vd mask) s = .next ({ s with v := s.v.set vd (some ⟨ref.fmt, r.1⟩), nanDraws := r.2 }.afterOk 0) :=
  finish_bind_ok h rfl

theorem exec_vaggi (h : s.collectionFor vd mask = .ok (ref, ms)) :
    let r := aggregate s.params.primitives ref.fmt (ms.map VecReg.elems) ref.len s.nanDraws
    exec (.vaggi vd mask) s = .next ({ s with v := s.v.set vd (some ⟨ref.fmt, r.1⟩), nanDraws := r.2 }.afterOk 0) :=
  finish_bind_ok h rfl

end Collections

/-- Settles O52: the two commands find the same members, and differ in the vector whose format and length these must have. -/
theorem aggregationCompletes : Obligations.AggregationCompletes := by
  intro s vd mask f n ms hne hcoll hms p isMean after
  rw [collectionOf_eq] at hcoll
  have hmean (k : Nat) : isMean (aggregate p f (ms.map VecReg.elems) n k).1 := by
    obtain ⟨r, hr, hscaled⟩ := aggregate_getD p f ms n k
    refine ⟨aggregate_length .., ⟨r, hr, fun j hj => (hscaled j hj).holdsMean⟩, fun hp j hj => ?_⟩
    rw [hp] at hr
    have hj := hscaled j hj
    rw [hp] at hj ⊢
    exact hj.holdsResult_meanValue hr
  refine ⟨?vagg, fun self hout hself hfmt hlen => ?vaggi⟩
  case vagg =>
    obtain ⟨first, rest, rfl⟩ := List.exists_cons_of_ne_nil hne
    obtain ⟨hfmt, hlen⟩ := hms first List.mem_cons_self
    have hread := collection_eq_ok.2 ⟨rfl, hcoll, fun m hm => (hms m hm).1.trans hfmt.symm,
      fun m hm => (hms m hm).2.trans hlen.symm⟩
    have hexec := exec_vagg hread vd
    rw [hfmt, hlen] at hexec
    exact ⟨_, _, hexec, hmean _⟩
  case vaggi =>
    have hmask : mask ≠ 0 := by
      rintro rfl
      rw [members_eq_nil.2 rfl] at hcoll
      exact hne (List.map_eq_nil_iff.1 hcoll.symm)
    have hread := collectionFor_eq_ok.2 ⟨hmask, hout, hself, hcoll, fun m hm => (hms m hm).1.trans hfmt.symm,
      fun m hm => (hms m hm).2.trans hlen.symm⟩
    have hexec := exec_vaggi hread
    rw [hfmt, hlen] at hexec
    exact ⟨_, _, hexec, hmean _⟩

end Sys2Proof.Machine

/-! # Vector sizes, rotations and copies: the statements of family 45_vector_mgmt

The rotations are Mathlib's `List.rotate` by one and its inverse, so a law of `VROTR` is the law of `VROTL` read backwards. -/

namespace Sys2Proof

/-! ## Lists rotated by one (R217, R218) -/

theorem rotlElems_eq_rotate (as : List Word) : rotlElems as = as.rotate 1 := by
  cases as with
  | nil => rfl
  | cons a as => rw [List.rotate_cons_succ, List.rotate_zero, rotlElems]

theorem rotrElems_rotlElems : Function.LeftInverse rotrElems rotlElems := by
  intro as
  cases as with
  | nil => rfl
  | cons a as => simp [rotlElems, rotrElems]

theorem rotlElems_rotrElems : Function.LeftInverse rotlElems rotrElems := by
  intro as
  rcases List.eq_nil_or_concat as with rfl | ⟨init, last, rfl⟩
  · rfl
  · simp [rotlElems, rotrElems]

/-- R217: place `j` takes the element of the next place, and the last place that of place 0. -/
theorem rotlElems_getD (as : List Word) {j : Nat} (hj : j < as.length) :
    (rotlElems as).getD j 0 = as.getD ((j + 1) % as.length) 0 := by
  have hmod : (j + 1) % as.length < as.length := Nat.mod_lt _ (Nat.zero_lt_of_lt hj)
  rw [rotlElems_eq_rotate, List.getD_eq_getElem _ _ (by rwa [List.length_rotate]), List.getElem_rotate,
    List.getD_eq_getElem _ _ hmod]

/-- R218: place `j` takes the element of the place before, since the left rotation puts it back there. -/
theorem rotrElems_getD (as : List Word) {j : Nat} (hj : j < as.length) :
    (rotrElems as).getD j 0 = as.getD ((j + as.length - 1) % as.length) 0 := by
  have hmod : (j + as.length - 1) % as.length < (rotrElems as).length := by
    rw [rotrElems_length]
    exact Nat.mod_lt _ (Nat.zero_lt_of_lt hj)
  have hback : ((j + as.length - 1) % as.length + 1) % as.length = j := by
    rw [Nat.mod_add_mod, Nat.sub_add_cancel (by omega), Nat.add_mod_right, Nat.mod_eq_of_lt hj]
  have h := rotlElems_getD (rotrElems as) hmod
  rw [rotlElems_rotrElems, rotrElems_length, hback] at h
  exact h.symm

theorem rotlElems_iterate (as : List Word) (k : Nat) : rotlElems^[k] as = as.rotate k := by
  induction k with
  | zero => rw [List.rotate_zero, Function.iterate_zero_apply]
  | succ k ih => rw [Function.iterate_succ_apply', ih, rotlElems_eq_rotate, List.rotate_rotate]

theorem rotlElems_iterate_length (as : List Word) : rotlElems^[as.length] as = as := by
  rw [rotlElems_iterate, List.rotate_length]

/-- The `n` right rotations undo `n` left ones, which change nothing. -/
theorem rotrElems_iterate_length (as : List Word) : rotrElems^[as.length] as = as := by
  have h := rotrElems_rotlElems.iterate as.length as
  rwa [rotlElems_iterate_length] at h

/-! ## Elements compared with themselves (R178, R216) -/

/-- Only a NaN differs from itself. -/
theorem feq_self (f : Fmt) (w : Word) : feq f w w = !f.isNaN w := by simp [feq]

theorem elemEq_self_iff (bitwise : Bool) (f : Fmt) (w : Word) :
    elemEq bitwise f w w = true ↔ bitwise = true ∨ f.isNaN w = false := by
  cases bitwise <;> simp [elemEq, feq_self]

theorem allElemEq_self_iff (bitwise : Bool) (f : Fmt) (as : List Word) :
    allElemEq bitwise f as as = true ↔ bitwise = true ∨ ∀ w ∈ as, f.isNaN w = false := by
  induction as with
  | nil => simp [allElemEq]
  | cons a as ih => rw [allElemEq, Bool.and_eq_true, elemEq_self_iff, ih, List.forall_mem_cons, or_and_left]

end Sys2Proof

namespace Sys2Proof.Machine

/-! ## Sizes (R191 to R193, R197) -/

section Sizes

variable {s : State} {rs1 : SReg}

theorem sizeOperand_size (h : s.x[rs1].toInt < 1) : s.sizeOperand rs1 = raise .size := if_pos h

/-- A size above `VLMAX` passes the check before, since `VLMAX` is not negative. -/
theorem sizeOperand_capacity (h : (s.params.vlmax : Int) < s.x[rs1].toInt) : s.sizeOperand rs1 = raise .capacity :=
  (if_neg (by simp only [State.getX]; omega)).trans (if_pos h)

theorem exec_vnew (f : Fmt) (vd : VReg) (rs1 : SReg) (s : State) :
    exec (f.vnew vd rs1) s = finish (f.vnew vd rs1) s (vnewBody f vd rs1 s) := by
  cases f <;> rfl

/-- `VNEW` and `VGEN` check the size before anything else. -/
theorem exec_vnew_vgen_of_raise {c : FaultCode} (h : s.sizeOperand rs1 = raise c) (f : Fmt) (vd : VReg) (rs2 : SReg) :
    exec (f.vnew vd rs1) s = .next (s.afterFault (encodeWord (f.vnew vd rs1)) c.code) ∧
    exec (f.vgen vd rs1 rs2) s = .next (s.afterFault (encodeWord (f.vgen vd rs1 rs2)) c.code) :=
  ⟨(exec_vnew ..).trans (finish_bind_raise h ..), (exec_vgen ..).trans (finish_bind_raise h ..)⟩

end Sizes

/-- Settles O41: the size operand is the first check of both commands. -/
theorem sizeFaults : Obligations.SizeFaults := by
  intro f s vd rs1 rs2
  exact ⟨fun h => exec_vnew_vgen_of_raise (sizeOperand_size h) .., fun h => exec_vnew_vgen_of_raise (sizeOperand_capacity h) ..⟩

/-- Settles O42: the size passes its check, and the vector is written. -/
theorem vnewCompletes : Obligations.VnewCompletes := by
  intro f s vd rs1 n hn hpos hmax
  exact (exec_vnew ..).trans (finish_bind_ok (sizeOperand_eq_ok.2 ⟨hn, hpos, hmax⟩) rfl)

/-! ## Rotations and copies (R201, R217, R218) -/

section Moves

variable {s : State} {vs1 : VReg} {a : VecReg}

theorem exec_vrotl (ha : s.v[vs1] = some a) (vd : VReg) :
    exec (.vrotl vd vs1) s = .next ((s.setV vd ⟨a.fmt, rotlElems a.elems⟩).afterOk 0) :=
  finish_bind_ok (vecOperand_some ha) rfl

theorem exec_vrotr (ha : s.v[vs1] = some a) (vd : VReg) :
    exec (.vrotr vd vs1) s = .next ((s.setV vd ⟨a.fmt, rotrElems a.elems⟩).afterOk 0) :=
  finish_bind_ok (vecOperand_some ha) rfl

theorem exec_vcopy (ha : s.v[vs1] = some a) (vd : VReg) : exec (.vcopy vd vs1) s = .next ((s.setV vd a).afterOk 0) :=
  finish_bind_ok (vecOperand_some ha) rfl

/-- A command that writes `vd` leaves it so when it completes. -/
theorem afterOk_setV_v (s : State) (vd : VReg) (a : VecReg) (w : Word) : ((s.setV vd a).afterOk w).v[vd] = some a :=
  State.getV_setV_same ..

/-- A copy of a register, written anywhere, leaves the register what it was. -/
theorem setV_copy_v (ha : s.v[vs1] = some a) (vd : VReg) (w : Word) : ((s.setV vd a).afterOk w).v[vs1] = some a := by
  by_cases h : vs1 = vd
  · subst h
    exact afterOk_setV_v ..
  · exact (s.getV_setV_other a h).trans ha

end Moves

/-- Settles O50: the register is read before `vd` is written. -/
theorem rotateVectorCompletes : Obligations.RotateVectorCompletes := by
  intro s vd vs1 a ha
  exact ⟨⟨_, exec_vrotl ha vd, rotlElems_length _, fun _ => rotlElems_getD _⟩,
    ⟨_, exec_vrotr ha vd, rotrElems_length _, fun _ => rotrElems_getD _⟩⟩

/-- Settles O51: the laws of the lists, and a copy that compares each element with itself. -/
theorem rotationAndCopyLaws : Obligations.RotationAndCopyLaws := by
  refine ⟨fun s vd vs1 a ha => ⟨?leftRight, ?rightLeft⟩,
    fun es => ⟨rotlElems_iterate_length es, rotrElems_iterate_length es⟩, fun s rd vd vs1 a ha => ?copy⟩
  case leftRight =>
    refine ⟨_, _, exec_vrotl ha vd, exec_vrotr (afterOk_setV_v ..) vd, ?_⟩
    rw [afterOk_setV_v, rotrElems_rotlElems]
  case rightLeft =>
    refine ⟨_, _, exec_vrotr ha vd, exec_vrotl (afterOk_setV_v ..) vd, ?_⟩
    rw [afterOk_setV_v, rotlElems_rotrElems]
  case copy =>
    refine ⟨_, _, exec_vcopy ha vd, exec_veq (setV_copy_v ha vd 0) (afterOk_setV_v ..) rfl rd, ?_⟩
    rw [← allElemEq_self_iff]
    simp [State.afterOk]

end Sys2Proof.Machine

/-! # Vector algebra: the statements of family 46_vector_algebra

The faults come from the order of the checks, and the laws of sums and products from tests that treat both operands alike. -/

namespace Sys2Proof.Machine

/-! ## Pairs of sources (R210) -/

section Compatible

variable {s : State} {vs1 vs2 : VReg} {a b : VecReg}

theorem compatibleVecs_fmtmis (ha : s.getV vs1 = some a) (hb : s.getV vs2 = some b) (hfmt : a.fmt ≠ b.fmt) :
    s.compatibleVecs vs1 vs2 = raise .fmtmis := by
  rw [State.compatibleVecs, vecsOfOneFormat_fmtmis ha hb hfmt, bind_raise_eq]

theorem compatibleVecs_mismatch (ha : s.getV vs1 = some a) (hb : s.getV vs2 = some b) (hfmt : a.fmt = b.fmt)
    (hlen : a.len ≠ b.len) : s.compatibleVecs vs1 vs2 = raise .mismatch := by
  rw [State.compatibleVecs, vecsOfOneFormat_eq_ok.2 ⟨ha, hb, hfmt⟩, bind_ok_eq]
  exact if_pos hlen

/-- `VDOT`, `VCOS` and `VMUL` check their sources before anything else. -/
theorem exec_of_compatibleVecs_raise {c : FaultCode} (h : s.compatibleVecs vs1 vs2 = raise c) (rd : SReg) (vd : VReg) :
    ∀ i ∈ [Instr.vdot rd vs1 vs2, .vcos rd vs1 vs2, .vmul vd vs1 vs2],
      exec i s = .next (s.afterFault (encodeWord i) c.code) := by
  simp only [List.forall_mem_cons]
  exact ⟨finish_bind_raise h .., finish_bind_raise h .., finish_bind_raise h .., nofun⟩

end Compatible

/-- Settles O46: each clause is one way in which the check of the two sources fails. -/
theorem compatibilityFaults : Obligations.CompatibilityFaults := by
  intro s rd vd vs1 vs2 i hi
  exact ⟨fun h => exec_of_compatibleVecs_raise (compatibleVecs_invalid h) rd vd i hi, fun a b ha hb =>
    ⟨fun hfmt => exec_of_compatibleVecs_raise (compatibleVecs_fmtmis ha hb hfmt) rd vd i hi,
      fun hfmt hlen => exec_of_compatibleVecs_raise (compatibleVecs_mismatch ha hb hfmt hlen) rd vd i hi⟩⟩

/-! ## Collections (R219, R220) -/

section CollectionFaults

variable {s : State} {vd : VReg} {mask : BitVec 16} {ref first self : VecReg} {ms rest : List VecReg} {c : FaultCode}

/-- A member of another format decides, whatever the lengths. -/
theorem membersAgree_fmtmis (h : ∃ m ∈ ms, m.fmt ≠ ref.fmt) : membersAgree ref ms = raise .fmtmis :=
  if_pos (by simpa using h)

theorem membersAgree_mismatch (hfmt : ∀ m ∈ ms, m.fmt = ref.fmt) (hlen : ∃ m ∈ ms, m.len ≠ ref.len) :
    membersAgree ref ms = raise .mismatch :=
  (if_neg (by simpa using hfmt)).trans (if_pos (by simpa using hlen))

theorem none_mem_collectionOf : none ∈ s.collectionOf mask ↔ ∃ r ∈ members mask, s.getV r = none := by
  rw [collectionOf_eq, List.mem_map]

/-- A collection of valid members is read. -/
theorem vecsOf_members (h : s.collectionOf mask = ms.map some) : s.vecsOf (members mask) = .ok ms :=
  vecsOf_eq_ok.2 (collectionOf_eq s mask ▸ h)

theorem mask_ne_zero_of_collectionOf_cons (h : s.collectionOf mask = (first :: rest).map some) : mask ≠ 0 := by
  intro hmask
  rw [collectionOf_eq, members_eq_nil.2 hmask] at h
  cases h

theorem collection_empty (h : mask = 0) : s.collection mask = raise .empty := if_pos h

/-- The last check of `VAGG` compares valid members with the first one. -/
theorem collection_of_membersAgree_raise (hcoll : s.collectionOf mask = (first :: rest).map some)
    (h : membersAgree first (first :: rest) = raise c) : s.collection mask = raise c := by
  rw [State.collection, if_neg (mask_ne_zero_of_collectionOf_cons hcoll), vecsOf_members hcoll, bind_ok_eq]
  simp only [h, bind_raise_eq]

theorem collectionFor_empty (h : mask = 0) : s.collectionFor vd mask = raise .empty := if_pos h

/-- The mask is checked before `vd` and the members are read; a mask with a member is not 0. -/
theorem collectionFor_aliased (h : mask.getLsbD vd.val = true) : s.collectionFor vd mask = raise .aliased :=
  (if_neg (mask_ne_zero_of_mem h)).trans (if_pos h)

/-- The last check of `VAGGI` compares valid members with `vd`. -/
theorem collectionFor_of_membersAgree_raise (hmask : mask ≠ 0) (hout : mask.getLsbD vd.val = false)
    (hself : s.getV vd = some self) (hcoll : s.collectionOf mask = ms.map some) (h : membersAgree self ms = raise c) :
    s.collectionFor vd mask = raise c := by
  rw [State.collectionFor, if_neg hmask, if_neg (Bool.eq_false_iff.1 hout), vecOperand_some hself, bind_ok_eq,
    vecsOf_members hcoll, bind_ok_eq, h, bind_raise_eq]

theorem exec_vagg_of_raise (h : s.collection mask = raise c) (vd : VReg) :
    exec (.vagg vd mask) s = .next (s.afterFault (encodeWord (.vagg vd mask)) c.code) :=
  finish_bind_raise h ..

theorem exec_vaggi_of_raise (h : s.collectionFor vd mask = raise c) :
    exec (.vaggi vd mask) s = .next (s.afterFault (encodeWord (.vaggi vd mask)) c.code) :=
  finish_bind_raise h ..

end CollectionFaults

/-- Settles O53: each clause is one check of the collection, those before it having passed. -/
theorem aggregationFaults : Obligations.AggregationFaults := by
  intro s vd mask
  refine ⟨fun h => ⟨exec_vagg_of_raise (collection_empty h) vd, exec_vaggi_of_raise (collectionFor_empty h)⟩, fun h => ?invalid,
    fun first rest hcoll => ⟨fun hfmt => ?format, fun hfmt hlen => ?length⟩,
    fun h => exec_vaggi_of_raise (collectionFor_aliased h),
    fun hmask hout => ⟨fun h => ?invalidFor, fun self ms hself hcoll =>
      ⟨fun hfmt => ?formatFor, fun hfmt hlen => ?lengthFor⟩⟩⟩
  case invalid =>
    obtain ⟨r, hr, hnone⟩ := none_mem_collectionOf.1 h
    exact exec_vagg_of_raise (collection_invalid (mem_members.1 hr) hnone) vd
  case format =>
    obtain ⟨m, hm, hne⟩ := hfmt
    exact exec_vagg_of_raise
      (collection_of_membersAgree_raise hcoll (membersAgree_fmtmis ⟨m, List.mem_cons_of_mem _ hm, hne⟩)) vd
  case length =>
    obtain ⟨m, hm, hne⟩ := hlen
    exact exec_vagg_of_raise (collection_of_membersAgree_raise hcoll
      (membersAgree_mismatch (List.forall_mem_cons.2 ⟨rfl, hfmt⟩) ⟨m, List.mem_cons_of_mem _ hm, hne⟩)) vd
  case invalidFor => exact exec_vaggi_of_raise (collectionFor_invalid hmask hout (h.imp_right none_mem_collectionOf.1))
  case formatFor =>
    exact exec_vaggi_of_raise (collectionFor_of_membersAgree_raise hmask hout hself hcoll (membersAgree_fmtmis hfmt))
  case lengthFor =>
    exact exec_vaggi_of_raise
      (collectionFor_of_membersAgree_raise hmask hout hself hcoll (membersAgree_mismatch hfmt hlen))

end Sys2Proof.Machine

namespace Sys2Proof

/-! ## Operands exchanged (R173, R174, R212) -/

section Commutes

variable (f : Fmt) (a b : Word)

/-- Where the result names one operand, it is the only infinity, or both are infinities of one sign; every other test, and the
exact sum, treats both operands alike. -/
theorem faddVal_comm : faddVal f a b = faddVal f b a := by
  cases ha : f.isInf a with
  | true =>
    cases hb : f.isInf b with
    | true =>
      by_cases hsign : f.sign a = f.sign b
      · simp [faddVal, ha, hb, hsign, Bool.or_comm]
      · simp [faddVal, ha, hb, hsign, Ne.symm hsign, Bool.or_comm]
    | false => simp [faddVal, ha, hb, Bool.or_comm]
  | false =>
    cases hb : f.isInf b with
    | true => simp [faddVal, ha, hb, Bool.or_comm]
    | false => simp [faddVal, ha, hb, Bool.or_comm, Bool.and_comm, Int.add_comm]

theorem fmulVal_comm : fmulVal f a b = fmulVal f b a := by
  have hinvalid : (f.isInf a && f.isZero b || f.isZero a && f.isInf b) = (f.isInf b && f.isZero a || f.isZero b && f.isInf a) := by
    rw [Bool.or_comm, Bool.and_comm (f.isZero a), Bool.and_comm (f.isInf a)]
  simp only [fmulVal, hinvalid, Bool.xor_comm (f.sign a), Bool.or_comm (f.isNaN a), Bool.or_comm (f.isInf a),
    Bool.or_comm (f.isZero a), Nat.mul_comm (f.units a)]

end Commutes

end Sys2Proof

namespace Sys2Proof.Machine

/-- The terms of the exchanged product are the same ones in the same order. -/
theorem dotValue_comm (f : Fmt) (as bs : List Word) : dotValue f as bs = dotValue f bs as := by
  rw [dotValue, dotValue, ← List.zip_swap bs as, List.foldlM_map]
  simp only [Prod.fst_swap, Prod.snd_swap, fmulVal_comm f]

/-- Settles O57: the dot product takes its terms in the order of the index, and each is a product. -/
theorem sumsAndProductsCommute : Obligations.SumsAndProductsCommute :=
  fun f => ⟨fun a b => ⟨faddVal_comm f a b, fmulVal_comm f a b⟩, fun as bs _ => dotValue_comm f as bs⟩

end Sys2Proof.Machine

/-! # Faults and the fault record, and the statements of families 60_exceptions and 70_reset_and_hazards

`OnlyRaises` says which faults a check may raise; the checks of an instruction, put together, are its list in R242.
`step_taken_cases` says how a taken command ends, with the word that its fault records. -/

namespace Sys2Proof.Machine

/-! ## The faults of a check and of a body (R242) -/

/-- `m` raises no fault but those of `cs`. -/
def OnlyRaises {α : Type} (cs : List FaultCode) (m : Except Stop α) : Prop := ∀ c, m = raise c → c ∈ cs

section Checks

variable {α β : Type} {cs ds : List FaultCode} {m n : Except Stop α}

theorem OnlyRaises.ok (a : α) : OnlyRaises [] (.ok a) := nofun

theorem OnlyRaises.hang : OnlyRaises [] (.error .hang : Except Stop α) := nofun

theorem OnlyRaises.raise (c : FaultCode) : OnlyRaises [c] (raise c : Except Stop α) :=
  fun _ h => List.mem_singleton.2 ((raise_inj ..).1 h).symm

theorem OnlyRaises.mono (hm : OnlyRaises cs m) (h : cs ⊆ ds) : OnlyRaises ds m := fun c hc => h (hm c hc)

/-- A sequence of checks raises the faults of its parts. -/
theorem OnlyRaises.bind {k : α → Except Stop β} (hm : OnlyRaises cs m) (hk : ∀ a, OnlyRaises ds (k a)) :
    OnlyRaises (cs ++ ds) (m >>= k) := by
  intro c h
  cases m with
  | error e =>
    have he : Except.error e = (Machine.raise c : Except Stop α) := congrArg Except.error (Except.error.inj h)
    exact List.mem_append_left _ (hm c he)
  | ok a => exact List.mem_append_right _ (hk a c h)

theorem OnlyRaises.ite {p : Prop} [Decidable p] (hm : OnlyRaises cs m) (hn : OnlyRaises ds n) :
    OnlyRaises (cs ++ ds) (if p then m else n) := by
  split
  · exact hm.mono (List.subset_append_left ..)
  · exact hn.mono (List.subset_append_right ..)

end Checks

section Operands

variable (s : State)

theorem rotateCount_raises (width n : Nat) : OnlyRaises [.shift] (rotateCount width n) := (OnlyRaises.raise _).ite (.ok _)

theorem sizeOperand_raises (r : SReg) : OnlyRaises [.size, .capacity] (s.sizeOperand r) :=
  (OnlyRaises.raise _).ite ((OnlyRaises.raise _).ite (.ok _))

theorem epsilonOperand_raises (f : Fmt) (r : SReg) : OnlyRaises [.epsilon] (s.epsilonOperand f r) :=
  (OnlyRaises.ok _).ite (.raise _)

theorem indexOperand_raises (a : VecReg) (r : SReg) : OnlyRaises [.index] (s.indexOperand a r) :=
  (OnlyRaises.raise _).ite (.ok _)

theorem vecOperand_raises (r : VReg) : OnlyRaises [.vinvalid] (s.vecOperand r) := by
  cases h : s.getV r with
  | none => exact vecOperand_none h ▸ .raise _
  | some a => exact vecOperand_some h ▸ (OnlyRaises.ok a).mono (List.nil_subset _)

theorem vecsOfOneFormat_raises (r1 r2 : VReg) : OnlyRaises [.vinvalid, .fmtmis] (s.vecsOfOneFormat r1 r2) := by
  have h := (vecOperand_raises s r1).bind fun a => (vecOperand_raises s r2).bind fun b =>
    (OnlyRaises.raise .fmtmis).ite (p := a.fmt ≠ b.fmt) (.ok (a, b))
  exact h.mono (by decide)

theorem compatibleVecs_raises (r1 r2 : VReg) : OnlyRaises [.vinvalid, .fmtmis, .mismatch] (s.compatibleVecs r1 r2) :=
  (vecsOfOneFormat_raises s r1 r2).bind fun _ => (OnlyRaises.raise _).ite (.ok _)

theorem vecsOf_raises (rs : List VReg) : OnlyRaises [.vinvalid] (s.vecsOf rs) := by
  induction rs with
  | nil => exact (OnlyRaises.ok _).mono (List.nil_subset _)
  | cons r rs ih => exact ((vecOperand_raises s r).bind fun _ => ih.bind fun _ => .ok _).mono (by decide)

theorem membersAgree_raises (ref : VecReg) (as : List VecReg) : OnlyRaises [.fmtmis, .mismatch] (membersAgree ref as) :=
  (OnlyRaises.raise _).ite ((OnlyRaises.raise _).ite (.ok _))

theorem collection_raises (mask : BitVec 16) :
    OnlyRaises [.empty, .vinvalid, .fmtmis, .mismatch] (s.collection mask) := by
  refine ((OnlyRaises.raise .empty).ite ((vecsOf_raises s _).bind (ds := [.empty, .fmtmis, .mismatch]) fun as => ?_)).mono
    (by decide)
  cases as with
  | nil => exact (OnlyRaises.raise _).mono (by decide)
  | cons a as => exact ((membersAgree_raises a (a :: as)).bind fun _ => .ok _).mono (by decide)

theorem collectionFor_raises (vd : VReg) (mask : BitVec 16) :
    OnlyRaises [.empty, .aliased, .vinvalid, .fmtmis, .mismatch] (s.collectionFor vd mask) := by
  have h := (vecOperand_raises s vd).bind fun ref => (vecsOf_raises s (members mask)).bind fun as =>
    (membersAgree_raises ref as).bind fun _ => .ok (ref, as)
  exact ((OnlyRaises.raise .empty).ite ((OnlyRaises.raise .aliased).ite h)).mono (by decide)

end Operands

section Bodies

variable {n count : Nat} {f : Fmt} {rd rs1 rs2 : SReg} {vd : VReg} {s : State}

theorem rolBody_raises : OnlyRaises [.shift] (rolBody n rd rs1 count s) := (rotateCount_raises n count).bind fun _ => .ok _

theorem rorBody_raises : OnlyRaises [.shift] (rorBody n rd rs1 count s) := (rotateCount_raises n count).bind fun _ => .ok _

theorem rolBody_raises_of_lt (h : count < n) : OnlyRaises [] (rolBody n rd rs1 count s) := by
  rw [rolBody, rotateCount_eq, if_pos h]
  exact .ok _

theorem rorBody_raises_of_lt (h : count < n) : OnlyRaises [] (rorBody n rd rs1 count s) := by
  rw [rorBody, rotateCount_eq, if_pos h]
  exact .ok _

theorem nextvecBody_raises : OnlyRaises [.epsilon] (nextvecBody f rd rs1 s) := by
  refine (epsilonOperand_raises s f rs1).bind fun e => ?_
  cases nextVec s.params.primitives f e s.gen with
  | none => exact .hang
  | some r => exact .ok _

theorem vnewBody_raises : OnlyRaises [.size, .capacity] (vnewBody f vd rs1 s) := (sizeOperand_raises s rs1).bind fun _ => .ok _

theorem vgenBody_raises : OnlyRaises [.size, .capacity, .epsilon] (vgenBody f vd rs1 rs2 s) := by
  refine (sizeOperand_raises s rs1).bind fun n => (epsilonOperand_raises s f rs2).bind fun e => ?_
  cases genElements s.params.primitives f e n s.gen with
  | none => exact .hang
  | some r => exact .ok _

end Bodies

/-- Every well-formed instruction is `finish` of a body that raises only the faults of its list. -/
theorem exec_raisesBody {i : Instr} (hwf : i.wellFormed = true) (s : State) :
    ∃ b cs, exec i s = finish i s b ∧ OnlyRaises cs b ∧ cs.map FaultCode.code = faultCodes i := by
  cases i with
  | rdcsr rd csr =>
    refine ⟨_, [.csr], rfl, ?_, rfl⟩
    cases s.readCsr csr with
    | none => exact .raise _
    | some w => exact (OnlyRaises.ok _).mono (List.nil_subset _)
  | rol32 _ _ _ | rol64 _ _ _ | rol32i _ _ _ => exact ⟨_, [.shift], rfl, rolBody_raises, rfl⟩
  | ror32 _ _ _ | ror64 _ _ _ | ror32i _ _ _ => exact ⟨_, [.shift], rfl, rorBody_raises, rfl⟩
  | rol64i _ _ _ => exact ⟨_, _, rfl, rolBody_raises_of_lt (of_decide_eq_true hwf), rfl⟩
  | ror64i _ _ _ => exact ⟨_, _, rfl, rorBody_raises_of_lt (of_decide_eq_true hwf), rfl⟩
  | next12Fmt3 _ | next01Fmt3 _ | nextunitFmt3 _ | nextvecFmt3 _ _ | vnewFmt3 _ _ | vgenFmt3 _ _ _ =>
    exact ⟨_, _, rfl, .raise .fmt, rfl⟩
  | nextvecH _ _ | nextvecS _ _ | nextvecD _ _ => exact ⟨_, [.epsilon], rfl, nextvecBody_raises, rfl⟩
  | vnewH _ _ | vnewS _ _ | vnewD _ _ => exact ⟨_, [.size, .capacity], rfl, vnewBody_raises, rfl⟩
  | vgenH _ _ _ | vgenS _ _ _ | vgenD _ _ _ => exact ⟨_, [.size, .capacity, .epsilon], rfl, vgenBody_raises, rfl⟩
  | vcopy _ vs1 | vnorm _ vs1 | vrotl _ vs1 | vrotr _ vs1 =>
    exact ⟨_, _, rfl, (vecOperand_raises s vs1).bind fun _ => .ok _, rfl⟩
  | vgete _ vs1 rs2 =>
    exact ⟨_, _, rfl, (vecOperand_raises s vs1).bind fun a => (indexOperand_raises s a rs2).bind fun _ => .ok _, rfl⟩
  | vsete vd rs1 _ =>
    exact ⟨_, _, rfl, (vecOperand_raises s vd).bind fun a => (indexOperand_raises s a rs1).bind fun _ => .ok _, rfl⟩
  | vdot _ vs1 vs2 | vcos _ vs1 vs2 | vmul _ vs1 vs2 =>
    exact ⟨_, _, rfl, (compatibleVecs_raises s vs1 vs2).bind fun _ => .ok _, rfl⟩
  | veq _ vs1 vs2 => exact ⟨_, _, rfl, (vecsOfOneFormat_raises s vs1 vs2).bind fun _ => .ok _, rfl⟩
  | vagg _ mask => exact ⟨_, _, rfl, (collection_raises s mask).bind fun _ => .ok _, rfl⟩
  | vaggi vd mask => exact ⟨_, _, rfl, (collectionFor_raises s vd mask).bind fun _ => .ok _, rfl⟩
  | _ => exact ⟨_, [], rfl, .ok (_, _), rfl⟩ -- the commands without a check

/-! ## How an instruction ends (R66, R243) -/

/-- From `s` to `t` a command has completed: one `OK` response, counted, and the fault record as it was. -/
def Completed (s t : State) : Prop :=
  t.cmdcnt = s.cmdcnt + 1 ∧ t.ferr = s.ferr ∧ t.fcmd = s.fcmd ∧ t.hung = s.hung ∧ ∃ w : Word, t.rspOut = s.rspOut ++ [⟨0, w⟩]

section Ends

variable {i : Instr} {s t : State}

theorem Effect.completed (h : Effect i s t) (w : Word) : Completed s (t.respond 0 w) := by
  rw [h.eq_update]
  exact ⟨rfl, rfl, rfl, rfl, w, rfl⟩

/-- An `OK` response is not that of a fault. -/
theorem append_ok_ne_append_fault {rs qs : List Response} {w v : Word} {c : FaultCode} :
    rs ++ [⟨0, w⟩] ≠ qs ++ [⟨c.code, v⟩] := by
  intro h
  have hlast := List.singleton_inj.1 (List.append_inj_right' h rfl)
  exact c.code_ne_zero (congrArg Response.code hlast).symm

/-- A command that answers with the code of a fault has raised that fault. -/
theorem eq_raise_of_finish {b : Body} {code : FaultCode} {v : Word} (h : finish i s b = .next t)
    (hrsp : t.rspOut = s.rspOut ++ [⟨code.code, v⟩]) : b = raise code := by
  obtain ⟨u, w, -, hu⟩ | ⟨d, hb, hu⟩ | ⟨-, hu⟩ := finish_cases i s b <;> obtain rfl := Host.Outcome.next.inj (h.symm.trans hu)
  · exact absurd hrsp append_ok_ne_append_fault
  · have hcode : d.code = code.code ∧ 0 = v := by simpa using hrsp
    rw [hb, FaultCode.code_inj hcode.left]
  · simp at hrsp

/-- The fault of a well-formed instruction is one of its list (R242). -/
theorem code_mem_faultCodes {code : FaultCode} (hwf : i.wellFormed = true)
    (h : exec i s = .next (s.takeFault (encodeWord i) code)) : code.code ∈ faultCodes i := by
  obtain ⟨b, cs, hexec, hb, hcodes⟩ := exec_raisesBody hwf s
  have hraise := eq_raise_of_finish (hexec.symm.trans h) (s.takeFault_rspOut ..)
  exact hcodes ▸ List.mem_map_of_mem (hb code hraise)

end Ends

/-- Settles O13, by the three ways an instruction can end; which fault it may be is `code_mem_faultCodes`. -/
theorem faultsOfEachInstruction : Obligations.FaultsOfEachInstruction := by
  intro i s hwf
  obtain ⟨t, w, heff, h⟩ | ⟨code, h⟩ | ⟨-, h⟩ := exec_cases i s
  · exact .inl ⟨_, h, heff.completed w⟩
  · refine .inr (.inl ⟨code.code, code_mem_faultCodes hwf h, ?_⟩)
    rw [h, takeFault_eq_afterFault]
  · exact .inr (.inr h)

/-! ## Steps that take no command (R246, R277, R278) -/

/-- Settles O7: such a unit takes no command, so only time passes. -/
theorem quietSteps : Obligations.QuietSteps := by
  intro s hrst hidle
  obtain ⟨c, t, hready, -, cs, hcmd, -⟩ | hquiet := takes_or_quiet hrst
  · simp [hready, hcmd] at hidle
  · exact hquiet

/-! ## The level `err` and the fault record (R28, R29, R274) -/

section Record

variable {s t u : State} {c : Command}

theorem err_eq_true : s.err = true ↔ s.ferr ≠ 0 := bne_iff_ne

theorem err_eq_false : s.err = false ↔ s.ferr = 0 := bne_eq_false_iff_eq

/-- Taking a command is no response and leaves the record. -/
theorem State.Takes.record_eq (h : s.Takes c t) : t.ferr = s.ferr ∧ t.fcmd = s.fcmd ∧ t.rspOut = s.rspOut := by
  obtain ⟨-, -, cs, -, rfl⟩ := h
  exact ⟨rfl, rfl, rfl⟩

/-- How a taken command ends: completed, with a fault that records the command's word, or hung. -/
theorem step_taken_cases (ht : s.Takes c t) (h : step s = .next u) :
    Completed t u ∨ (∃ code, u = t.takeFault c.word code) ∨ u = t.hangUp := by
  cases hd : decode c.word c.wdata with
  | error e =>
    obtain rfl := Host.Outcome.next.inj (h.symm.trans (step_of_decode_error ht hd))
    exact .inr (.inl ⟨.illegal, (takeFault_eq_afterFault t c.word .illegal).symm⟩)
  | ok i =>
    obtain ⟨-, hword, -⟩ := isEncoding_of_decode hd
    obtain ⟨v, w, heff, rfl⟩ | hfault | rfl := exec_next_cases ((stepRunsDecodedCommand s t c i ht hd).symm.trans h)
    · exact .inl (heff.completed w)
    · exact .inr (.inl (hword ▸ hfault))
    · exact .inr (.inr rfl)

/-- The first fault is recorded. -/
theorem takeFault_first (h : s.ferr = 0) (w : CmdWord) (code : FaultCode) :
    (s.takeFault w code).ferr = code.code ∧ (s.takeFault w code).fcmd = w := by
  rw [s.takeFault_ferr, s.takeFault_fcmd, if_pos h, if_pos h]
  exact ⟨rfl, rfl⟩

/-- A later fault is not. -/
theorem takeFault_later (h : s.ferr ≠ 0) (w : CmdWord) (code : FaultCode) :
    (s.takeFault w code).ferr = s.ferr ∧ (s.takeFault w code).fcmd = s.fcmd := by
  rw [s.takeFault_ferr, s.takeFault_fcmd, if_neg h, if_neg h]
  exact ⟨rfl, rfl⟩

/-- After a fault `err` is 1, whether it was the first or not. -/
theorem takeFault_err (s : State) (w : CmdWord) (code : FaultCode) : (s.takeFault w code).err = true := by
  rw [err_eq_true]
  by_cases h : s.ferr = 0
  · obtain ⟨hferr, -⟩ := takeFault_first h w code
    exact hferr ▸ code.code_ne_zero
  · obtain ⟨hferr, -⟩ := takeFault_later h w code
    exact hferr ▸ h

/-- With `rst` low a step leaves the record, or takes a command that faults. -/
theorem record_kept_or_fault (hrst : s.rstNow = .low) (h : step s = .next t) :
    (t.ferr = s.ferr ∧ t.fcmd = s.fcmd) ∨ ∃ c u code, s.Takes c u ∧ t = u.takeFault c.word code := by
  obtain ⟨c, u, hu⟩ | hquiet := takes_or_quiet hrst
  · obtain ⟨hferr, hfcmd, -⟩ := hu.record_eq
    obtain ⟨-, hferr', hfcmd', -⟩ | ⟨code, hfault⟩ | rfl := step_taken_cases hu h
    · exact .inl ⟨hferr'.trans hferr, hfcmd'.trans hfcmd⟩
    · exact .inr ⟨c, u, code, hu, hfault⟩
    · exact .inl ⟨hferr, hfcmd⟩
  · obtain rfl := Host.Outcome.next.inj (h.symm.trans hquiet)
    exact .inl ⟨rfl, rfl⟩

/-- A taken command that answers with a code other than 0 has taken that fault. -/
theorem fault_of_response {r : Response} (ht : s.Takes c u) (h : step s = .next t) (hrsp : t.rspOut = s.rspOut ++ [r])
    (hr : r.code ≠ 0) : ∃ code, t = u.takeFault c.word code ∧ r.code = code.code := by
  obtain ⟨-, -, hu⟩ := ht.record_eq
  rw [← hu] at hrsp
  obtain ⟨-, -, -, -, w, hok⟩ | ⟨code, rfl⟩ | rfl := step_taken_cases ht h
  · obtain rfl : r = ⟨0, w⟩ := List.singleton_inj.1 (List.append_cancel_left (hrsp.symm.trans hok))
    exact absurd rfl hr
  · obtain rfl : r = ⟨code.code, 0⟩ := by simpa using hrsp.symm
    exact ⟨code, rfl, rfl⟩
  · simp at hrsp

end Record

/-- Settles O14: a step with `rst` low changes the record by a fault at most, and only by the first; a reset clears it. -/
theorem errLevelAndStickyRecord : Obligations.ErrLevelAndStickyRecord := by
  refine ⟨fun s => err_eq_true, fun s t u c r ht h hrsp hr => ?answers, fun s t hrst h herr => ?stays,
    fun s t hrst h hlow hrise => ?rises, fun s t hrst h => ?reset⟩
  case answers =>
    obtain ⟨code, rfl, hcode⟩ := fault_of_response ht h hrsp hr
    obtain ⟨hferr, -⟩ := ht.record_eq
    exact ⟨takeFault_err .., fun hlow => hcode ▸ takeFault_first (hferr.trans (err_eq_false.1 hlow)) ..⟩
  case stays =>
    have hkept : t.ferr = s.ferr ∧ t.fcmd = s.fcmd := by
      obtain hkept | ⟨c, u, code, ht, rfl⟩ := record_kept_or_fault hrst h
      · exact hkept
      · obtain ⟨hferr, hfcmd, -⟩ := ht.record_eq
        exact hferr ▸ hfcmd ▸ takeFault_later (hferr ▸ err_eq_true.1 herr) c.word code
    obtain ⟨hferr, hfcmd⟩ := hkept
    exact ⟨err_eq_true.2 (hferr ▸ err_eq_true.1 herr), hferr, hfcmd⟩
  case rises =>
    obtain ⟨hferr, -⟩ | ⟨c, u, code, ht, rfl⟩ := record_kept_or_fault hrst h
    · exact absurd (hferr.trans (err_eq_false.1 hlow)) (err_eq_true.1 hrise)
    · obtain ⟨hkept, -, hrsp⟩ := ht.record_eq
      obtain ⟨hferr, hfcmd⟩ := takeFault_first (hkept.trans (err_eq_false.1 hlow)) c.word code
      exact ⟨c, u, ht, hfcmd, by rw [hferr, State.takeFault_rspOut, hrsp]⟩
  case reset =>
    have hreset : s.rstNow = .between ∨ s.rstNow = .during := by
      cases hnow : s.rstNow with
      | low => exact absurd hnow hrst
      | between => exact .inl rfl
      | during => exact .inr rfl
    obtain rfl := Host.Outcome.next.inj (h.symm.trans (step_of_reset hreset))
    rfl

end Sys2Proof.Machine
